-- ==== Sys2Proof/Word.lean ====
section
/-! DEFINITION. The words of the machine: a byte, a 32-bit bus word, and the two groups of bytes that every
part of the core works on. `00_scope.md` R9, R12, R13. -/

namespace Sys2Proof

/-- An unsigned 8-bit value (R9). As a field element, bit k is the coefficient of x^k (R91). -/
abbrev Byte := BitVec 8

/-- A word on the host bus, 32 bits (R9). -/
abbrev Word := BitVec 32

/-- Four consecutive bytes, `b0` at the lowest index: a key or schedule word (R13), a column of the AES
state, `b0` in row 0 (R12), or the bytes one bus word carries (R67). -/
structure Quad where
  b0 : Byte
  b1 : Byte
  b2 : Byte
  b3 : Byte
  deriving DecidableEq, Repr, Inhabited

/-- Sixteen consecutive bytes, `q0` at the lowest indices: an AES state, whose column c is `qc` (R12), a
round key, an IV or a content block (R69). -/
structure Block where
  q0 : Quad
  q1 : Quad
  q2 : Quad
  q3 : Quad
  deriving DecidableEq, Repr, Inhabited

end Sys2Proof
end

