-- ==== Sys2Proof/Syntax.lean ====
section
/-! DEFINITION. The command set (`Instr`, one constructor per row of the opcode table, R92), the mnemonics,
and the statements of the host's assembler syntax (R97, R98). -/

namespace Sys2Proof

/-- A command of the core (R92). An operand is the byte of its field A or B, used as it stands (R91); every
other operand is a register of `State`. -/
inductive Instr where
  | gfmul (a b : Byte)
  | xtime (a : Byte)
  | mul3 (a : Byte)
  | sbox (x : Byte)
  | invsbox (x : Byte)
  | rcon (i : Byte)
  | numrounds
  | numkeywords
  | keyexp
  | getrk (r : Byte)
  | addrk
  | subbytes
  | invsubbytes
  | shiftrows
  | invshiftrows
  | mixcolumns
  | invmixcolumns
  | encrypt
  | decrypt
  | ecbEnc
  | ecbDec
  | cbcEnc
  | cbcDec
  deriving DecidableEq, Repr, Inhabited

/-- The mnemonics of R92, in the table's order. -/
inductive Mnemonic where
  | GFMUL | XTIME | MUL3 | SBOX | INVSBOX | RCON | NUMROUNDS | NUMKEYWORDS | KEYEXP | GETRK | ADDRK
  | SUBBYTES | INVSUBBYTES | SHIFTROWS | INVSHIFTROWS | MIXCOLUMNS | INVMIXCOLUMNS | ENCRYPT | DECRYPT
  | ECB_ENC | ECB_DEC | CBC_ENC | CBC_DEC
  deriving DecidableEq, Repr, Inhabited

/-- Why a word is illegal (R94): one constructor per kind the rule lists. -/
inductive IllegalWord where
  /-- RSV, bits 31:24, is not 0. -/
  | reservedNonzero
  /-- OPC, bits 7:0, is no opcode of R92. -/
  | unknownOpcode
  /-- An operand field the opcode does not use is not 0. -/
  | unusedOperandNonzero
  deriving DecidableEq, Repr

/-- The byte arrays `RDB` and `WRB` name (R97). -/
inductive ArrayName where
  | key | iv | state | rk | sched | buf
  deriving DecidableEq, Repr

/-- The pseudo-instructions of R98. -/
inductive Pseudo where
  | mul2 (a : Byte)
  | mul9 (a : Byte)
  | mulB (a : Byte)
  | mulD (a : Byte)
  | mulE (a : Byte)
  | setkey128
  | setkey192
  | setkey256
  | whiten (r : Byte)
  | encRound (r : Byte)
  | encFinal (r : Byte)
  | decRound (r : Byte)
  | decFinal
  deriving DecidableEq, Repr

/-- A statement of a host program as it is written (R97): numbers not yet checked. -/
inductive Stmt where
  | wr (off v : Nat)
  | rd (off : Nat)
  /-- `WRB name+k, hexstring`. -/
  | wrb (name : ArrayName) (k : Nat) (bytes : List Byte)
  | rdb (name : ArrayName) (n : Nat)
  | wait
  /-- `<MNEMONIC> [a[, b]]`. -/
  | command (m : Mnemonic) (operands : List Nat)
  | pseudo (p : Pseudo)
  deriving DecidableEq, Repr

end Sys2Proof
end

