-- ==== Sys2Proof/WellFormed.lean ====
section
/-! DEFINITION. What the assembler accepts (R97). An `Instr` needs no check of its own: its operands are
bytes by their type, so a value that does not fit in a byte cannot be written into one. The checks stand on
the statements of a host program, where operands are plain numbers. -/

namespace Sys2Proof

/-- How many operands a mnemonic takes (R92): GFMUL takes A and B, six commands take A, the rest none. -/
def Mnemonic.arity : Mnemonic → Nat
  | .GFMUL => 2
  | .XTIME | .MUL3 | .SBOX | .INVSBOX | .RCON | .GETRK => 1
  | .NUMROUNDS | .NUMKEYWORDS | .KEYEXP | .ADDRK | .SUBBYTES | .INVSUBBYTES | .SHIFTROWS | .INVSHIFTROWS
  | .MIXCOLUMNS | .INVMIXCOLUMNS | .ENCRYPT | .DECRYPT | .ECB_ENC | .ECB_DEC | .CBC_ENC | .CBC_DEC => 0

/-- A window offset `WR` or `RD` may name: a multiple of 4 within 16 bits (R97, R60). -/
def Stmt.offsetOk (off : Nat) : Bool := off % 4 == 0 && off < 0x10000

/-- The base offset of a byte array (R61). -/
def ArrayName.base : ArrayName → Nat
  | .key => 0x20
  | .iv => 0x40
  | .state => 0x50
  | .rk => 0x60
  | .sched => 0x100
  | .buf => 0x1000

/-- The bytes of a byte array in the largest core (R61, R8). Where BUF ends in a smaller core is the bus's
answer (R65), not the assembler's. -/
def ArrayName.size : ArrayName → Nat
  | .key => 32
  | .iv | .state | .rk => 16
  | .sched => 240
  | .buf => 61440

/-- `WRB` may name KEY, IV, STATE, RK or BUF, with an offset on BUF only (R97). -/
def Stmt.wrbNameOk (name : ArrayName) (k : Nat) : Bool :=
  match name with
  | .sched => false
  | .buf => k % 4 == 0
  | .key | .iv | .state | .rk => k == 0

/-- The checks of R97: `off` is a multiple of 4; a value fits the bus word; `WRB` writes whole words of a
writable array; `RDB` reads whole words; a command has exactly its operands, each a byte. -/
def Stmt.wellFormed : Stmt → Bool
  | .wr off v => Stmt.offsetOk off && v < 0x100000000
  | .rd off => Stmt.offsetOk off
  | .wrb name k bytes => Stmt.wrbNameOk name k && bytes.length % 4 == 0 && k + bytes.length ≤ name.size
  | .rdb name n => n % 4 == 0 && n ≤ name.size
  | .wait => true
  | .command m operands => operands.length == m.arity && operands.all (· < 0x100)
  | .pseudo _ => true

end Sys2Proof
end

