-- ==== Sys2Proof/Decode.lean ====
section
/-! DEFINITION. The decoder and the encoder of the 32-bit command word (`30_encoding.md` R90 to R96). The
decoder is total: a word is one command or it is illegal, with a reason by name. -/

namespace Sys2Proof

/-- OPC, bits 7:0 (R90). -/
def cmdOpc (w : Word) : Byte := w.extractLsb' 0 8
/-- A, bits 15:8 (R90). -/
def cmdA (w : Word) : Byte := w.extractLsb' 8 8
/-- B, bits 23:16 (R90). -/
def cmdB (w : Word) : Byte := w.extractLsb' 16 8
/-- RSV, bits 31:24 (R90). -/
def cmdRsv (w : Word) : Byte := w.extractLsb' 24 8

/-- A command that takes A only: B must be 0 (R93). -/
def decodeOnlyA (w : Word) (f : Byte → Instr) : Except IllegalWord Instr :=
  if cmdB w = 0 then .ok (f (cmdA w)) else .error .unusedOperandNonzero

/-- A command without operands: A and B must be 0 (R93). -/
def decodeBare (w : Word) (i : Instr) : Except IllegalWord Instr :=
  if cmdA w = 0 ∧ cmdB w = 0 then .ok i else .error .unusedOperandNonzero

/-- The decoder: the opcode map of R92 under the selection rule R93; anything else is illegal (R94). -/
def decode (w : Word) : Except IllegalWord Instr :=
  if cmdRsv w ≠ 0 then .error .reservedNonzero
  else match cmdOpc w with
    | 0x01#8 => .ok (.gfmul (cmdA w) (cmdB w))
    | 0x02#8 => decodeOnlyA w .xtime
    | 0x03#8 => decodeOnlyA w .mul3
    | 0x04#8 => decodeOnlyA w .sbox
    | 0x05#8 => decodeOnlyA w .invsbox
    | 0x06#8 => decodeOnlyA w .rcon
    | 0x08#8 => decodeBare w .numrounds
    | 0x09#8 => decodeBare w .numkeywords
    | 0x10#8 => decodeBare w .keyexp
    | 0x11#8 => decodeOnlyA w .getrk
    | 0x20#8 => decodeBare w .addrk
    | 0x21#8 => decodeBare w .subbytes
    | 0x22#8 => decodeBare w .invsubbytes
    | 0x23#8 => decodeBare w .shiftrows
    | 0x24#8 => decodeBare w .invshiftrows
    | 0x25#8 => decodeBare w .mixcolumns
    | 0x26#8 => decodeBare w .invmixcolumns
    | 0x30#8 => decodeBare w .encrypt
    | 0x31#8 => decodeBare w .decrypt
    | 0x40#8 => decodeBare w .ecbEnc
    | 0x41#8 => decodeBare w .ecbDec
    | 0x42#8 => decodeBare w .cbcEnc
    | 0x43#8 => decodeBare w .cbcDec
    | _ => .error .unknownOpcode

/-- `{0x00, b, a, OPC}` (R90, R97). -/
def commandWord (opc a b : Byte) : Word := 0#8 ++ b ++ a ++ opc

/-- The word of a command, from the opcode map R92. -/
def encode : Instr → Word
  | .gfmul a b => commandWord 0x01 a b
  | .xtime a => commandWord 0x02 a 0
  | .mul3 a => commandWord 0x03 a 0
  | .sbox x => commandWord 0x04 x 0
  | .invsbox x => commandWord 0x05 x 0
  | .rcon i => commandWord 0x06 i 0
  | .numrounds => commandWord 0x08 0 0
  | .numkeywords => commandWord 0x09 0 0
  | .keyexp => commandWord 0x10 0 0
  | .getrk r => commandWord 0x11 r 0
  | .addrk => commandWord 0x20 0 0
  | .subbytes => commandWord 0x21 0 0
  | .invsubbytes => commandWord 0x22 0 0
  | .shiftrows => commandWord 0x23 0 0
  | .invshiftrows => commandWord 0x24 0 0
  | .mixcolumns => commandWord 0x25 0 0
  | .invmixcolumns => commandWord 0x26 0 0
  | .encrypt => commandWord 0x30 0 0
  | .decrypt => commandWord 0x31 0 0
  | .ecbEnc => commandWord 0x40 0 0
  | .ecbDec => commandWord 0x41 0 0
  | .cbcEnc => commandWord 0x42 0 0
  | .cbcDec => commandWord 0x43 0 0

/-- The mnemonic of a command (R92). -/
def Instr.mnemonic : Instr → Mnemonic
  | .gfmul _ _ => .GFMUL
  | .xtime _ => .XTIME
  | .mul3 _ => .MUL3
  | .sbox _ => .SBOX
  | .invsbox _ => .INVSBOX
  | .rcon _ => .RCON
  | .numrounds => .NUMROUNDS
  | .numkeywords => .NUMKEYWORDS
  | .keyexp => .KEYEXP
  | .getrk _ => .GETRK
  | .addrk => .ADDRK
  | .subbytes => .SUBBYTES
  | .invsubbytes => .INVSUBBYTES
  | .shiftrows => .SHIFTROWS
  | .invshiftrows => .INVSHIFTROWS
  | .mixcolumns => .MIXCOLUMNS
  | .invmixcolumns => .INVMIXCOLUMNS
  | .encrypt => .ENCRYPT
  | .decrypt => .DECRYPT
  | .ecbEnc => .ECB_ENC
  | .ecbDec => .ECB_DEC
  | .cbcEnc => .CBC_ENC
  | .cbcDec => .CBC_DEC

/-- The command a mnemonic stands for with the given operand bytes; a byte it does not take is dropped (the
assembler refuses one before this, R97). -/
def Mnemonic.instr (m : Mnemonic) (a b : Byte) : Instr :=
  match m with
  | .GFMUL => .gfmul a b
  | .XTIME => .xtime a
  | .MUL3 => .mul3 a
  | .SBOX => .sbox a
  | .INVSBOX => .invsbox a
  | .RCON => .rcon a
  | .NUMROUNDS => .numrounds
  | .NUMKEYWORDS => .numkeywords
  | .KEYEXP => .keyexp
  | .GETRK => .getrk a
  | .ADDRK => .addrk
  | .SUBBYTES => .subbytes
  | .INVSUBBYTES => .invsubbytes
  | .SHIFTROWS => .shiftrows
  | .INVSHIFTROWS => .invshiftrows
  | .MIXCOLUMNS => .mixcolumns
  | .INVMIXCOLUMNS => .invmixcolumns
  | .ENCRYPT => .encrypt
  | .DECRYPT => .decrypt
  | .ECB_ENC => .ecbEnc
  | .ECB_DEC => .ecbDec
  | .CBC_ENC => .cbcEnc
  | .CBC_DEC => .cbcDec

/-- The command word of `nbits` table bits `w`: the bits above them are 0 (R96: every command is 32 bits). -/
def tableWord (nbits w : Nat) : Word := BitVec.ofNat 32 (w % 2 ^ nbits)

/-- The instruction the decoder reads from a row of the opcode table. -/
def decodeTableWord (nbits w : Nat) : Option Instr :=
  match decode (tableWord nbits w) with
  | .ok i => some i
  | .error _ => none

end Sys2Proof
end

