-- ==== Sys2Proof/Config.lean ====
section
/-! DEFINITION. What an implementation fixes, and the free values the spec leaves open. A free value is an
`opaque` constant without a body: no proof can see it, so a claim holds whatever it is. Two more free
values, whose types are the machine's own, stand in `Machine/State.lean`. -/

namespace Sys2Proof

/-- The constant `ID` reads (R21). -/
def Config.idValue : Word := 0x41455331

/-- `BUF_BYTES` is an OPEN parameter: a multiple of 16 from 16 to 61440 (R8, D18). It is held as
`BUF_BYTES/16 - 1`, which is any number below 3840, so that no other size can be written. -/
abbrev Config.Capacity := Fin 3840

/-- `BUF_BYTES` of a capacity. -/
def Config.bufBytes (c : Config.Capacity) : Nat := 16 * (c.val + 1)

/-- The reference value of `BUF_BYTES`, 4096 (R8). Only `State.reset` uses it (assumption 1). -/
def Config.referenceCapacity : Config.Capacity := 255

/-- FREE VALUE. The byte a RAM (SCHED, BUF) holds at a window address after the reset of the given draw
number (R38, R39, R49, U11, U12, U14). -/
opaque Config.ramByte : (draw addr : Nat) → Byte

/-- FREE VALUE. `LATENCY - 1` of a command (R8, R46, U18): it may depend on the command word, on LEN and on
data, and on anything else through the draw number. `LATENCY` is then at least 1. -/
opaque Config.latencyBeyondOne : (draw : Nat) → (word len : Word) → (data : List Byte) → Nat

/-- FREE VALUE. The 32 bits a read of the running command's exposure set is made of (R44, R48, U15). -/
opaque Config.busyReadWord : (draw addr : Nat) → (data : List Byte) → Word

end Sys2Proof
end

