-- ==== Sys2Proof/Machine/State.lean ====
section
/-! DEFINITION. The state of the core as plain data: the registers and RAMs of `10_state.md`, the hidden
state of R41, the host's pending inputs, and the model's own counters for free values. -/

namespace Sys2Proof.Machine

/-- The machine stops with one of these. -/
inductive Fault where
  /-- A clock edge or a host transaction before the first reset after power-up. Raised by `step` alone. R260:
  "Before the first reset after power-up, the state is undefined", and U13 asks for a stuck state. Safe. -/
  | undefinedBeforeReset
  deriving DecidableEq, Repr

/-- No meaning for an instruction. -/
inductive Refusal where
  /-- Raised only by an arm of `exec` whose instruction has no meaning yet; no arm does so. Safe. -/
  | notModelled (mnemonic : String)
  deriving DecidableEq, Repr

/-- The errors a command can end in (R220). Codes 0x9 to 0xF are never produced, so they have no name. -/
inductive CmdError where
  | keysize
  | align
  | keylen
  | illegal
  | rconIndex
  | noKey
  | roundRange
  | lenRange
  deriving DecidableEq, Repr, Inhabited

/-- The fields of STATUS but BUSY, which mirrors the sequencer (R23, R41). Reserved bits read 0 and nothing
writes them. `error` is ERR and ERRCODE together: ERRCODE is 0 exactly when ERR is 0 (R23, R26). -/
structure Status where
  done : Bool
  error : Option CmdError
  overrun : Bool
  keyValid : Bool
  nr : BitVec 4
  deriving DecidableEq, Repr, Inhabited

/-- The stored fields of KEYCFG; its reserved bits are not stored (R30, R63). -/
structure KeyCfg where
  keysize : BitVec 9
  keylen : BitVec 6
  deriving DecidableEq, Repr, Inhabited

/-- The sequencer phase, which STATUS.BUSY mirrors (R41). -/
inductive Phase where
  | idle
  | busy
  deriving DecidableEq, Repr, Inhabited

/-- The hidden work registers of R41. They are undefined outside a running command. -/
structure WorkRegs where
  /-- The round index of ENCRYPT and DECRYPT, 0..Nr. -/
  roundIndex : Nat
  /-- The block index of the mode commands, 0..N. -/
  blockIndex : Nat
  /-- The chaining register `prev`. -/
  prev : Block
  /-- The saved-ciphertext register `next_prev`. -/
  nextPrev : Block
  deriving DecidableEq, Repr, Inhabited

/-- A host transaction `(kind, addr, size, wdata)` (R60). `size` is the port's code: 2 is 4 bytes. -/
structure Transaction where
  write : Bool
  addr : BitVec 16
  size : BitVec 2
  wdata : Word
  deriving DecidableEq, Repr, Inhabited

/-- The response to a transaction (R60). -/
inductive BusResponse where
  /-- OKAY to a read. -/
  | okayData (rdata : Word)
  /-- OKAY to a write; the read data is not valid. -/
  | okay
  /-- ERROR, with its read data (R64, R65). -/
  | error (rdata : Word)
  deriving DecidableEq, Repr, Inhabited

/-- What the outside world does at the next clock edge. -/
inductive HostEvent where
  /-- A transaction the core takes. -/
  | transact (t : Transaction)
  /-- A read of STATUS that the host repeats until BUSY = 0: `WAIT` (R74, R97). -/
  | wait
  /-- No transaction is taken: the host presents none, or `req_ready` is low (R60, R268). -/
  | quiet
  /-- `rst_n` is sampled low (R260). -/
  | reset
  /-- Power was removed and restored (R245, R260). -/
  | powerUp
  deriving DecidableEq, Repr, Inhabited

/-- The BUF RAM: the bytes written since the last reset, as (window address, byte) pairs. An address that is
not listed has no written value: it is unspecified, and a read of it gives a free value (R39, U12). -/
abbrev Memory := List Host.Cell

/-- The one canonical form: addresses strictly rising. An unlisted address reads as no byte at all at this
level, so no entry can equal what an unlisted address reads as. -/
abbrev Memory.wf (m : Memory) : Prop := m.Pairwise (fun x y => x.1 < y.1)

/-- The state of the core. -/
structure State where
  /-- The parameter BUF_BYTES (R8, R33); no step changes it. -/
  capacity : Config.Capacity
  /-- The parameter ECB_PARALLEL (R8, R209): whether blocks are processed concurrently; no step changes it. -/
  ecbParallel : Bool
  /-- CMD: the last accepted command word, which is also the accepted word of R41 (R22, D34). -/
  cmd : Word
  phase : Phase
  /-- The latency counter (R41, R46): how many clock cycles stand before the one in which the command in flight
  completes (assumption 3). Idle, it keeps what it last held; after a reset it is 0 (assumption 23). -/
  latency : Nat
  status : Status
  keycfg : KeyCfg
  /-- LEN (R31). -/
  len : Word
  /-- RESULT[7:0]; bits 31:8 always read 0 (R32). -/
  result : Byte
  /-- KEY[0..32): word j is bytes 4j..4j+3 (R34). -/
  key : Vector Quad 8
  /-- IV[0..16) (R35). -/
  iv : Block
  /-- STATE[0..16) (R36). -/
  st : Block
  /-- RK[0..16) (R37). -/
  rk : Block
  /-- SCHED[0..240): word j is bytes 4j..4j+3 (R38). -/
  sched : Vector Quad 60
  /-- BUF[0..BUF_BYTES) (R39). -/
  buf : Memory
  /-- The hidden work registers (R41). -/
  work : WorkRegs
  /-- Power came up and no reset has been sampled since (R260, U13). -/
  awaitingReset : Bool
  /-- What the outside world does next, the next clock edge first. -/
  host : List HostEvent
  /-- The response to the latest transaction since the last reset. -/
  rsp : Option BusResponse
  /-- MODEL'S OWN: the draw number of the unspecified BUF bytes since the last reset (assumption 2). -/
  ramDraw : Nat
  /-- MODEL'S OWN: the number of the next draw of a free value (assumption 2). -/
  draws : Nat
  deriving DecidableEq, Repr, Inhabited

/-- Where the RAMs stand in the window (R61). -/
def schedBase : Nat := 0x100
def bufBase : Nat := 0x1000

end Sys2Proof.Machine

namespace Sys2Proof

/-- FREE VALUE. The hidden work registers after the command whose completion is the given draw: "undefined
outside a running command" (R41, R49). -/
opaque Config.workOutsideCommand : (draw : Nat) → Machine.WorkRegs

/-- FREE VALUE. The state after a power-up and before the reset (R245, R260, U13, U23). -/
opaque Config.stateAtPowerUp : (draw : Nat) → Machine.State

end Sys2Proof

namespace Sys2Proof.Machine

/-- Word j of SCHED after a reset: four free bytes (R38, R49). -/
def drawnQuad (draw addr : Nat) : Quad :=
  ⟨Config.ramByte draw addr, Config.ramByte draw (addr + 1), Config.ramByte draw (addr + 2),
   Config.ramByte draw (addr + 3)⟩

/-- Every piece of state at its reset value (R49). The two parameters and the host's inputs are not the core's to
reset; `draw` numbers the draw of the RAM contents and of the hidden registers. DESIGN CHOICE (assumption 23): the
latency counter is 0; R49 gives it no value. -/
def State.atReset (capacity : Config.Capacity) (ecbParallel : Bool) (draw : Nat) (host : List HostEvent) : State where
  capacity := capacity
  ecbParallel := ecbParallel
  cmd := 0
  phase := .idle
  latency := 0
  status := { done := false, error := none, overrun := false, keyValid := false, nr := 0 }
  keycfg := { keysize := 0, keylen := 0 }
  len := 0
  result := 0
  key := Vector.replicate 8 default
  iv := default
  st := default
  rk := default
  sched := Vector.ofFn fun j : Fin 60 => drawnQuad draw (schedBase + 4 * j.val)
  buf := []
  work := Config.workOutsideCommand draw
  awaitingReset := false
  host := host
  rsp := none
  ramDraw := draw
  draws := draw + 1

/-- The machine right after reset (R49), at the reference capacity and with blocks processed one by one
(assumptions 1 and 24), with no host input pending. -/
def State.reset : State := State.atReset Config.referenceCapacity false 0 []

end Sys2Proof.Machine
end

