-- ==== Sys2Proof/Machine/Operands.lean ====
section
/-! DEFINITION. The operand forms: bytes within words and blocks, byte order on the bus, the register and RAM
slices the commands read and write, and the key size. `00_scope.md` R10 to R13, `20_memory.md` R67, R69. -/

namespace Sys2Proof

/-- Byte k of a word, byte 0 at the lowest index (R13). -/
def Quad.byte (q : Quad) (k : Nat) : Byte :=
  match k with
  | 0 => q.b0
  | 1 => q.b1
  | 2 => q.b2
  | _ => q.b3

/-- The bytes of a word in index order. -/
def Quad.bytes (q : Quad) : List Byte := [q.b0, q.b1, q.b2, q.b3]

/-- Bytewise exclusive OR. -/
def Quad.xor (p q : Quad) : Quad := ⟨p.b0 ^^^ q.b0, p.b1 ^^^ q.b1, p.b2 ^^^ q.b2, p.b3 ^^^ q.b3⟩

/-- One function on each byte. -/
def Quad.map (f : Byte → Byte) (q : Quad) : Quad := ⟨f q.b0, f q.b1, f q.b2, f q.b3⟩

/-- The bus word of four bytes: little-endian, `{A[4j+3], A[4j+2], A[4j+1], A[4j]}` (R67). -/
def Quad.toWord (q : Quad) : Word := q.b3 ++ q.b2 ++ q.b1 ++ q.b0

/-- The four bytes of a bus word (R67). -/
def Quad.ofWord (w : Word) : Quad :=
  ⟨w.extractLsb' 0 8, w.extractLsb' 8 8, w.extractLsb' 16 8, w.extractLsb' 24 8⟩

/-- Word j of a block: its bytes 4j..4j+3. -/
def Block.quad (b : Block) (j : Fin 4) : Quad :=
  match j with
  | 0 => b.q0
  | 1 => b.q1
  | 2 => b.q2
  | 3 => b.q3

/-- The block with word j replaced. -/
def Block.setQuad (b : Block) (j : Fin 4) (q : Quad) : Block :=
  match j with
  | 0 => { b with q0 := q }
  | 1 => { b with q1 := q }
  | 2 => { b with q2 := q }
  | 3 => { b with q3 := q }

/-- Byte i of a block, i below 16. -/
def Block.byte (b : Block) (i : Nat) : Byte := (b.quad (Fin.ofNat 4 (i / 4))).byte (i % 4)

/-- The bytes of a block in index order. -/
def Block.bytes (b : Block) : List Byte := b.q0.bytes ++ b.q1.bytes ++ b.q2.bytes ++ b.q3.bytes

/-- The block of the bytes f 0 .. f 15. -/
def Block.ofBytes (f : Nat → Byte) : Block :=
  ⟨⟨f 0, f 1, f 2, f 3⟩, ⟨f 4, f 5, f 6, f 7⟩, ⟨f 8, f 9, f 10, f 11⟩, ⟨f 12, f 13, f 14, f 15⟩⟩

/-- One function on each word. -/
def Block.mapQuads (f : Quad → Quad) (b : Block) : Block := ⟨f b.q0, f b.q1, f b.q2, f b.q3⟩

/-- Bytewise exclusive OR. -/
def Block.xor (a b : Block) : Block :=
  ⟨a.q0.xor b.q0, a.q1.xor b.q1, a.q2.xor b.q2, a.q3.xor b.q3⟩

end Sys2Proof

namespace Sys2Proof.Machine

/-! ## The BUF RAM -/

/-- The byte written at an address since the last reset, if any. -/
def Memory.find? : Memory → Nat → Option Byte
  | [], _ => none
  | (a, b) :: m, k => if a = k then some b else Memory.find? m k

/-- Write one byte, keeping the addresses strictly rising. -/
def Memory.write : Memory → Nat → Byte → Memory
  | [], k, v => [(k, v)]
  | (a, b) :: m, k, v =>
    if k < a then (k, v) :: (a, b) :: m
    else if k = a then (k, v) :: m
    else (a, b) :: Memory.write m k v

/-- Write bytes at consecutive addresses from `a` on. -/
def Memory.writeBytes (m : Memory) (a : Nat) : List Byte → Memory
  | [] => m
  | b :: bs => Memory.writeBytes (m.write a b) (a + 1) bs

/-- BUF[i]: what was written last, and where nothing was written since the reset a free value (R39, U12). -/
def State.bufByte (s : State) (i : Nat) : Byte :=
  (s.buf.find? (bufBase + i)).getD (Config.ramByte s.ramDraw (bufBase + i))

/-- BUF[4j .. 4j+4). -/
def State.bufQuad (s : State) (j : Nat) : Quad :=
  ⟨s.bufByte (4 * j), s.bufByte (4 * j + 1), s.bufByte (4 * j + 2), s.bufByte (4 * j + 3)⟩

/-- BUF[4j .. 4j+4) <- q. -/
def State.setBufQuad (s : State) (j : Nat) (q : Quad) : State :=
  { s with buf := s.buf.writeBytes (bufBase + 4 * j) q.bytes }

/-- Content block i: BUF[16i .. 16i+16) (R69). -/
def State.block (s : State) (i : Nat) : Block := Block.ofBytes fun k => s.bufByte (16 * i + k)

/-- BUF[16i .. 16i+16) <- b. -/
def State.setBlock (s : State) (i : Nat) (b : Block) : State :=
  { s with buf := s.buf.writeBytes (bufBase + 16 * i) b.bytes }

/-- BUF_BYTES (R8, R33). -/
def State.bufBytes (s : State) : Nat := Config.bufBytes s.capacity

/-! ## The schedule and the key -/

/-- Word j of SCHED. -/
def State.schedWord (s : State) (j : Nat) : Quad := s.sched[j]?.getD default

/-- SCHED[k]. -/
def State.schedByte (s : State) (k : Nat) : Byte := (s.schedWord (k / 4)).byte (k % 4)

/-- The round key SCHED[16r .. 16r+16) (R69). -/
def State.roundKey (s : State) (r : Nat) : Block :=
  ⟨s.schedWord (4 * r), s.schedWord (4 * r + 1), s.schedWord (4 * r + 2), s.schedWord (4 * r + 3)⟩

/-- KEY[k]. -/
def State.keyByte (s : State) (k : Nat) : Byte := (s.key[k / 4]?.getD default).byte (k % 4)

/-- The legal key sizes (R150). -/
inductive KeySize where
  | k128
  | k192
  | k256
  deriving DecidableEq, Repr, Inhabited

/-- The declared size in bits. -/
def KeySize.bits : KeySize → Nat
  | .k128 => 128
  | .k192 => 192
  | .k256 => 256

/-- The key size a KEYSIZE field declares, if it is legal (R150). -/
def KeySize.ofField (v : BitVec 9) : Option KeySize :=
  if v = 128 then some .k128 else if v = 192 then some .k192 else if v = 256 then some .k256 else none

/-- numRounds, Nr (R150). -/
def KeySize.numRounds : KeySize → Nat
  | .k128 => 10
  | .k192 => 12
  | .k256 => 14

/-- numKeyWords, Nk (R150). -/
def KeySize.numKeyWords : KeySize → Nat
  | .k128 => 4
  | .k192 => 6
  | .k256 => 8

/-- The words of KEY[0 .. 4*Nk) (R151). -/
def State.keyWords (s : State) (ks : KeySize) : List Quad := s.key.toList.take ks.numKeyWords

/-- LEN / 16 (R200). -/
def State.blockCount (s : State) : Nat := s.len.toNat / 16

/-- The bytes a free value may depend on beyond the draw number: the core's operands (R8: LATENCY "may depend
on the command, on `LEN` and on data"). -/
def State.dataBytes (s : State) : List Byte :=
  s.key.toList.flatMap Quad.bytes ++ s.iv.bytes ++ s.st.bytes ++ s.rk.bytes ++
    s.sched.toList.flatMap Quad.bytes ++ s.buf.map Prod.snd

end Sys2Proof.Machine
end

