-- ==== Sys2Proof/Machine/Flags.lean ====
section
/-! DEFINITION. The status flags: the words STATUS, KEYCFG, RESULT and CAP read as, and the lifecycle of a
command. `10_state.md` R22 to R33, R46, R47. -/

namespace Sys2Proof.Machine

/-- The 4-bit code of an error (R220). -/
def CmdError.code : CmdError → BitVec 4
  | .keysize => 1
  | .align => 2
  | .keylen => 3
  | .illegal => 4
  | .rconIndex => 5
  | .noKey => 6
  | .roundRange => 7
  | .lenRange => 8

/-- STATUS.BUSY: it mirrors the sequencer phase (R24, R41). -/
def State.isBusy (s : State) : Bool :=
  match s.phase with
  | .idle => false
  | .busy => true

/-- The STATUS word of its fields (R23). -/
def statusWordOf (busy : Bool) (st : Status) : Word :=
  0#16 ++ st.nr ++ 0#3 ++ BitVec.ofBool st.keyValid ++ ((st.error.map CmdError.code).getD 0) ++
    BitVec.ofBool st.overrun ++ BitVec.ofBool st.error.isSome ++ BitVec.ofBool st.done ++ BitVec.ofBool busy

/-- The word STATUS holds. -/
def State.statusWord (s : State) : Word := statusWordOf s.isBusy s.status

/-- The KEYCFG word: KEYSIZE in bits 8:0, KEYLEN in bits 21:16, the rest 0 (R30). -/
def KeyCfg.toWord (c : KeyCfg) : Word := 0#10 ++ c.keylen ++ 0#7 ++ c.keysize

/-- What a write to KEYCFG stores (R30, R63). -/
def KeyCfg.ofWord (w : Word) : KeyCfg := { keysize := w.extractLsb' 0 9, keylen := w.extractLsb' 16 6 }

/-- The RESULT word: bits 31:8 read 0 (R32). -/
def State.resultWord (s : State) : Word := s.result.zeroExtend 32

/-- The CAP word: BUF_BYTES (R33). -/
def State.capWord (s : State) : Word := BitVec.ofNat 32 s.bufBytes

/-- RESULT <- zext_32(v) (R32, D26). -/
def State.setResult (s : State) (v : Byte) : State := { s with result := v }

/-- Acceptance of a command word (R46). The latency is a free value of at least one cycle (R8). -/
def State.accept (s : State) (w : Word) : State :=
  { s with
    cmd := w
    status := { s.status with done := false, error := none, overrun := false }
    phase := .busy
    latency := Config.latencyBeyondOne s.draws w s.len s.dataBytes
    draws := s.draws + 1 }

/-- The end of a command, after its effects: BUSY <- 0, DONE <- 1 (R47). The hidden work registers are
undefined from here on (R41). -/
def State.complete (s : State) : State :=
  { s with
    phase := .idle
    status := { s.status with done := true }
    work := Config.workOutsideCommand s.draws
    draws := s.draws + 1 }

end Sys2Proof.Machine
end

