-- ==== Sys2Proof/Machine/Ops.lean ====
section
/-! DEFINITION. The named operations the commands and the step share: ending a command with an error (the
core's one exception, R223), the checks of R156 and R200, the fetch of the accepted word, reset and power-up. -/

namespace Sys2Proof.Machine

/-- `raise Error(code)` (R223): the command completes with ERR and ERRCODE set and none of its writes. This is
all that taking an error is: there is no vector, no saved state and no return (R224, R225). -/
def State.raiseError (s : State) (e : CmdError) : State :=
  State.complete { s with status := { s.status with error := some e } }

/-- How a command ends (R47): its effects and completion, or the error it raised. `s` is the state before. -/
def State.conclude (s : State) (r : Except CmdError State) : Host.Outcome State Fault Refusal :=
  match r with
  | .ok t => .next t.complete
  | .error e => .next (s.raiseError e)

/-- CheckKeySize() (R156). -/
def State.checkKeySize (s : State) : Except CmdError KeySize :=
  match KeySize.ofField s.keycfg.keysize with
  | some ks => .ok ks
  | none => .error .keysize

/-- The condition of CheckKeyLen(ks): KEYLEN * 8 = ks (R156). -/
def State.keyLenOk (s : State) (ks : KeySize) : Bool := s.keycfg.keylen.toNat * 8 == ks.bits

/-- The command in flight, or why its word is illegal (R46, R94). -/
def State.fetch (s : State) : Except IllegalWord Instr := decode s.cmd

/-- Run a step of a loop n times. -/
def times : Nat → (State → State) → State → State
  | 0, _, s => s
  | n + 1, f, s => times n f (f s)

/-- `rst_n` sampled low (R260, R261): every piece of state takes its reset value and a command in flight is
discarded; SCHED and BUF hold a new draw. -/
def State.applyReset (s : State) (rest : List HostEvent) : State := State.atReset s.capacity s.ecbParallel s.draws rest

/-- Power removed and restored (R245, R260): every piece of state is undefined until a reset. -/
def State.applyPowerUp (s : State) (rest : List HostEvent) : State :=
  { Config.stateAtPowerUp s.draws with
    capacity := s.capacity
    ecbParallel := s.ecbParallel
    buf := []
    awaitingReset := true
    host := rest
    rsp := none
    ramDraw := s.draws
    draws := s.draws + 1 }

end Sys2Proof.Machine
end

