-- ==== Sys2Proof/Machine/Bus.lean ====
section
/-! DEFINITION. The host's 64 KiB window: the address map, read and write transactions, what a running command
exposes, and one clock edge's host input (`20_memory.md` R60 to R70, `10_state.md` R44, R46, R48). -/

namespace Sys2Proof.Machine

/-- A mapped word of the window (R61). Array words are numbered from their base. -/
inductive Loc where
  | id
  | cmd
  | status
  | keycfg
  | len
  | result
  | cap
  | key (j : Fin 8)
  | iv (j : Fin 4)
  | state (j : Fin 4)
  | rk (j : Fin 4)
  | sched (j : Fin 60)
  | buf (j : Nat)
  deriving DecidableEq, Repr

/-- The scalar registers of the map (R61); 0x1C is reserved. -/
def locateScalar (addr : Nat) : Option Loc :=
  match addr with
  | 0x00 => some .id
  | 0x04 => some .cmd
  | 0x08 => some .status
  | 0x0C => some .keycfg
  | 0x10 => some .len
  | 0x14 => some .result
  | 0x18 => some .cap
  | _ => none

/-- The byte arrays of the map (R61). -/
def locateArray (capacity : Config.Capacity) (addr : Nat) : Option Loc :=
  if 0x20 ≤ addr ∧ addr < 0x40 then some (.key (Fin.ofNat 8 ((addr - 0x20) / 4)))
  else if 0x40 ≤ addr ∧ addr < 0x50 then some (.iv (Fin.ofNat 4 ((addr - 0x40) / 4)))
  else if 0x50 ≤ addr ∧ addr < 0x60 then some (.state (Fin.ofNat 4 ((addr - 0x50) / 4)))
  else if 0x60 ≤ addr ∧ addr < 0x70 then some (.rk (Fin.ofNat 4 ((addr - 0x60) / 4)))
  else if schedBase ≤ addr ∧ addr < schedBase + 240 then some (.sched (Fin.ofNat 60 ((addr - schedBase) / 4)))
  else if bufBase ≤ addr ∧ addr < bufBase + Config.bufBytes capacity then some (.buf ((addr - bufBase) / 4))
  else none

/-- The address map (R61) on an aligned offset; none where it is reserved. -/
def locate (capacity : Config.Capacity) (addr : Nat) : Option Loc :=
  if addr < 0x20 then locateScalar addr else locateArray capacity addr

/-- The word a transaction reaches: none for an illegal access (R64) and for a reserved offset (R65). -/
def Transaction.target (t : Transaction) (capacity : Config.Capacity) : Option Loc :=
  if t.size = 2 ∧ t.addr.toNat % 4 = 0 then locate capacity t.addr.toNat else none

/-- The word a location holds (R61, R67). -/
def State.readLoc (s : State) (l : Loc) : Word :=
  match l with
  | .id => Config.idValue
  | .cmd => s.cmd
  | .status => s.statusWord
  | .keycfg => s.keycfg.toWord
  | .len => s.len
  | .result => s.resultWord
  | .cap => s.capWord
  | .key j => s.key[j].toWord
  | .iv j => (s.iv.quad j).toWord
  | .state j => (s.st.quad j).toWord
  | .rk j => (s.rk.quad j).toWord
  | .sched j => s.sched[j].toWord
  | .buf j => (s.bufQuad j).toWord

/-- A write while the core is idle (R63, R66). -/
def State.writeLoc (s : State) (l : Loc) (v : Word) : State :=
  match l with
  | .cmd => s.accept v
  | .keycfg => { s with keycfg := KeyCfg.ofWord v }
  | .len => { s with len := v }
  | .key j => { s with key := s.key.set j (Quad.ofWord v) }
  | .iv j => { s with iv := s.iv.setQuad j (Quad.ofWord v) }
  | .state j => { s with st := s.st.setQuad j (Quad.ofWord v) }
  | .rk j => { s with rk := s.rk.setQuad j (Quad.ofWord v) }
  | .buf j => s.setBufQuad j (Quad.ofWord v)
  | .id | .status | .result | .cap | .sched _ => s

/-- The rows of the exposure set table (R44), which are also those of the write sets (R43). -/
inductive CommandClass where
  | scalar
  | keyExpansion
  | roundKey
  | state
  | mode
  deriving DecidableEq, Repr

/-- The row of R43 and R44 a command stands in. -/
def Instr.commandClass : Instr → CommandClass
  | .gfmul _ _ | .xtime _ | .mul3 _ | .sbox _ | .invsbox _ | .rcon _ | .numrounds | .numkeywords => .scalar
  | .keyexp => .keyExpansion
  | .getrk _ => .roundKey
  | .addrk | .subbytes | .invsubbytes | .shiftrows | .invshiftrows | .mixcolumns | .invmixcolumns => .state
  | .encrypt | .decrypt => .state
  | .ecbEnc | .ecbDec | .cbcEnc | .cbcDec => .mode

/-- Whether a location is in the exposure set of a class (R44). For STATUS it is the fields KEYVALID and NR
that are. -/
def CommandClass.exposes (c : CommandClass) (l : Loc) : Bool :=
  match c, l with
  | .scalar, .result => true
  | .keyExpansion, .sched _ => true
  | .keyExpansion, .status => true
  | .roundKey, .rk _ => true
  | .state, .state _ => true
  | .mode, .buf _ => true
  | .mode, .sched _ => true
  | .mode, .status => true
  | _, _ => false

/-- Whether a read of a location may return any value now (R44, R48): a command runs and exposes it. An
illegal word exposes nothing. -/
def State.exposed (s : State) (l : Loc) : Bool :=
  s.isBusy &&
    match s.fetch with
    | .ok i => (Instr.commandClass i).exposes l
    | .error _ => false

/-- What a read of an exposed location returns for the free word `d` (R48): of STATUS only KEYVALID and NR are
free, and of anything else all 32 bits are (U15). -/
def State.exposedWord (s : State) (l : Loc) (d : Word) : Word :=
  match l with
  | .status => statusWordOf s.isBusy { s.status with keyValid := d.getLsbD 8, nr := d.extractLsb' 12 4 }
  | _ => d

/-- A read transaction at a mapped word (R62, R48). -/
def State.hostRead (s : State) (addr : Nat) (l : Loc) : State :=
  if s.exposed l then
    { s with
      rsp := some (.okayData (s.exposedWord l (Config.busyReadWord s.draws addr s.dataBytes)))
      draws := s.draws + 1 }
  else { s with rsp := some (.okayData (s.readLoc l)) }

/-- A write transaction at a mapped word: applied when idle (R63), dropped with OVERRUN when busy (R48). -/
def State.hostWrite (s : State) (l : Loc) (v : Word) : State :=
  if s.isBusy then { s with status := { s.status with overrun := true }, rsp := some .okay }
  else { s.writeLoc l v with rsp := some .okay }

/-- One transaction (R60 to R66). An ERROR response has the read data 0x00000000. -/
def State.transact (s : State) (t : Transaction) : State :=
  match t.target s.capacity with
  | none => { s with rsp := some (.error 0) }
  | some l => if t.write then s.hostWrite l t.wdata else s.hostRead t.addr.toNat l

/-- The transaction `RD off`. -/
def readAt (off : BitVec 16) : Transaction := { write := false, addr := off, size := 2, wdata := 0 }

/-- The transaction `WR off, v`. -/
def writeAt (off : BitVec 16) (v : Word) : Transaction := { write := true, addr := off, size := 2, wdata := v }

/-- The host input of one clock edge, without a reset: the transaction the core takes, if any. `WAIT` reads
STATUS and stays until the read gives BUSY = 0 (R74). DESIGN CHOICE (assumption 9): it reads once at each clock
edge. -/
def State.serve (s : State) : State :=
  match s.host with
  | .transact t :: rest => { s.transact t with host := rest }
  | .wait :: rest => { s.transact (readAt 0x08) with host := if s.isBusy then .wait :: rest else rest }
  | .quiet :: rest => { s with host := rest }
  | .reset :: _ | .powerUp :: _ | [] => s

/-- A clock edge of the busy period that is not its last: the host's input, and the latency counter (R47). -/
def State.busyCycle (s : State) (left : Nat) : State := { s.serve with latency := left }

/-- Whether an input comes before everything else (R231, R260). -/
def HostEvent.preempts : HostEvent → Bool
  | .reset | .powerUp => true
  | .transact _ | .wait | .quiet => false

/-- A command word accepted (R46) with its latency over, so that the next step completes it. -/
def State.withCommand (s : State) (w : Word) : State :=
  { s.accept w with
    latency := 0
    awaitingReset := false
    host := s.host.dropWhile HostEvent.preempts }

/-- A command from its acceptance to its completion as one operation (R45): what the completion is run on. -/
def State.issue (s : State) (w : Word) : State := { s.accept w with latency := 0 }

end Sys2Proof.Machine
end

