-- ==== Sys2Proof/Machine/Field.lean ====
section
/-! DEFINITION. GF(2^8) arithmetic and its commands GFMUL, XTIME and MUL3 (`40_field_and_tables.md` R120 to
R123, R130 to R132). -/

namespace Sys2Proof.Machine

/-- Multiplication by 2: shift left, and XOR 0x1B when bit 7 was set (R121). -/
def xtime (a : Byte) : Byte := if a.msb then (a <<< 1) ^^^ 0x1B else a <<< 1

/-- Multiplication by 3 (R122). -/
def mul3 (a : Byte) : Byte := xtime a ^^^ a

/-- The loop of R120 from bit k on, n bits to go: `t` is a times x^k, `r` the sum so far. -/
def gfmulLoop (b : Byte) : (n k : Nat) → (t r : Byte) → Byte
  | 0, _, _, r => r
  | n + 1, k, t, r => gfmulLoop b n (k + 1) (xtime t) (if b.getLsbD k then r ^^^ t else r)

/-- Multiplication in GF(2^8) by shift and add (R120). -/
def gfmul (a b : Byte) : Byte := gfmulLoop b 8 0 a 0

/-- GFMUL (R130). -/
def execGfmul (a b : Byte) (s : State) : Host.Outcome State Fault Refusal :=
  s.conclude (.ok (s.setResult (gfmul a b)))

/-- XTIME (R131). -/
def execXtime (a : Byte) (s : State) : Host.Outcome State Fault Refusal :=
  s.conclude (.ok (s.setResult (xtime a)))

/-- MUL3 (R132). -/
def execMul3 (a : Byte) (s : State) : Host.Outcome State Fault Refusal :=
  s.conclude (.ok (s.setResult (mul3 a)))

end Sys2Proof.Machine
end

