-- ==== Sys2Proof/Machine/Tables.lean ====
section
/-! DEFINITION. The table ROMs and their commands SBOX, INVSBOX and RCON (`40_field_and_tables.md` R124 to
R126, R133 to R135). The ROMs are constants (R40). -/

namespace Sys2Proof.Machine

/-- The S-box ROM (R124): row `h_` of the rule's table is entry h, column `_0` in its most significant byte. -/
def sboxRows : List (BitVec 128) :=
    [0x637c777bf26b6fc53001672bfed7ab76, 0xca82c97dfa5947f0add4a2af9ca472c0,
     0xb7fd9326363ff7cc34a5e5f171d83115, 0x04c723c31896059a071280e2eb27b275,
     0x09832c1a1b6e5aa0523bd6b329e32f84, 0x53d100ed20fcb15b6acbbe394a4c58cf,
     0xd0efaafb434d338545f9027f503c9fa8, 0x51a3408f929d38f5bcb6da2110fff3d2] ++
    [0xcd0c13ec5f974417c4a77e3d645d1973, 0x60814fdc222a908846eeb814de5e0bdb,
     0xe0323a0a4906245cc2d3ac629195e479, 0xe7c8376d8dd54ea96c56f4ea657aae08,
     0xba78252e1ca6b4c6e8dd741f4bbd8b8a, 0x703eb5664803f60e613557b986c11d9e,
     0xe1f8981169d98e949b1e87e9ce5528df, 0x8ca1890dbfe6426841992d0fb054bb16]

/-- The inverse S-box ROM (R125), laid out as `sboxRows`. -/
def invSboxRows : List (BitVec 128) :=
    [0x52096ad53036a538bf40a39e81f3d7fb, 0x7ce339829b2fff87348e4344c4dee9cb,
     0x547b9432a6c2233dee4c950b42fac34e, 0x082ea16628d924b2765ba2496d8bd125,
     0x72f8f66486689816d4a45ccc5d65b692, 0x6c704850fdedb9da5e154657a78d9d84,
     0x90d8ab008cbcd30af7e45805b8b34506, 0xd02c1e8fca3f0f02c1afbd0301138a6b] ++
    [0x3a9111414f67dcea97f2cfcef0b4e673, 0x96ac7422e7ad3585e2f937e81c75df6e,
     0x47f11a711d29c5896fb7620eaa18be1b, 0xfc563e4bc6d279209adbc0fe78cd5af4,
     0x1fdda8338807c731b11210592780ec5f, 0x60517fa919b54a0d2de57a9f93c99cef,
     0xa0e03b4dae2af5b0c8ebbb3c83539961, 0x172b047eba77d626e169146355210c7d]

/-- Entry 16*hi + lo of a ROM of sixteen rows. -/
def romEntry (rows : List (BitVec 128)) (x : Byte) : Byte :=
  (rows.getD (x.toNat / 16) 0).extractLsb' (8 * (15 - x.toNat % 16)) 8

/-- S[x] (R124). -/
def sboxValue (x : Byte) : Byte := romEntry sboxRows x

/-- Sinv[x] (R125). -/
def sboxInvert (x : Byte) : Byte := romEntry invSboxRows x

/-- The round-constant ROM, entries 1 to 14 (R126). -/
def rconRom : List Byte :=
  [0x01, 0x02, 0x04, 0x08, 0x10, 0x20, 0x40] ++ [0x80, 0x1B, 0x36, 0x6C, 0xD8, 0xAB, 0x4D]

/-- rcon(i): index 0 and indices above 14 are no entry (R126, R135). -/
def rcon? (i : Nat) : Option Byte :=
  match i with
  | 0 => none
  | n + 1 => rconRom[n]?

/-- SBOX (R133). -/
def execSbox (x : Byte) (s : State) : Host.Outcome State Fault Refusal :=
  s.conclude (.ok (s.setResult (sboxValue x)))

/-- INVSBOX (R134). -/
def execInvsbox (x : Byte) (s : State) : Host.Outcome State Fault Refusal :=
  s.conclude (.ok (s.setResult (sboxInvert x)))

/-- RCON (R135): ERR_RCON_INDEX where the index is no entry. -/
def execRcon (i : Byte) (s : State) : Host.Outcome State Fault Refusal :=
  s.conclude <|
    match rcon? i.toNat with
    | none => .error .rconIndex
    | some v => .ok (s.setResult v)

end Sys2Proof.Machine
end

