-- ==== Sys2Proof/Machine/RoundTransform.lean ====
section
/-! DEFINITION. The round transform processors and their commands (`42_round_transforms.md` R170 to R177).
Quad c of a block is column c of the state, and its byte r is in row r (R12). -/

namespace Sys2Proof.Machine

/-- AddRoundKey (R170). -/
def addRoundKey (s k : Block) : Block := s.xor k

/-- SubBytes (R171). -/
def subBytes (s : Block) : Block := s.mapQuads (Quad.map sboxValue)

/-- InvSubBytes (R172). -/
def invSubBytes (s : Block) : Block := s.mapQuads (Quad.map sboxInvert)

/-- ShiftRows: column c takes row r from column c + r (R173). -/
def shiftRows (s : Block) : Block :=
  ⟨⟨s.q0.b0, s.q1.b1, s.q2.b2, s.q3.b3⟩, ⟨s.q1.b0, s.q2.b1, s.q3.b2, s.q0.b3⟩,
   ⟨s.q2.b0, s.q3.b1, s.q0.b2, s.q1.b3⟩, ⟨s.q3.b0, s.q0.b1, s.q1.b2, s.q2.b3⟩⟩

/-- InvShiftRows: column c takes row r from column c - r (R174). -/
def invShiftRows (s : Block) : Block :=
  ⟨⟨s.q0.b0, s.q3.b1, s.q2.b2, s.q1.b3⟩, ⟨s.q1.b0, s.q0.b1, s.q3.b2, s.q2.b3⟩,
   ⟨s.q2.b0, s.q1.b1, s.q0.b2, s.q3.b3⟩, ⟨s.q3.b0, s.q2.b1, s.q1.b2, s.q0.b3⟩⟩

/-- One column of MixColumns (R175). -/
def mixColumn (a : Quad) : Quad :=
  ⟨xtime a.b0 ^^^ mul3 a.b1 ^^^ a.b2 ^^^ a.b3,
   a.b0 ^^^ xtime a.b1 ^^^ mul3 a.b2 ^^^ a.b3,
   a.b0 ^^^ a.b1 ^^^ xtime a.b2 ^^^ mul3 a.b3,
   mul3 a.b0 ^^^ a.b1 ^^^ a.b2 ^^^ xtime a.b3⟩

/-- One column of InvMixColumns (R176). -/
def invMixColumn (a : Quad) : Quad :=
  ⟨gfmul a.b0 0x0E ^^^ gfmul a.b1 0x0B ^^^ gfmul a.b2 0x0D ^^^ gfmul a.b3 0x09,
   gfmul a.b0 0x09 ^^^ gfmul a.b1 0x0E ^^^ gfmul a.b2 0x0B ^^^ gfmul a.b3 0x0D,
   gfmul a.b0 0x0D ^^^ gfmul a.b1 0x09 ^^^ gfmul a.b2 0x0E ^^^ gfmul a.b3 0x0B,
   gfmul a.b0 0x0B ^^^ gfmul a.b1 0x0D ^^^ gfmul a.b2 0x09 ^^^ gfmul a.b3 0x0E⟩

/-- MixColumns (R175). -/
def mixColumns (s : Block) : Block := s.mapQuads mixColumn

/-- InvMixColumns (R176). -/
def invMixColumns (s : Block) : Block := s.mapQuads invMixColumn

/-- ADDRK (R170). -/
def execAddrk (s : State) : Host.Outcome State Fault Refusal :=
  s.conclude (.ok { s with st := addRoundKey s.st s.rk })

/-- SUBBYTES (R171). -/
def execSubbytes (s : State) : Host.Outcome State Fault Refusal :=
  s.conclude (.ok { s with st := subBytes s.st })

/-- INVSUBBYTES (R172). -/
def execInvsubbytes (s : State) : Host.Outcome State Fault Refusal :=
  s.conclude (.ok { s with st := invSubBytes s.st })

/-- SHIFTROWS (R173). -/
def execShiftrows (s : State) : Host.Outcome State Fault Refusal :=
  s.conclude (.ok { s with st := shiftRows s.st })

/-- INVSHIFTROWS (R174). -/
def execInvshiftrows (s : State) : Host.Outcome State Fault Refusal :=
  s.conclude (.ok { s with st := invShiftRows s.st })

/-- MIXCOLUMNS (R175). -/
def execMixcolumns (s : State) : Host.Outcome State Fault Refusal :=
  s.conclude (.ok { s with st := mixColumns s.st })

/-- INVMIXCOLUMNS (R176). -/
def execInvmixcolumns (s : State) : Host.Outcome State Fault Refusal :=
  s.conclude (.ok { s with st := invMixColumns s.st })

end Sys2Proof.Machine
end

