-- ==== Sys2Proof/Machine/BlockCipher.lean ====
section
/-! DEFINITION. The encryption and decryption pipelines and their commands ENCRYPT and DECRYPT
(`43_block_cipher.md` R190, R191). A schedule is given as its round keys: `w r` is W[16r .. 16r+16). The two
commands run the rules' loops on STATE, with the hidden round index of R41 as their loop variable; the modes use
the same rounds as functions of a block. -/

namespace Sys2Proof.Machine

/-- A full encryption round (R190). -/
def encRound (k s : Block) : Block := addRoundKey (mixColumns (shiftRows (subBytes s))) k

/-- The final encryption round, without MixColumns (R190). -/
def encFinal (k s : Block) : Block := addRoundKey (shiftRows (subBytes s)) k

/-- Encryption rounds 1 to n, in increasing order (R190). -/
def encRounds (w : Nat → Block) : Nat → Block → Block
  | 0, s => s
  | n + 1, s => encRound (w (n + 1)) (encRounds w n s)

/-- Cipher(b, W, Nr) (R190). -/
def cipher (w : Nat → Block) (nr : Nat) (b : Block) : Block :=
  encFinal (w nr) (encRounds w (nr - 1) (addRoundKey b (w 0)))

/-- A full decryption round (R191). -/
def decRound (k s : Block) : Block := invMixColumns (addRoundKey (invSubBytes (invShiftRows s)) k)

/-- The final decryption step, without InvMixColumns (R191). -/
def decFinal (k s : Block) : Block := addRoundKey (invSubBytes (invShiftRows s)) k

/-- Decryption rounds n down to 1 (R191). -/
def decRounds (w : Nat → Block) : Nat → Block → Block
  | 0, s => s
  | n + 1, s => decRounds w n (decRound (w (n + 1)) s)

/-- InvCipher(b, W, Nr) (R191). -/
def invCipher (w : Nat → Block) (nr : Nat) (b : Block) : Block :=
  decFinal (w 0) (decRounds w (nr - 1) (addRoundKey b (w nr)))

/-- Cipher under the installed schedule and round count (R190, C5). -/
def State.encryptBlock (s : State) (b : Block) : Block := cipher s.roundKey s.status.nr.toNat b

/-- InvCipher under the installed schedule and round count (R191, C5). -/
def State.decryptBlock (s : State) (b : Block) : Block := invCipher s.roundKey s.status.nr.toNat b

/-- The pre-whitening step of both pipelines (R190, R191). -/
def whiten (k s : Block) : Block := addRoundKey s k

/-- The round index takes a value (R41). -/
def State.setRound (s : State) (r : Nat) : State := { s with work := { s.work with roundIndex := r } }

/-- STATE goes through one round, with the round key the round index selects (R190, R191). -/
def State.applyRound (s : State) (round : Block → Block → Block) : State :=
  { s with st := round (s.roundKey s.work.roundIndex) s.st }

/-- One pass of ENCRYPT's loop: the next round in increasing order (R190). -/
def encryptRound (s : State) : State := (s.setRound (s.work.roundIndex + 1)).applyRound encRound

/-- One pass of DECRYPT's loop: the next round in decreasing order (R191). -/
def decryptRound (s : State) : State := (s.setRound (s.work.roundIndex - 1)).applyRound decRound

/-- `STATE <- Cipher(STATE, SCHED, STATUS.NR)`, the round index going from 0 to Nr (R190, R41). -/
def State.runEncrypt (s : State) : State :=
  ((times (s.status.nr.toNat - 1) encryptRound ((s.setRound 0).applyRound whiten)).setRound
    s.status.nr.toNat).applyRound encFinal

/-- `STATE <- InvCipher(STATE, SCHED, STATUS.NR)`, the round index going from Nr to 0 (R191, R41). -/
def State.runDecrypt (s : State) : State :=
  ((times (s.status.nr.toNat - 1) decryptRound ((s.setRound s.status.nr.toNat).applyRound whiten)).setRound
    0).applyRound decFinal

/-- ENCRYPT (R190). -/
def execEncrypt (s : State) : Host.Outcome State Fault Refusal :=
  s.conclude (if s.status.keyValid = false then .error .noKey else .ok s.runEncrypt)

/-- DECRYPT (R191). -/
def execDecrypt (s : State) : Host.Outcome State Fault Refusal :=
  s.conclude (if s.status.keyValid = false then .error .noKey else .ok s.runDecrypt)

end Sys2Proof.Machine
end

