-- ==== Sys2Proof/Machine/KeySchedule.lean ====
section
/-! DEFINITION. The key-schedule expander and its commands NUMROUNDS, NUMKEYWORDS, KEYEXP and GETRK
(`41_key_schedule.md` R150 to R158). It reads the S-box and round-constant ROMs only. -/

namespace Sys2Proof.Machine

/-- RotWord: rotate left by one byte (R151, D13). -/
def rotWord (t : Quad) : Quad := ⟨t.b1, t.b2, t.b3, t.b0⟩

/-- SubWord (R151). -/
def subWord (t : Quad) : Quad := t.map sboxValue

/-- `t[0] <- t[0] ^ rcon(j)` (R151). Key expansion reads indices 1 to 10 only, all of them entries (R157). -/
def addRcon (j : Nat) (t : Quad) : Quad := { t with b0 := t.b0 ^^^ (rcon? j).getD 0 }

/-- What the loop of R151 makes of `t = w[i-1]` before it adds `w[i-Nk]`. -/
def scheduleCore (nk i : Nat) (t : Quad) : Quad :=
  if i % nk = 0 then addRcon (i / nk) (subWord (rotWord t))
  else if nk = 8 ∧ i % nk = 4 then subWord t
  else t

/-- `w[i]` from the words before it, the newest first: `w[i-1]` leads the list, `w[i-Nk]` is entry Nk-1. -/
def nextWord (nk : Nat) (newestFirst : List Quad) : Quad :=
  (scheduleCore nk newestFirst.length (newestFirst.getD 0 default)).xor (newestFirst.getD (nk - 1) default)

/-- n more words of the schedule, the newest first. -/
def expandWords (nk : Nat) : (n : Nat) → (newestFirst : List Quad) → List Quad
  | 0, ws => ws
  | n + 1, ws => expandWords nk n (nextWord nk ws :: ws)

/-- KeyExpansion(K, ks) as words w[0] .. w[4*(Nr+1)-1] (R151). -/
def keyExpansion (key : List Quad) (ks : KeySize) : List Quad :=
  (expandWords ks.numKeyWords (4 * (ks.numRounds + 1) - ks.numKeyWords) key.reverse).reverse

/-- SCHED after an expansion: the words of the schedule, then 0x00 to the end (R38, R156). -/
def scheduleRam (words : List Quad) : Vector Quad 60 := Vector.ofFn fun j : Fin 60 => words.getD j.val default

/-- InstallSchedule(ks) (R156). -/
def State.installSchedule (s : State) (ks : KeySize) : State :=
  { s with
    sched := scheduleRam (keyExpansion (s.keyWords ks) ks)
    status := { s.status with nr := BitVec.ofNat 4 ks.numRounds, keyValid := true } }

/-- NUMROUNDS (R154). -/
def execNumrounds (s : State) : Host.Outcome State Fault Refusal :=
  s.conclude <|
    match s.checkKeySize with
    | .error e => .error e
    | .ok ks => .ok (s.setResult (BitVec.ofNat 8 ks.numRounds))

/-- NUMKEYWORDS (R155). -/
def execNumkeywords (s : State) : Host.Outcome State Fault Refusal :=
  s.conclude <|
    match s.checkKeySize with
    | .error e => .error e
    | .ok ks => .ok (s.setResult (BitVec.ofNat 8 ks.numKeyWords))

/-- KEYEXP (R152). -/
def execKeyexp (s : State) : Host.Outcome State Fault Refusal :=
  s.conclude <|
    match s.checkKeySize with
    | .error e => .error e
    | .ok ks => if s.keyLenOk ks then .ok (s.installSchedule ks) else .error .keylen

/-- GETRK (R153). -/
def execGetrk (r : Byte) (s : State) : Host.Outcome State Fault Refusal :=
  s.conclude <|
    if s.status.keyValid = false then .error .noKey
    else if r.toNat > s.status.nr.toNat then .error .roundRange
    else .ok { s with rk := s.roundKey r.toNat }

end Sys2Proof.Machine
end

