-- ==== Sys2Proof/Machine/Modes.lean ====
section
/-! DEFINITION. The ECB and CBC mode engines and their commands (`44_modes.md` R200 to R204). A mode command
is the rule's loop over BUF in place, one block a step, with the hidden registers of R41 as its block index
and chaining values. A block function takes two states: the one whose BUF its cipher reads, and its own. -/

namespace Sys2Proof.Machine

/-- ModeSetup() (R200): the checks in their order, then the schedule is installed. -/
def State.modeSetup (s : State) : Except CmdError State :=
  match s.checkKeySize with
  | .error e => .error e
  | .ok ks =>
    if s.len.toNat % 16 ≠ 0 then .error .align
    else if s.keyLenOk ks = false then .error .keylen
    else if s.len.toNat > s.bufBytes then .error .lenRange
    else .ok (s.installSchedule ks)

/-- The block index starts at 0 and, for CBC, `prev` at the IV (R203, R204). -/
def State.startBlocks (s : State) : State := { s with work := { s.work with blockIndex := 0, prev := s.iv } }

/-- The block index advances. -/
def State.nextBlock (s : State) : State :=
  { s with work := { s.work with blockIndex := s.work.blockIndex + 1 } }

/-- One block of ECB_ENC (R201), its cipher reading the block in BUF of `src`. -/
def ecbEncBlock (src s : State) : State :=
  (s.setBlock s.work.blockIndex (s.encryptBlock (src.block s.work.blockIndex))).nextBlock

/-- One block of ECB_DEC (R202), its cipher reading the block in BUF of `src`. -/
def ecbDecBlock (src s : State) : State :=
  (s.setBlock s.work.blockIndex (s.decryptBlock (src.block s.work.blockIndex))).nextBlock

/-- The chaining value `prev` of R203 and R204. -/
def State.setPrev (s : State) (b : Block) : State := { s with work := { s.work with prev := b } }

/-- The saved ciphertext `next_prev` of R204. -/
def State.setNextPrev (s : State) (b : Block) : State := { s with work := { s.work with nextPrev := b } }

/-- One block of CBC_ENC (R203): strictly sequential, so it always reads BUF as it stands (R209). -/
def cbcEncBlock (_src s : State) : State :=
  let y := s.encryptBlock ((s.block s.work.blockIndex).xor s.work.prev)
  ((s.setBlock s.work.blockIndex y).setPrev y).nextBlock

/-- The assignment `next_prev := X[i]` of CBC_DEC, before the block is overwritten (R204). -/
def State.saveCiphertext (s : State) : State := s.setNextPrev (s.block s.work.blockIndex)

/-- The assignment to `X[i]` of CBC_DEC: InvCipher of the ciphertext `c`, XORed with `prev` (R204). -/
def State.storePlaintext (s : State) (c : Block) : State :=
  s.setBlock s.work.blockIndex ((s.decryptBlock c).xor s.work.prev)

/-- One block of CBC_DEC (R204), its InvCipher reading the block in BUF of `src`: the ciphertext is saved before the
block is overwritten, and is the next chaining value. -/
def cbcDecBlock (src s : State) : State :=
  let t := s.saveCiphertext.storePlaintext (src.block s.work.blockIndex)
  (t.setPrev t.work.nextPrev).nextBlock

/-- A block function that reads BUF as it stands at the block's turn. -/
def sequentially (body : State → State → State) (s : State) : State := body s s

/-- The loop over n blocks in increasing order (R200 to R204), under ECB_PARALLEL (R8, R209): sequentially, a
block's cipher reads BUF as it stands at the block's turn; concurrently, the ciphers of all blocks read BUF as it
stands at the start (assumption 24). -/
def State.runBlocks (s : State) (n : Nat) (body : State → State → State) : State :=
  if s.ecbParallel then times n (body s) s else times n (sequentially body) s

/-- A mode command: the setup, then the N blocks (R200 to R204). -/
def State.runMode (s : State) (body : State → State → State) : Host.Outcome State Fault Refusal :=
  s.conclude <|
    match s.modeSetup with
    | .error e => .error e
    | .ok t => .ok (t.startBlocks.runBlocks t.blockCount body)

/-- ECB_ENC (R201). -/
def execEcbEnc (s : State) : Host.Outcome State Fault Refusal := s.runMode ecbEncBlock

/-- ECB_DEC (R202). -/
def execEcbDec (s : State) : Host.Outcome State Fault Refusal := s.runMode ecbDecBlock

/-- CBC_ENC (R203). -/
def execCbcEnc (s : State) : Host.Outcome State Fault Refusal := s.runMode cbcEncBlock

/-- CBC_DEC (R204). -/
def execCbcDec (s : State) : Host.Outcome State Fault Refusal := s.runMode cbcDecBlock

end Sys2Proof.Machine
end

