-- ==== Sys2Proof/Machine/Dispatch.lean ====
section
/-! DEFINITION. Which meaning each command has: one arm per constructor of `Instr`. -/

namespace Sys2Proof.Machine

/-- Execute and completion of a command (R47): `s` is the state at completion, which agrees with the state at
acceptance in everything the command reads (R45, R48). -/
def exec (i : Instr) (s : State) : Host.Outcome State Fault Refusal :=
  match i with
  | .gfmul a b => Sys2Proof.Machine.execGfmul a b s
  | .xtime a => Sys2Proof.Machine.execXtime a s
  | .mul3 a => Sys2Proof.Machine.execMul3 a s
  | .sbox x => Sys2Proof.Machine.execSbox x s
  | .invsbox x => Sys2Proof.Machine.execInvsbox x s
  | .rcon x => Sys2Proof.Machine.execRcon x s
  | .numrounds => Sys2Proof.Machine.execNumrounds s
  | .numkeywords => Sys2Proof.Machine.execNumkeywords s
  | .keyexp => Sys2Proof.Machine.execKeyexp s
  | .getrk r => Sys2Proof.Machine.execGetrk r s
  | .addrk => Sys2Proof.Machine.execAddrk s
  | .subbytes => Sys2Proof.Machine.execSubbytes s
  | .invsubbytes => Sys2Proof.Machine.execInvsubbytes s
  | .shiftrows => Sys2Proof.Machine.execShiftrows s
  | .invshiftrows => Sys2Proof.Machine.execInvshiftrows s
  | .mixcolumns => Sys2Proof.Machine.execMixcolumns s
  | .invmixcolumns => Sys2Proof.Machine.execInvmixcolumns s
  | .encrypt => Sys2Proof.Machine.execEncrypt s
  | .decrypt => Sys2Proof.Machine.execDecrypt s
  | .ecbEnc => Sys2Proof.Machine.execEcbEnc s
  | .ecbDec => Sys2Proof.Machine.execEcbDec s
  | .cbcEnc => Sys2Proof.Machine.execCbcEnc s
  | .cbcDec => Sys2Proof.Machine.execCbcDec s

end Sys2Proof.Machine
end

