-- ==== Sys2Proof/Machine/Step.lean ====
section
/-! DEFINITION. One step of the machine. The core fetches no instructions: the host writes a command word to
CMD, and the command in flight completes when its latency is over (R20, R46, R47). -/

namespace Sys2Proof.Machine

/-- The command in flight completes (R47): the decoded command is executed, or the word is illegal (R94). -/
def State.runCommand (s : State) : Host.Outcome State Fault Refusal :=
  match s.fetch with
  | .ok i => exec i s
  | .error _ => .next (s.raiseError .illegal)

/-- One step, in the order of R231: a reset or power-up first, then the completion of the command in flight,
then the host transaction of the clock edge. Before the first reset after power-up nothing is defined (R260). -/
def step (s : State) : Host.Outcome State Fault Refusal :=
  match s.host with
  | .reset :: rest => .next (s.applyReset rest)
  | .powerUp :: rest => .next (s.applyPowerUp rest)
  | _ =>
    if s.awaitingReset then .fault .undefinedBeforeReset
    else match s.phase, s.latency with
      | .busy, 0 => s.runCommand
      | .busy, left + 1 => .next (s.busyCycle left)
      | .idle, _ => .next s.serve

/-- `s` with the command word of a row of the opcode table accepted and due, so that the next step runs it. -/
def State.withFetchWord (s : State) (nbits w : Nat) : State := s.withCommand (tableWord nbits w)

end Sys2Proof.Machine
end

