-- ==== Sys2Proof/Machine/Assembler.lean ====
section
/-! DEFINITION. The host's assembler (`30_encoding.md` R97, R98): what a statement makes the host do, the
expansions of the pseudo-instructions, and running a sequence of commands one after another. -/

namespace Sys2Proof.Machine

/-- The bytes of a list as bus words, four a word (R67); fewer than four at the end are dropped (`Stmt.wellFormed`
refuses them). -/
def busWords : List Byte → List Word
  | a :: b :: c :: d :: rest => Quad.toWord ⟨a, b, c, d⟩ :: busWords rest
  | _ => []

/-- Writes of consecutive words from an offset on. -/
def writesFrom (off : Nat) : List Word → List HostEvent
  | [] => []
  | w :: ws => .transact (writeAt (BitVec.ofNat 16 off) w) :: writesFrom (off + 4) ws

/-- Reads of n consecutive words from an offset on. -/
def readsFrom (off : Nat) : Nat → List HostEvent
  | 0 => []
  | n + 1 => .transact (readAt (BitVec.ofNat 16 off)) :: readsFrom (off + 4) n

/-- `<MNEMONIC> …`: the command word to CMD, then WAIT (R97). -/
def commandEvents (w : Word) : List HostEvent := [.transact (writeAt 0x04 w), .wait]

/-- Operand k of a statement as a byte, 0 where it is not given. -/
def operandByte (operands : List Nat) (k : Nat) : Byte := BitVec.ofNat 8 (operands.getD k 0)

/-- The commands a pseudo-instruction expands to, in order (R98). `SETKEY…` is a write, not a command. -/
def pseudoCommands : Pseudo → List Instr
  | .mul2 a => [.xtime a]
  | .mul9 a => [.gfmul a 0x09]
  | .mulB a => [.gfmul a 0x0B]
  | .mulD a => [.gfmul a 0x0D]
  | .mulE a => [.gfmul a 0x0E]
  | .setkey128 | .setkey192 | .setkey256 => []
  | .whiten r => [.getrk r, .addrk]
  | .encRound r => [.getrk r, .subbytes, .shiftrows, .mixcolumns, .addrk]
  | .encFinal r => [.getrk r, .subbytes, .shiftrows, .addrk]
  | .decRound r => [.getrk r, .invshiftrows, .invsubbytes, .addrk, .invmixcolumns]
  | .decFinal => [.getrk 0, .invshiftrows, .invsubbytes, .addrk]

/-- The host events of a pseudo-instruction (R98). -/
def pseudoEvents (p : Pseudo) : List HostEvent :=
  match p with
  | .setkey128 => [.transact (writeAt 0x0C 0x00100080)]
  | .setkey192 => [.transact (writeAt 0x0C 0x001800C0)]
  | .setkey256 => [.transact (writeAt 0x0C 0x00200100)]
  | _ => (pseudoCommands p).flatMap fun i => commandEvents (encode i)

/-- The host events of a statement, none for an assembly error (R97). -/
def assemble (st : Stmt) : Option (List HostEvent) :=
  if st.wellFormed then
    some <| match st with
      | .wr off v => [.transact (writeAt (BitVec.ofNat 16 off) (BitVec.ofNat 32 v))]
      | .rd off => [.transact (readAt (BitVec.ofNat 16 off))]
      | .wrb name k bytes => writesFrom (name.base + k) (busWords bytes)
      | .rdb name n => readsFrom name.base (n / 4)
      | .wait => [.wait]
      | .command m operands => commandEvents (encode (m.instr (operandByte operands 0) (operandByte operands 1)))
      | .pseudo p => pseudoEvents p
  else none

/-- The host events of a program, none if a statement of it is an assembly error. -/
def assembleAll : List Stmt → Option (List HostEvent)
  | [] => some []
  | st :: rest =>
    match assemble st, assembleAll rest with
    | some e, some es => some (e ++ es)
    | _, _ => none

/-- A command issued to an idle core and run to its completion (R45, R46, R47). -/
def perform (i : Instr) (s : State) : Host.Outcome State Fault Refusal := exec i (s.issue (encode i))

/-- Commands performed one after another, each after the one before has completed (R20, R98). -/
def performAll : List Instr → State → Host.Outcome State Fault Refusal
  | [], s => .next s
  | i :: is, s =>
    match perform i s with
    | .next t => performAll is t
    | .fault r => .fault r
    | .refused r => .refused r

end Sys2Proof.Machine
end

