-- ==== Sys2Proof/Safety.lean ====
section
/-! DEFINITION. What claims about the machine are stated in: how a command ends, what each class of command may
write, and the invariant of the state (`10_state.md` R42, R43; `60_exceptions.md` R223). -/

namespace Sys2Proof.Machine

/-- The command runs to its completion and leaves `t` with BUSY = 0 and DONE = 1 (R47). The hidden work
registers and the model's draw counter take some value no claim may use (R41). -/
def CompletesAs (i : Instr) (s t : State) : Prop :=
  ∃ work draws, exec i s = .next
    { t with phase := .idle, status := { t.status with done := true }, work := work, draws := draws }

/-- The command completes with an error and nothing else changes (R223). -/
def FailsWith (i : Instr) (s : State) (e : CmdError) : Prop :=
  CompletesAs i s { s with status := { s.status with error := some e } }

/-- `t` differs from `s` at most in the write set of the command's row (R43). BUF may change below LEN only. -/
def WithinWriteSet (c : CommandClass) (s t : State) : Prop :=
  match c with
  | .scalar => t = { s with result := t.result }
  | .keyExpansion =>
    t = { s with sched := t.sched, status := { s.status with keyValid := t.status.keyValid, nr := t.status.nr } }
  | .roundKey => t = { s with rk := t.rk }
  | .state => t = { s with st := t.st }
  | .mode =>
    t = { s with
      sched := t.sched
      status := { s.status with keyValid := t.status.keyValid, nr := t.status.nr }
      buf := t.buf } ∧
    ∀ k, s.len.toNat ≤ k → t.bufByte k = s.bufByte k

/-- The sequencer and the STATUS lifecycle agree (R24 to R26): DONE is 0 while a command runs, and there is no
error before a command has completed. -/
def State.LifecycleOk (s : State) : Prop :=
  (s.isBusy = true → s.status.done = false) ∧ (s.status.done = false → s.status.error = none)

/-- R42: with KEYVALID = 1, NR and SCHED are those of the expansion of some key of a legal size; with
KEYVALID = 0, NR is 0. -/
def State.ScheduleOk (s : State) : Prop :=
  (s.status.keyValid = true → ∃ ks : KeySize, ∃ key : List Quad,
      key.length = ks.numKeyWords ∧ s.status.nr.toNat = ks.numRounds ∧
      s.sched = scheduleRam (keyExpansion key ks)) ∧
  (s.status.keyValid = false → s.status.nr = 0)

/-- The written bytes of BUF are in canonical form and within its capacity (R39). -/
def State.BufOk (s : State) : Prop :=
  s.buf.wf ∧ ∀ c ∈ s.buf, bufBase ≤ c.1 ∧ c.1 < bufBase + s.bufBytes

/-- The invariant of the machine. Before the first reset after power-up only BUF's form is claimed (R260). -/
def State.Inv (s : State) : Prop :=
  s.BufOk ∧ (s.awaitingReset = false → s.LifecycleOk ∧ s.ScheduleOk)

/-- No reset and no power-up among the next n host inputs. -/
def State.undisturbed (s : State) (n : Nat) : Prop := ∀ e ∈ s.host.take n, e.preempts = false

end Sys2Proof.Machine
end

