-- ==== Sys2Proof/Certificates/Slice0/Obligations.lean ====
section
/-! DEFINITION. The statements for the provers, from the spec's numbered rules, with the spec-side functions
they are stated in. -/

namespace Sys2Proof.Spec

open Sys2Proof.Machine

/-! ## The field, from its polynomials (R120, GLOSSARY) -/

/-- The product of two polynomials over GF(2) given as the numbers of their coefficients. -/
def polyMul (a b : Nat) : Nat :=
  (List.range 8).foldl (fun p k => if b.testBit k then p ^^^ (a <<< k) else p) 0

/-- A polynomial of degree at most 14 modulo m(x) = 0x11B. -/
def polyReduce (p : Nat) : Nat :=
  [14, 13, 12, 11, 10, 9, 8].foldl (fun q k => if q.testBit k then q ^^^ (0x11B <<< (k - 8)) else q) p

/-- The product in GF(2^8). -/
def fieldMul (a b : Byte) : Byte := BitVec.ofNat 8 (polyReduce (polyMul a.toNat b.toNat))

/-- The n-th power of 2 in GF(2^8). -/
def twoPow : Nat → Byte
  | 0 => 1
  | n + 1 => fieldMul 2 (twoPow n)

/-- `b` is the inverse of `x`, with 0 mapped to 0 (R127). -/
def IsFieldInverse (x b : Byte) : Prop := if x = 0 then b = 0 else fieldMul x b = 1

/-- The affine map of R127. -/
def affine (b : Byte) : Byte :=
  b ^^^ b.rotateLeft 1 ^^^ b.rotateLeft 2 ^^^ b.rotateLeft 3 ^^^ b.rotateLeft 4 ^^^ 0x63

/-! ## Encodings (R90 to R93) -/

/-- The opcode map of R92. -/
def opcode : Mnemonic → Word
  | .GFMUL => 0x01
  | .XTIME => 0x02
  | .MUL3 => 0x03
  | .SBOX => 0x04
  | .INVSBOX => 0x05
  | .RCON => 0x06
  | .NUMROUNDS => 0x08
  | .NUMKEYWORDS => 0x09
  | .KEYEXP => 0x10
  | .GETRK => 0x11
  | .ADDRK => 0x20
  | .SUBBYTES => 0x21
  | .INVSUBBYTES => 0x22
  | .SHIFTROWS => 0x23
  | .INVSHIFTROWS => 0x24
  | .MIXCOLUMNS => 0x25
  | .INVMIXCOLUMNS => 0x26
  | .ENCRYPT => 0x30
  | .DECRYPT => 0x31
  | .ECB_ENC => 0x40
  | .ECB_DEC => 0x41
  | .CBC_ENC => 0x42
  | .CBC_DEC => 0x43

/-- The mask of R93. -/
def mask : Mnemonic → Word
  | .GFMUL => 0xFF0000FF
  | .XTIME | .MUL3 | .SBOX | .INVSBOX | .RCON | .GETRK => 0xFFFF00FF
  | _ => 0xFFFFFFFF

/-- R93: the words that select a mnemonic are those its mask and match pick, and the command read from such a
word has the word's fields A and B as its operands. -/
def SelectedByMask (m : Mnemonic) : Prop :=
  ∀ w : Word, ((∃ i, decode w = .ok i ∧ i.mnemonic = m) ↔ w &&& mask m = opcode m) ∧
    (w &&& mask m = opcode m → decode w = .ok (m.instr (w.extractLsb' 8 8) (w.extractLsb' 16 8)))

/-! ## The window (R61, R67) -/

/-- The mapped offsets of the window. -/
def Mapped (s : State) (a : Nat) : Prop :=
  a < 0x1C ∨ (0x20 ≤ a ∧ a < 0x70) ∨ (0x100 ≤ a ∧ a < 0x1F0) ∨ (0x1000 ≤ a ∧ a < 0x1000 + s.bufBytes)

/-- The codes of R220. -/
def errorCode : Option CmdError → BitVec 4
  | none => 0x0
  | some .keysize => 0x1
  | some .align => 0x2
  | some .keylen => 0x3
  | some .illegal => 0x4
  | some .rconIndex => 0x5
  | some .noKey => 0x6
  | some .roundRange => 0x7
  | some .lenRange => 0x8

/-- The fields of a STATUS word but KEYVALID and NR (R23). -/
def StatusLifecycle (s : State) (w : Word) : Prop :=
  w.getLsbD 0 = s.isBusy ∧ w.getLsbD 1 = s.status.done ∧ w.getLsbD 2 = s.status.error.isSome ∧
  w.getLsbD 3 = s.status.overrun ∧ w.extractLsb' 4 4 = errorCode s.status.error ∧
  w.extractLsb' 9 3 = 0 ∧ w.extractLsb' 16 16 = 0

/-- KEYVALID and NR of a STATUS word (R23). -/
def StatusKey (s : State) (w : Word) : Prop :=
  w.getLsbD 8 = s.status.keyValid ∧ w.extractLsb' 12 4 = s.status.nr

/-- The word at a mapped offset, register by register and, in the byte arrays, byte by byte (R21 to R39, R67). -/
def HoldsWord (s : State) (a : Nat) (w : Word) : Prop :=
  (a = 0x00 → w = 0x41455331) ∧
  (a = 0x04 → w = s.cmd) ∧
  (a = 0x08 → StatusLifecycle s w ∧ StatusKey s w) ∧
  (a = 0x0C → w.extractLsb' 0 9 = s.keycfg.keysize ∧ w.extractLsb' 9 7 = 0 ∧
    w.extractLsb' 16 6 = s.keycfg.keylen ∧ w.extractLsb' 22 10 = 0) ∧
  (a = 0x10 → w = s.len) ∧
  (a = 0x14 → w.extractLsb' 0 8 = s.result ∧ w.extractLsb' 8 24 = 0) ∧
  (a = 0x18 → w.toNat = s.bufBytes) ∧
  ∀ k < 4,
    (0x20 ≤ a → a < 0x40 → w.extractLsb' (8 * k) 8 = s.keyByte (a - 0x20 + k)) ∧
    (0x40 ≤ a → a < 0x50 → w.extractLsb' (8 * k) 8 = s.iv.byte (a - 0x40 + k)) ∧
    (0x50 ≤ a → a < 0x60 → w.extractLsb' (8 * k) 8 = s.st.byte (a - 0x50 + k)) ∧
    (0x60 ≤ a → a < 0x70 → w.extractLsb' (8 * k) 8 = s.rk.byte (a - 0x60 + k)) ∧
    (0x100 ≤ a → a < 0x1F0 → w.extractLsb' (8 * k) 8 = s.schedByte (a - 0x100 + k)) ∧
    (0x1000 ≤ a → w.extractLsb' (8 * k) 8 = s.bufByte (a - 0x1000 + k))

/-- The byte at `base + k` after a write transaction of four bytes (R67). -/
def storedByte (t : Transaction) (base k : Nat) (old : Byte) : Byte :=
  if t.addr.toNat ≤ base + k ∧ base + k < t.addr.toNat + 4
  then t.wdata.extractLsb' (8 * (base + k - t.addr.toNat)) 8 else old

/-- Whether an offset other than STATUS is in the exposure set of a command (R44). -/
def ExposedAt (i : Instr) (a : Nat) : Prop :=
  match i with
  | .gfmul _ _ | .xtime _ | .mul3 _ | .sbox _ | .invsbox _ | .rcon _ | .numrounds | .numkeywords => a = 0x14
  | .keyexp => 0x100 ≤ a ∧ a < 0x1F0
  | .getrk _ => 0x60 ≤ a ∧ a < 0x70
  | .addrk | .subbytes | .invsubbytes | .shiftrows | .invshiftrows | .mixcolumns | .invmixcolumns
  | .encrypt | .decrypt => 0x50 ≤ a ∧ a < 0x60
  | .ecbEnc | .ecbDec | .cbcEnc | .cbcDec => (0x100 ≤ a ∧ a < 0x1F0) ∨ 0x1000 ≤ a

/-- The commands whose exposure set holds KEYVALID and NR (R44): those that expand a key. -/
def ExpandsKey : Instr → Prop
  | .keyexp | .ecbEnc | .ecbDec | .cbcEnc | .cbcDec => True
  | _ => False

/-! ## The checks (R222) -/

/-- KEYSIZE is not 128, 192 or 256. -/
def BadKeySize (s : State) : Prop :=
  s.keycfg.keysize.toNat ≠ 128 ∧ s.keycfg.keysize.toNat ≠ 192 ∧ s.keycfg.keysize.toNat ≠ 256

/-- KEYLEN * 8 is not KEYSIZE. -/
def BadKeyLen (s : State) : Prop := s.keycfg.keylen.toNat * 8 ≠ s.keycfg.keysize.toNat

/-- The first check of a command's row of R222 that fails, after decoding, as a relation. -/
def FirstError (s : State) (i : Instr) (e : CmdError) : Prop :=
  match i with
  | .rcon x => e = .rconIndex ∧ (x.toNat = 0 ∨ 14 < x.toNat)
  | .numrounds | .numkeywords => e = .keysize ∧ BadKeySize s
  | .keyexp => (e = .keysize ∧ BadKeySize s) ∨ (e = .keylen ∧ ¬ BadKeySize s ∧ BadKeyLen s)
  | .getrk r =>
    (e = .noKey ∧ s.status.keyValid = false) ∨
    (e = .roundRange ∧ s.status.keyValid = true ∧ s.status.nr.toNat < r.toNat)
  | .encrypt | .decrypt => e = .noKey ∧ s.status.keyValid = false
  | .ecbEnc | .ecbDec | .cbcEnc | .cbcDec =>
    (e = .keysize ∧ BadKeySize s) ∨
    (e = .align ∧ ¬ BadKeySize s ∧ s.len.toNat % 16 ≠ 0) ∨
    (e = .keylen ∧ ¬ BadKeySize s ∧ s.len.toNat % 16 = 0 ∧ BadKeyLen s) ∨
    (e = .lenRange ∧ ¬ BadKeySize s ∧ s.len.toNat % 16 = 0 ∧ ¬ BadKeyLen s ∧ s.bufBytes < s.len.toNat)
  | _ => False

/-- The command in flight completes in this step with an error, and nothing else changes (R223). -/
def StepFailsWith (s : State) (e : CmdError) : Prop :=
  ∃ work draws, step s = .next
    { s with
      phase := .idle, work := work, draws := draws
      status := { s.status with done := true, error := some e } }

/-- KEYCFG is legal and declares the key size `ks`. -/
def KeyReady (s : State) (ks : KeySize) : Prop :=
  s.keycfg.keysize.toNat = ks.bits ∧ s.keycfg.keylen.toNat * 8 = ks.bits

/-- All checks of a mode command pass, and the key size is `ks` (R200). -/
def ModeReady (s : State) (ks : KeySize) : Prop :=
  KeyReady s ks ∧ s.len.toNat % 16 = 0 ∧ s.len.toNat ≤ s.bufBytes

/-! ## The schedule (R151) -/

/-- What R151 makes of `t = w[i-1]` before it adds `w[i-Nk]`, with `rcon(j) = 2^(j-1)` (R126, C1). -/
def scheduleTemp (nk i : Nat) (t : Quad) : Quad :=
  if i % nk = 0 then
    ⟨sboxValue t.b1 ^^^ twoPow (i / nk - 1), sboxValue t.b2, sboxValue t.b3, sboxValue t.b0⟩
  else if nk = 8 ∧ i % nk = 4 then ⟨sboxValue t.b0, sboxValue t.b1, sboxValue t.b2, sboxValue t.b3⟩
  else t

/-- `w` is the schedule of the key whose bytes are `key` (R151). -/
def IsScheduleOf (ks : KeySize) (key : Nat → Byte) (w : Nat → Quad) : Prop :=
  (∀ j < ks.numKeyWords, w j = ⟨key (4 * j), key (4 * j + 1), key (4 * j + 2), key (4 * j + 3)⟩) ∧
  ∀ i, ks.numKeyWords ≤ i → i < 4 * (ks.numRounds + 1) →
    w i = (scheduleTemp ks.numKeyWords i (w (i - 1))).xor (w (i - ks.numKeyWords))

/-- InstallSchedule(ks): `t` holds the schedule of the key in `s`, zero above it, NR and KEYVALID (R156). -/
def Installs (ks : KeySize) (s t : State) : Prop :=
  IsScheduleOf ks s.keyByte t.schedWord ∧
  (∀ k, 16 * (ks.numRounds + 1) ≤ k → k < 240 → t.schedByte k = 0) ∧
  t.status.nr.toNat = ks.numRounds ∧ t.status.keyValid = true

/-! ## The ciphers (R190, R191) -/

/-- The 16 bytes SCHED[16r .. 16r+16). -/
def scheduleBlock (s : State) (r : Nat) : Block := Block.ofBytes fun k => s.schedByte (16 * r + k)

/-- Cipher(b, SCHED, nr): whitening, rounds 1 to nr-1, and the final round without MixColumns. -/
def cipherBlock (s : State) (nr : Nat) (b : Block) : Block :=
  let x := (List.range' 1 (nr - 1)).foldl
    (fun x r => addRoundKey (mixColumns (shiftRows (subBytes x))) (scheduleBlock s r))
    (addRoundKey b (scheduleBlock s 0))
  addRoundKey (shiftRows (subBytes x)) (scheduleBlock s nr)

/-- InvCipher(b, SCHED, nr): round key nr, rounds nr-1 down to 1, and the final step without InvMixColumns. -/
def invCipherBlock (s : State) (nr : Nat) (b : Block) : Block :=
  let x := (List.range' 1 (nr - 1)).reverse.foldl
    (fun x r => invMixColumns (addRoundKey (invSubBytes (invShiftRows x)) (scheduleBlock s r)))
    (addRoundKey b (scheduleBlock s nr))
  addRoundKey (invSubBytes (invShiftRows x)) (scheduleBlock s 0)

/-- WHITEN 0; ENC_ROUND 1; ...; ENC_ROUND nr-1; ENC_FINAL nr (R193). -/
def encryptProgram (nr : Nat) : List Instr :=
  pseudoCommands (.whiten 0) ++
    (List.range' 1 (nr - 1)).flatMap (fun r => pseudoCommands (.encRound (BitVec.ofNat 8 r))) ++
    pseudoCommands (.encFinal (BitVec.ofNat 8 nr))

/-- WHITEN nr; DEC_ROUND nr-1; ...; DEC_ROUND 1; DEC_FINAL (R193). -/
def decryptProgram (nr : Nat) : List Instr :=
  pseudoCommands (.whiten (BitVec.ofNat 8 nr)) ++
    (List.range' 1 (nr - 1)).reverse.flatMap (fun r => pseudoCommands (.decRound (BitVec.ofNat 8 r))) ++
    pseudoCommands .decFinal

/-- Entry (r, k) of a matrix of bytes. -/
def entry (m : List (List Byte)) (r k : Nat) : Byte := (m.getD r []).getD k 0

/-- The matrix of MixColumns (R175). -/
def mixMatrix : List (List Byte) := [[2, 3, 1, 1], [1, 2, 3, 1], [1, 1, 2, 3], [3, 1, 1, 2]]

/-- The matrix of InvMixColumns (R176). -/
def invMixMatrix : List (List Byte) := [[14, 11, 13, 9], [9, 14, 11, 13], [13, 9, 14, 11], [11, 13, 9, 14]]

/-- Row r, column c of the product of a matrix with the state (R12, R175, R176). -/
def matrixProduct (m : List (List Byte)) (s : Block) (r c : Nat) : Byte :=
  fieldMul (entry m r 0) (s.byte (4 * c)) ^^^ fieldMul (entry m r 1) (s.byte (1 + 4 * c)) ^^^
  fieldMul (entry m r 2) (s.byte (2 + 4 * c)) ^^^ fieldMul (entry m r 3) (s.byte (3 + 4 * c))

end Sys2Proof.Spec

open Sys2Proof Sys2Proof.Machine Sys2Proof.Spec

/-! ## Encoding -/

/-- Every command's word decodes to it, with every operand. -/
def Obligations.DecodingAnEncodedCommandGivesItBack : Prop := ∀ i : Instr, decode (encode i) = .ok i

/-- No two words mean one command: a word that decodes is the word of what it decodes to. -/
def Obligations.ALegalWordIsTheEncodingOfItsCommand : Prop :=
  ∀ (w : Word) (i : Instr), decode w = .ok i → encode i = w

/-- R93. -/
def Obligations.MaskAndMatchSelectTheMnemonic : Prop := ∀ m : Mnemonic, SelectedByMask m

/-- R99: the example statements and their words, both ways, and the four illegal words. -/
def Obligations.ExampleWordsDecodeAsListed : Prop :=
  (∀ p ∈ ([(.gfmul 0x57 0x83, 0x00835701), (.xtime 0x80, 0x00008002), (.mul3 0x57, 0x00005703),
      (.sbox 0x53, 0x00005304), (.invsbox 0xED, 0x0000ED05), (.rcon 10, 0x00000A06),
      (.numrounds, 0x00000008), (.numkeywords, 0x00000009), (.keyexp, 0x00000010), (.getrk 14, 0x00000E11),
      (.addrk, 0x00000020), (.mixcolumns, 0x00000025), (.encrypt, 0x00000030), (.decrypt, 0x00000031),
      (.cbcDec, 0x00000043)] : List (Instr × Word)),
    encode p.1 = p.2 ∧ decode p.2 = .ok p.1) ∧
  ∀ w ∈ [(0x00000000 : Word), 0x01000030, 0x00000130, 0x00010002], ∀ i, decode w ≠ .ok i

/-- R97, a mnemonic statement: with an operand the mnemonic does not take, or one that does not fit in a byte, it does
not assemble; with its operands it is `WR 0x0004, {0x00, b, a, OPC}` and WAIT, and the word decodes to the mnemonic's
command. That a statement with an operand missing does not assemble either is no part of R97: it is the model's
choice (log 19). -/
def Obligations.MnemonicStatementAssemblesToItsWord : Prop :=
  ∀ (m : Mnemonic) (ops : List Nat),
    ((assemble (.command m ops)).isSome = true ↔ ops.length = m.arity ∧ ∀ n ∈ ops, n < 256) ∧
    ∀ evs, assemble (.command m ops) = some evs →
      ∃ w : Word, evs = [.transact (writeAt 0x0004 w), .wait] ∧
        w.toNat = (opcode m).toNat + 256 * ops.getD 0 0 + 65536 * ops.getD 1 0 ∧
        ∃ i, decode w = .ok i ∧ i.mnemonic = m

/-! ## The lifecycle of a command -/

/-- With a command due, and no reset pending, a step is `exec` of the command the accepted word decodes to. -/
def Obligations.StepRunsTheDecodedCommand : Prop :=
  ∀ (s : State) (i : Instr), s.phase = .busy → s.latency = 0 → s.awaitingReset = false → s.undisturbed 1 →
    decode s.cmd = .ok i → step s = exec i s

/-- R94: the words no mnemonic selects are illegal; one is still accepted, and in flight it completes with
ERR_ILLEGAL and has no other effect. -/
def Obligations.IllegalWordCompletesWithErrIllegal : Prop :=
  (∀ w : Word, (∃ e, decode w = .error e) ↔ ∀ m, w &&& Spec.mask m ≠ opcode m) ∧
  (∀ (s : State) (w : Word), s.phase = .idle →
    (s.transact (writeAt 0x0004 w)).cmd = w ∧ (s.transact (writeAt 0x0004 w)).isBusy = true) ∧
  (∀ (s : State) (e : IllegalWord), s.phase = .busy → s.latency = 0 → s.awaitingReset = false → s.undisturbed 1 →
    decode s.cmd = .error e → StepFailsWith s .illegal) ∧
  CmdError.code .illegal = 0x4

/-- R46: a word written to CMD while idle is accepted whatever it is; one written while busy is not. -/
def Obligations.WriteToCmdIsAcceptedWhenIdle : Prop :=
  ∀ (s : State) (w : Word),
    (s.isBusy = false →
      ∃ left draws, s.transact (writeAt 0x0004 w) =
        { s with
          cmd := w, phase := .busy, latency := left, draws := draws, rsp := some .okay
          status := { s.status with done := false, error := none, overrun := false } }) ∧
    (s.isBusy = true →
      s.transact (writeAt 0x0004 w) =
        { s with status := { s.status with overrun := true }, rsp := some .okay })

/-- R45: up to the edge at which a command completes, the host's transactions change nothing but OVERRUN, the
responses, and the model's own draw counter. -/
def Obligations.BusyPeriodKeepsEveryOperand : Prop :=
  ∀ (s : State) (n : Nat), s.phase = .busy → s.latency = n → s.awaitingReset = false → s.undisturbed n →
    ∃ t, core.run n s = .next t ∧
      t = { s with
        latency := 0, host := t.host, rsp := t.rsp, draws := t.draws
        status := { s.status with overrun := t.status.overrun } } ∧
      (s.status.overrun = true → t.status.overrun = true)

/-- R228: every accepted command completes, at the end of its latency, if no reset comes. -/
def Obligations.EveryAcceptedCommandCompletes : Prop :=
  ∀ (s : State) (n : Nat), s.phase = .busy → s.latency = n → s.awaitingReset = false → s.undisturbed (n + 1) →
    ∃ t, core.run (n + 1) s = .next t ∧ t.isBusy = false ∧ t.status.done = true

/-- R222 and R223: decoding comes first, and an illegal word has no further checks; a command whose first failing
check is `e` completes with `e` and changes nothing else; a command with no failing check completes without an
error. -/
def Obligations.FirstFailingCheckDecides : Prop :=
  (∀ (s : State) (x : IllegalWord), s.phase = .busy → s.latency = 0 → s.awaitingReset = false → s.undisturbed 1 →
    decode s.cmd = .error x → StepFailsWith s .illegal) ∧
  ∀ (i : Instr) (s : State),
    (∀ e, FirstError s i e → FailsWith i s e) ∧
    ((∀ e, ¬ FirstError s i e) → ∃ t, CompletesAs i s t ∧ t.status.error = s.status.error)

/-- R43: a successful command writes its write set only, and a command that ends in an error the STATUS
lifecycle fields only. -/
def Obligations.CommandsWriteOnlyTheirWriteSet : Prop :=
  ∀ (i : Instr) (s : State),
    ((∀ e, ¬ FirstError s i e) →
      ∃ t, CompletesAs i s t ∧ WithinWriteSet (Instr.commandClass i) s t ∧ t.status.error = s.status.error) ∧
    ∀ e, FirstError s i e → FailsWith i s e

/-- R43, last sentence, R221 and R22: no command writes CAP, KEYCFG, LEN, KEY or IV, whatever its end, and CMD
keeps its word. ID is no state. -/
def Obligations.NoCommandWritesTheHostsRegisters : Prop :=
  ∀ (i : Instr) (s t : State), exec i s = .next t →
    t.capacity = s.capacity ∧ t.keycfg = s.keycfg ∧ t.len = s.len ∧ t.key = s.key ∧ t.iv = s.iv ∧
    t.cmd = s.cmd

/-- R38, R76: but for a reset, only a KEYEXP or mode command that completes without an error changes SCHED,
KEYVALID or NR; a host write, of KEY and KEYCFG too, does not. -/
def Obligations.OnlyKeyExpansionChangesTheSchedule : Prop :=
  ∀ s t : State, s.undisturbed 1 → step s = .next t →
    (t.sched ≠ s.sched ∨ t.status.keyValid ≠ s.status.keyValid ∨ t.status.nr ≠ s.status.nr) →
    s.phase = .busy ∧ s.latency = 0 ∧ ∃ i, decode s.cmd = .ok i ∧ ExpandsKey i ∧ ∀ e, ¬ FirstError s i e

/-! ## Reset and the order of events -/

/-- R231 and R260: a sampled reset discards all else, whatever is in flight; a completion comes before the
transaction of its clock edge, which is still pending after it. At every other clock edge the core takes the next
pending transaction, once and in order, or none where the host's input is quiet or absent; a command in flight is
then one edge nearer to its completion. That the host's inputs are a list in the state is the model's choice
(log 8), and the latency counter counts clock edges (log 3). Of the reset state `State.atReset`, the latency counter
at 0 (log 23) and the cleared response (log 11) are the model's choices too. -/
def Obligations.ResetThenCompletionThenTransaction : Prop :=
  (∀ (s : State) (rest : List HostEvent), s.host = .reset :: rest →
    step s = .next (State.atReset s.capacity s.ecbParallel s.draws rest)) ∧
  (∀ (s t : State), s.undisturbed 1 → s.phase = .busy → s.latency = 0 → step s = .next t →
    t.host = s.host ∧ t.phase = .idle) ∧
  (∀ (s : State) (t : Transaction) (rest : List HostEvent), s.host = .transact t :: rest →
    s.awaitingReset = false →
    (s.phase = .idle → step s = .next { s.transact t with host := rest }) ∧
    ∀ n, s.phase = .busy → s.latency = n + 1 →
      step s = .next { s.transact t with host := rest, latency := n }) ∧
  ∀ s : State, (s.host = [] ∨ s.host.head? = some .quiet) → s.awaitingReset = false →
    (s.phase = .idle → step s = .next { s with host := s.host.tail }) ∧
    ∀ n, s.phase = .busy → s.latency = n + 1 → step s = .next { s with host := s.host.tail, latency := n }

/-- R49: what a sampled reset leaves: every register at its value, the sequencer idle, and in SCHED and BUF a free
byte at each index. Of the hidden registers, which are undefined, nothing is claimed. -/
def Obligations.ResetGivesEveryRegisterItsValue : Prop :=
  ∀ (s : State) (rest : List HostEvent), s.host = .reset :: rest →
    ∃ t, step s = .next t ∧
      (t.transact (readAt 0x0000)).rsp = some (.okayData 0x41455331) ∧ t.cmd = 0 ∧
      StatusLifecycle t 0 ∧ StatusKey t 0 ∧ t.keycfg = { keysize := 0, keylen := 0 } ∧ t.len = 0 ∧
      t.result = 0 ∧ t.bufBytes = s.bufBytes ∧ t.phase = .idle ∧
      (∀ k < 32, t.keyByte k = 0) ∧
      (∀ k < 16, t.iv.byte k = 0 ∧ t.st.byte k = 0 ∧ t.rk.byte k = 0) ∧
      (∀ k < 240, t.schedByte k = Config.ramByte s.draws (0x100 + k)) ∧
      ∀ k < t.bufBytes, t.bufByte k = Config.ramByte s.draws (0x1000 + k)

/-- R260, U13: from a power-up on nothing but a reset (or another power-up) lets the machine go on. -/
def Obligations.PowerUpIsStuckUntilReset : Prop :=
  ∀ (s : State) (rest : List HostEvent), s.host = .powerUp :: rest →
    ∃ t, step s = .next t ∧ t.host = rest ∧
      (t.undisturbed 1 → step t = .fault .undefinedBeforeReset) ∧
      (∀ rest', rest = .reset :: rest' → ∃ u, step t = .next u ∧ u.awaitingReset = false ∧ u.host = rest')

/-! ## The window -/

/-- R64, R65 and R226: an access that is not an aligned 4-byte access, or one to a reserved offset, gets an
ERROR response with read data 0 and changes nothing, OVERRUN included, busy or not. -/
def Obligations.BusErrorChangesNothing : Prop :=
  ∀ (s : State) (t : Transaction),
    (t.size ≠ 2 ∨ t.addr.toNat % 4 ≠ 0 ∨ ¬ Mapped s t.addr.toNat) →
    s.transact t = { s with rsp := some (.error 0) }

/-- R61, R62 and R67: a read of a mapped word while idle returns it and has no other effect. -/
def Obligations.IdleReadReturnsTheMappedWord : Prop :=
  ∀ (s : State) (t : Transaction), s.phase = .idle → t.write = false → t.size = 2 → t.addr.toNat % 4 = 0 →
    Mapped s t.addr.toNat →
    ∃ w, s.transact t = { s with rsp := some (.okayData w) } ∧ HoldsWord s t.addr.toNat w

/-- R48: while a command is in flight an illegal access, or one to a reserved offset, gets ERROR; a write to any
mapped offset is dropped and sets OVERRUN; a read of STATUS gives BUSY = 1, DONE = 0, ERR = 0, ERRCODE = 0, the
current OVERRUN and, unless the command expands a key, the current KEYVALID and NR; a read outside the command's
exposure set gives the current value, one inside it some word; no read changes anything but its response. -/
def Obligations.AccessesWhileBusy : Prop :=
  ∀ (s : State) (t : Transaction), s.isBusy = true → s.LifecycleOk →
    ((t.size ≠ 2 ∨ t.addr.toNat % 4 ≠ 0 ∨ ¬ Mapped s t.addr.toNat) →
      s.transact t = { s with rsp := some (.error 0) }) ∧
    (t.size = 2 → t.addr.toNat % 4 = 0 → Mapped s t.addr.toNat → t.write = true →
      s.transact t = { s with status := { s.status with overrun := true }, rsp := some .okay }) ∧
    (t.size = 2 → t.addr.toNat % 4 = 0 → Mapped s t.addr.toNat → t.write = false →
      ∃ w draws, s.transact t = { s with rsp := some (.okayData w), draws := draws } ∧
        (t.addr.toNat = 0x08 →
          StatusLifecycle s w ∧ w.getLsbD 0 = true ∧ w.getLsbD 1 = false ∧ w.getLsbD 2 = false ∧
          w.extractLsb' 4 4 = 0) ∧
        (t.addr.toNat = 0x08 → (∀ i, decode s.cmd = .ok i → ¬ ExpandsKey i) → StatusKey s w) ∧
        (t.addr.toNat ≠ 0x08 → (∀ i, decode s.cmd = .ok i → ¬ ExposedAt i t.addr.toNat) →
          HoldsWord s t.addr.toNat w))

/-- R63, R67, the byte arrays: an idle write stores its four bytes and changes no other byte and no other
register. -/
def Obligations.IdleWriteStoresFourBytes : Prop :=
  ∀ (s : State) (t : Transaction), s.phase = .idle → t.write = true → t.size = 2 → t.addr.toNat % 4 = 0 →
    (0x20 ≤ t.addr.toNat → t.addr.toNat < 0x40 →
      s.transact t = { s with key := (s.transact t).key, rsp := some .okay } ∧
      ∀ k < 32, (s.transact t).keyByte k = storedByte t 0x20 k (s.keyByte k)) ∧
    (0x40 ≤ t.addr.toNat → t.addr.toNat < 0x50 →
      s.transact t = { s with iv := (s.transact t).iv, rsp := some .okay } ∧
      ∀ k < 16, (s.transact t).iv.byte k = storedByte t 0x40 k (s.iv.byte k)) ∧
    (0x50 ≤ t.addr.toNat → t.addr.toNat < 0x60 →
      s.transact t = { s with st := (s.transact t).st, rsp := some .okay } ∧
      ∀ k < 16, (s.transact t).st.byte k = storedByte t 0x50 k (s.st.byte k)) ∧
    (0x60 ≤ t.addr.toNat → t.addr.toNat < 0x70 →
      s.transact t = { s with rk := (s.transact t).rk, rsp := some .okay } ∧
      ∀ k < 16, (s.transact t).rk.byte k = storedByte t 0x60 k (s.rk.byte k)) ∧
    (0x1000 ≤ t.addr.toNat → t.addr.toNat < 0x1000 + s.bufBytes →
      s.transact t = { s with buf := (s.transact t).buf, rsp := some .okay } ∧
      ∀ k, (s.transact t).bufByte k = storedByte t 0x1000 k (s.bufByte k))

/-- R30, R31 and R63: an idle write to KEYCFG stores its two fields and drops the reserved bits, and one to LEN
stores all 32 bits; nothing else changes. -/
def Obligations.IdleWriteToKeycfgAndLen : Prop :=
  ∀ (s : State) (v : Word), s.phase = .idle →
    s.transact (writeAt 0x000C v) = { s with
      keycfg := { keysize := v.extractLsb' 0 9, keylen := v.extractLsb' 16 6 }
      rsp := some .okay } ∧
    s.transact (writeAt 0x0010 v) = { s with len := v, rsp := some .okay }

/-- R66: a write to ID, STATUS, RESULT, CAP or SCHED is ignored with an OKAY response when idle, and dropped with
OVERRUN set when busy. -/
def Obligations.WritesToReadOnlyOffsetsAreIgnored : Prop :=
  ∀ (s : State) (t : Transaction), t.write = true → t.size = 2 → t.addr.toNat % 4 = 0 →
    (t.addr.toNat = 0x00 ∨ t.addr.toNat = 0x08 ∨ t.addr.toNat = 0x14 ∨ t.addr.toNat = 0x18 ∨
      (0x100 ≤ t.addr.toNat ∧ t.addr.toNat < 0x1F0)) →
    (s.isBusy = false → s.transact t = { s with rsp := some .okay }) ∧
    (s.isBusy = true → s.transact t = { s with status := { s.status with overrun := true }, rsp := some .okay })

/-- R70: writing the same value twice leaves what writing it once leaves, everywhere but at CMD. -/
def Obligations.IdleWritesButToCmdAreIdempotent : Prop :=
  ∀ (s : State) (t : Transaction), s.phase = .idle → s.BufOk → t.write = true → t.addr ≠ 0x0004 →
    (s.transact t).transact t = s.transact t

/-- R74: the host's WAIT reads STATUS until it reads BUSY = 0. So it stays pending while a command is in flight, and
ends on a read of STATUS with BUSY = 0, which changes nothing else. That the read is repeated at every clock edge
before the completion is no part of R74: it is the model's choice (log 9: WAIT is one input, read once at each
clock edge), as the latency counter's counting of clock edges is (log 3). -/
def Obligations.WaitEndsOnlyWhenNotBusy : Prop :=
  ∀ (s : State) (rest : List HostEvent), s.host = .wait :: rest → s.awaitingReset = false →
    (s.isBusy = true → ∃ t, step s = .next t ∧ t.host = .wait :: rest) ∧
    (∀ n, s.phase = .busy → s.latency = n + 1 →
      step s = .next { s.transact (readAt 0x0008) with latency := n }) ∧
    (s.isBusy = false → ∃ w, step s = .next { s with host := rest, rsp := some (.okayData w) } ∧
      w.getLsbD 0 = false ∧ StatusLifecycle s w ∧ StatusKey s w)

/-! ## Invariants -/

/-- R42, R24 to R26, and the canonical form of BUF: every step keeps the invariant. -/
def Obligations.EveryStepKeepsTheInvariant : Prop := ∀ s t : State, s.Inv → step s = .next t → t.Inv

/-- The invariant holds after every reset. -/
def Obligations.TheInvariantHoldsAfterReset : Prop :=
  State.reset.Inv ∧ ∀ capacity ecbParallel draw host, (State.atReset capacity ecbParallel draw host).Inv

/-- R33: CAP always reads BUF_BYTES, which no step changes. -/
def Obligations.NoStepChangesTheCapacity : Prop :=
  ∀ s t : State, step s = .next t → t.capacity = s.capacity

/-! ## Field arithmetic and tables -/

/-- R130 and R120: GFMUL's words, and its result: the product of the two polynomials modulo m(x). -/
def Obligations.GfmulGivesTheFieldProduct : Prop :=
  SelectedByMask .GFMUL ∧
  ∀ (a b : Byte) (s : State), CompletesAs (.gfmul a b) s { s with result := fieldMul a b }

/-- R123. -/
def Obligations.FieldMultiplicationObeysTheFieldLaws : Prop :=
  ∀ a b c : Byte,
    gfmul a b = gfmul b a ∧ gfmul (gfmul a b) c = gfmul a (gfmul b c) ∧
    gfmul a (b ^^^ c) = gfmul a b ^^^ gfmul a c ∧ gfmul a 1 = a ∧ gfmul a 0 = 0 ∧
    (a ≠ 0 → ∃! x, gfmul a x = 1)

/-- R131 and R132, with R121 and R122: XTIME and MUL3 give the products by 2 and by 3. -/
def Obligations.XtimeAndMul3GiveTheProductsByTwoAndThree : Prop :=
  SelectedByMask .XTIME ∧ SelectedByMask .MUL3 ∧
  ∀ (a : Byte) (s : State),
    let x : Byte := if a.toNat < 128 then BitVec.ofNat 8 (2 * a.toNat) else BitVec.ofNat 8 (2 * a.toNat) ^^^ 0x1B
    CompletesAs (.xtime a) s { s with result := x } ∧ x = fieldMul 2 a ∧
    CompletesAs (.mul3 a) s { s with result := x ^^^ a } ∧ x ^^^ a = fieldMul 3 a

/-- R127, R133: SBOX gives the affine map of the field inverse of its operand. -/
def Obligations.SboxGivesTheAffineMapOfTheInverse : Prop :=
  SelectedByMask .SBOX ∧
  ∀ (x : Byte) (s : State), ∃ b, IsFieldInverse x b ∧ CompletesAs (.sbox x) s { s with result := affine b }

/-- R125, R134: INVSBOX gives the byte that SBOX maps to its operand. -/
def Obligations.InvsboxGivesThePreimageUnderSbox : Prop :=
  SelectedByMask .INVSBOX ∧
  ∀ (y : Byte) (s : State), ∃ x, CompletesAs (.invsbox y) s { s with result := x } ∧
    CompletesAs (.sbox x) s { s with result := y }

/-- R128. -/
def Obligations.TheTablesAreInverseWithoutFixedPoints : Prop :=
  ∀ x : Byte, sboxInvert (sboxValue x) = x ∧ sboxValue (sboxInvert x) = x ∧ sboxValue x ≠ x ∧
    sboxValue x ≠ x ^^^ 0xFF

/-- R135 and R126: RCON gives 2^(i-1) for i = 1..14, and ERR_RCON_INDEX with RESULT unchanged otherwise. -/
def Obligations.RconGivesPowersOfTwoOrAnIndexError : Prop :=
  SelectedByMask .RCON ∧
  ∀ (i : Byte) (s : State),
    (1 ≤ i.toNat → i.toNat ≤ 14 → CompletesAs (.rcon i) s { s with result := twoPow (i.toNat - 1) }) ∧
    (i.toNat = 0 ∨ 14 < i.toNat → FailsWith (.rcon i) s .rconIndex)

/-! ## The key schedule -/

/-- R154, R155 and R150: the round count and the number of key words of a legal KEYSIZE, whatever KEYLEN, and
ERR_KEYSIZE for any other. -/
def Obligations.NumroundsAndNumkeywordsFollowTheKeySize : Prop :=
  SelectedByMask .NUMROUNDS ∧ SelectedByMask .NUMKEYWORDS ∧
  ∀ s : State,
    (∀ ksize nr nk, (ksize, nr, nk) ∈ [(128, 10, 4), (192, 12, 6), (256, 14, 8)] →
      s.keycfg.keysize.toNat = ksize →
      CompletesAs .numrounds s { s with result := BitVec.ofNat 8 nr } ∧
      CompletesAs .numkeywords s { s with result := BitVec.ofNat 8 nk }) ∧
    (BadKeySize s → FailsWith .numrounds s .keysize ∧ FailsWith .numkeywords s .keysize)

/-- R152, R151 and R156: KEYEXP installs the schedule of KEY, zero above it, NR and KEYVALID, and writes nothing
else; otherwise it ends in ERR_KEYSIZE or ERR_KEYLEN, in this order. -/
def Obligations.KeyexpInstallsTheScheduleOfTheKey : Prop :=
  SelectedByMask .KEYEXP ∧
  ∀ s : State,
    (∀ ks, KeyReady s ks →
      ∃ t, CompletesAs .keyexp s t ∧ WithinWriteSet .keyExpansion s t ∧ Installs ks s t) ∧
    (BadKeySize s → FailsWith .keyexp s .keysize) ∧
    (¬ BadKeySize s → BadKeyLen s → FailsWith .keyexp s .keylen)

/-- R158: the schedule is 16*(Nr+1) bytes long, and after KEYEXP the first 4*Nk bytes of SCHED are the key; so
round key 0 is key bytes 0..15, and round key 1 begins with key bytes 16..23 (192) or is 16..31 (256). -/
def Obligations.TheScheduleBeginsWithTheKey : Prop :=
  ∀ (s : State) (ks : KeySize), KeyReady s ks →
    4 * (keyExpansion (s.keyWords ks) ks).length = 16 * (ks.numRounds + 1) ∧
    ∃ t, CompletesAs .keyexp s t ∧ ∀ k, k < 4 * ks.numKeyWords → t.schedByte k = s.keyByte k

/-- R153: GETRK copies SCHED[16r .. 16r+16) to RK for r up to NR, and fails with ERR_NO_KEY, then with
ERR_ROUND_RANGE, otherwise. -/
def Obligations.GetrkCopiesARoundKeyOrFails : Prop :=
  SelectedByMask .GETRK ∧
  ∀ (r : Byte) (s : State),
    (s.status.keyValid = true → r.toNat ≤ s.status.nr.toNat →
      ∃ k : Block, CompletesAs (.getrk r) s { s with rk := k } ∧
        ∀ j < 16, k.byte j = s.schedByte (16 * r.toNat + j)) ∧
    (s.status.keyValid = false → FailsWith (.getrk r) s .noKey) ∧
    (s.status.keyValid = true → s.status.nr.toNat < r.toNat → FailsWith (.getrk r) s .roundRange)

/-! ## Round transforms -/

/-- R170. -/
def Obligations.AddrkXorsTheRoundKeyIntoTheState : Prop :=
  SelectedByMask .ADDRK ∧
  ∀ s : State, ∃ x : Block, CompletesAs .addrk s { s with st := x } ∧
    ∀ i < 16, x.byte i = s.st.byte i ^^^ s.rk.byte i

/-- R171 and R172. -/
def Obligations.SubbytesActsOnEveryByte : Prop :=
  SelectedByMask .SUBBYTES ∧ SelectedByMask .INVSUBBYTES ∧
  ∀ s : State,
    (∃ x : Block, CompletesAs .subbytes s { s with st := x } ∧
      ∀ i < 16, x.byte i = sboxValue (s.st.byte i)) ∧
    (∃ x : Block, CompletesAs .invsubbytes s { s with st := x } ∧
      ∀ i < 16, x.byte i = sboxInvert (s.st.byte i))

/-- R173 and R174: the byte in row r and column c comes from column c + r, or c - r, of the same row. -/
def Obligations.ShiftrowsRotatesRowRByR : Prop :=
  SelectedByMask .SHIFTROWS ∧ SelectedByMask .INVSHIFTROWS ∧
  ∀ s : State,
    (∃ x : Block, CompletesAs .shiftrows s { s with st := x } ∧
      ∀ r < 4, ∀ c < 4, x.byte (r + 4 * c) = s.st.byte (r + 4 * ((c + r) % 4))) ∧
    (∃ x : Block, CompletesAs .invshiftrows s { s with st := x } ∧
      ∀ r < 4, ∀ c < 4, x.byte (r + 4 * c) = s.st.byte (r + 4 * ((c + 4 - r) % 4)))

/-- R175 and R176: every column is the product of the matrix with the column. -/
def Obligations.MixcolumnsIsTheMatrixProduct : Prop :=
  SelectedByMask .MIXCOLUMNS ∧ SelectedByMask .INVMIXCOLUMNS ∧
  ∀ s : State,
    (∃ x : Block, CompletesAs .mixcolumns s { s with st := x } ∧
      ∀ r < 4, ∀ c < 4, x.byte (r + 4 * c) = matrixProduct mixMatrix s.st r c) ∧
    (∃ x : Block, CompletesAs .invmixcolumns s { s with st := x } ∧
      ∀ r < 4, ∀ c < 4, x.byte (r + 4 * c) = matrixProduct invMixMatrix s.st r c)

/-- R177. -/
def Obligations.RoundTransformsHaveTheirInverses : Prop :=
  ∀ s k : Block,
    addRoundKey (addRoundKey s k) k = s ∧
    invSubBytes (subBytes s) = s ∧ subBytes (invSubBytes s) = s ∧
    invShiftRows (shiftRows s) = s ∧ shiftRows (invShiftRows s) = s ∧
    invMixColumns (mixColumns s) = s ∧ mixColumns (invMixColumns s) = s ∧
    subBytes (shiftRows s) = shiftRows (subBytes s)

/-! ## The block cipher -/

/-- R190: with a schedule installed ENCRYPT replaces STATE by Cipher(STATE, SCHED, NR) and changes nothing else;
without one it fails with ERR_NO_KEY. -/
def Obligations.EncryptAppliesTheCipherToTheState : Prop :=
  SelectedByMask .ENCRYPT ∧
  ∀ s : State,
    (s.status.keyValid = true →
      CompletesAs .encrypt s { s with st := cipherBlock s s.status.nr.toNat s.st }) ∧
    (s.status.keyValid = false → FailsWith .encrypt s .noKey)

/-- R191: with a schedule installed DECRYPT replaces STATE by InvCipher(STATE, SCHED, NR) and changes nothing
else; without one it fails with ERR_NO_KEY. -/
def Obligations.DecryptAppliesTheInverseCipherToTheState : Prop :=
  SelectedByMask .DECRYPT ∧
  ∀ s : State,
    (s.status.keyValid = true →
      CompletesAs .decrypt s { s with st := invCipherBlock s s.status.nr.toNat s.st }) ∧
    (s.status.keyValid = false → FailsWith .decrypt s .noKey)

/-- R192: the two ciphers invert each other under any schedule, so ENCRYPT then DECRYPT, and DECRYPT then
ENCRYPT, restore STATE. -/
def Obligations.DecryptInvertsEncrypt : Prop :=
  (∀ (w : Nat → Block) (nr : Nat) (b : Block),
    invCipher w nr (cipher w nr b) = b ∧ cipher w nr (invCipher w nr b) = b) ∧
  ∀ s : State, s.status.keyValid = true →
    (∃ t, performAll [.encrypt, .decrypt] s = .next t ∧ t.st = s.st) ∧
    (∃ t, performAll [.decrypt, .encrypt] s = .next t ∧ t.st = s.st)

/-- R193: the sequence of primitives leaves STATE as ENCRYPT (DECRYPT) does, and RK as its last round key, while
ENCRYPT and DECRYPT leave RK alone. -/
def Obligations.PrimitiveSequenceEqualsTheCipherCommand : Prop :=
  ∀ s : State, s.status.keyValid = true →
    (∃ t u, performAll (encryptProgram s.status.nr.toNat) s = .next t ∧ perform .encrypt s = .next u ∧
      t.st = u.st ∧ t.rk = s.roundKey s.status.nr.toNat ∧ u.rk = s.rk) ∧
    (∃ t u, performAll (decryptProgram s.status.nr.toNat) s = .next t ∧ perform .decrypt s = .next u ∧
      t.st = u.st ∧ t.rk = s.roundKey 0 ∧ u.rk = s.rk)

/-- R194: the three known answers, from any state with the key, its configuration and the plaintext. -/
def Obligations.KnownAnswersAreReproduced : Prop :=
  ∀ (s : State) (ks : KeySize), KeyReady s ks → (∀ k < 4 * ks.numKeyWords, s.keyByte k = BitVec.ofNat 8 k) →
    (∀ k < 16, s.st.byte k = BitVec.ofNat 8 (0x11 * k)) →
    ∃ t, performAll [.keyexp, .encrypt] s = .next t ∧ t.st =
      match ks with
      | .k128 => ⟨⟨0x69, 0xc4, 0xe0, 0xd8⟩, ⟨0x6a, 0x7b, 0x04, 0x30⟩, ⟨0xd8, 0xcd, 0xb7, 0x80⟩,
          ⟨0x70, 0xb4, 0xc5, 0x5a⟩⟩
      | .k192 => ⟨⟨0xdd, 0xa9, 0x7c, 0xa4⟩, ⟨0x86, 0x4c, 0xdf, 0xe0⟩, ⟨0x6e, 0xaf, 0x70, 0xa0⟩,
          ⟨0xec, 0x0d, 0x71, 0x91⟩⟩
      | .k256 => ⟨⟨0x8e, 0xa2, 0xb7, 0xca⟩, ⟨0x51, 0x67, 0x45, 0xbf⟩, ⟨0xea, 0xfc, 0x49, 0x90⟩,
          ⟨0x4b, 0x49, 0x60, 0x89⟩⟩

/-! ## The modes -/

/-- R201 and R202: ECB_ENC and ECB_DEC install the schedule of KEY and replace each block of BUF[0..LEN) by its
cipher, or inverse cipher, under it; no other byte of BUF changes. -/
def Obligations.EcbTransformsEveryBlockOnItsOwn : Prop :=
  SelectedByMask .ECB_ENC ∧ SelectedByMask .ECB_DEC ∧
  ∀ (s : State) (ks : KeySize), ModeReady s ks →
    (∃ t, CompletesAs .ecbEnc s t ∧ WithinWriteSet .mode s t ∧ Installs ks s t ∧
      ∀ i, 16 * i < s.len.toNat → t.block i = cipherBlock t ks.numRounds (s.block i)) ∧
    (∃ t, CompletesAs .ecbDec s t ∧ WithinWriteSet .mode s t ∧ Installs ks s t ∧
      ∀ i, 16 * i < s.len.toNat → t.block i = invCipherBlock t ks.numRounds (s.block i))

/-- R203: CBC_ENC chains each plaintext block with the ciphertext block before it, the first with IV. -/
def Obligations.CbcEncChainsWithThePreviousCiphertext : Prop :=
  SelectedByMask .CBC_ENC ∧
  ∀ (s : State) (ks : KeySize), ModeReady s ks →
    ∃ t, CompletesAs .cbcEnc s t ∧ WithinWriteSet .mode s t ∧ Installs ks s t ∧
      (0 < s.len.toNat → t.block 0 = cipherBlock t ks.numRounds ((s.block 0).xor s.iv)) ∧
      ∀ i, 16 * (i + 1) < s.len.toNat →
        t.block (i + 1) = cipherBlock t ks.numRounds ((s.block (i + 1)).xor (t.block i))

/-- R204: CBC_DEC adds to each deciphered block the original ciphertext block before it, to the first IV. -/
def Obligations.CbcDecAddsThePreviousOriginalCiphertext : Prop :=
  SelectedByMask .CBC_DEC ∧
  ∀ (s : State) (ks : KeySize), ModeReady s ks →
    ∃ t, CompletesAs .cbcDec s t ∧ WithinWriteSet .mode s t ∧ Installs ks s t ∧
      (0 < s.len.toNat → t.block 0 = (invCipherBlock t ks.numRounds (s.block 0)).xor s.iv) ∧
      ∀ i, 16 * (i + 1) < s.len.toNat →
        t.block (i + 1) = (invCipherBlock t ks.numRounds (s.block (i + 1))).xor (s.block i)

/-- R205: with LEN = 0 and a legal key configuration every mode command succeeds, installs the schedule and
leaves BUF alone; the key checks still apply. -/
def Obligations.ZeroLengthInstallsTheScheduleOnly : Prop :=
  ∀ (s : State) (i : Instr), i ∈ [Instr.ecbEnc, .ecbDec, .cbcEnc, .cbcDec] → s.len = 0 →
    (∀ ks, KeyReady s ks →
      ∃ t, CompletesAs i s t ∧ WithinWriteSet .keyExpansion s t ∧ Installs ks s t) ∧
    (BadKeySize s → FailsWith i s .keysize) ∧
    (¬ BadKeySize s → BadKeyLen s → FailsWith i s .keylen)

/-- R206: CBC_ENC, then CBC_DEC under another IV: the first block is off by the two IVs, every other block is
restored. -/
def Obligations.WrongIvSpoilsTheFirstBlockOnly : Prop :=
  ∀ (s : State) (ks : KeySize) (iv' : Block), ModeReady s ks →
    ∃ t u, perform .cbcEnc s = .next t ∧ perform .cbcDec { t with iv := iv' } = .next u ∧
      ∀ k, k < s.len.toNat → u.bufByte k =
        if k < 16 then s.bufByte k ^^^ s.iv.byte k ^^^ iv'.byte k else s.bufByte k

/-- R207: under ECB_ENC equal plaintext blocks become equal ciphertext blocks. -/
def Obligations.EcbMapsEqualBlocksToEqualBlocks : Prop :=
  ∀ (s : State) (ks : KeySize), ModeReady s ks →
    ∃ t, exec .ecbEnc s = .next t ∧
      ∀ i j, 16 * i < s.len.toNat → 16 * j < s.len.toNat → s.block i = s.block j → t.block i = t.block j

/-- R208: with the same KEY, KEYCFG, LEN and IV each mode's decryption restores what its encryption changed. -/
def Obligations.ModesRoundTrip : Prop :=
  ∀ (s : State) (ks : KeySize), ModeReady s ks →
    (∃ t, performAll [.ecbEnc, .ecbDec] s = .next t ∧ ∀ k, t.bufByte k = s.bufByte k) ∧
    (∃ t, performAll [.cbcEnc, .cbcDec] s = .next t ∧ ∀ k, t.bufByte k = s.bufByte k)

/-- R209, R8: whether the core processes blocks concurrently cannot be told from a command's result; no step changes
it. Concurrent means here that the ciphers of all blocks read BUF as it stood at the start, the model's choice of a concurrent order (log 24). -/
def Obligations.EcbParallelismDoesNotChangeTheResult : Prop :=
  (∀ (i : Instr) (s : State) (parallel : Bool), ∃ t, exec i s = .next t ∧
    exec i { s with ecbParallel := parallel } = .next { t with ecbParallel := parallel }) ∧
  ∀ s t : State, step s = .next t → t.ecbParallel = s.ecbParallel
end

