-- ==== Sys2Proof/Laws/Memory.lean ====
section
/-! SUPPORT. The BUF RAM: a read after a write, the canonical form, and the addresses a write adds. -/

namespace Sys2Proof.Machine

@[simp] theorem Memory.find?_nil (k : Nat) : Memory.find? [] k = none := rfl

/-- What a read of one address gives after a write of one byte. -/
theorem Memory.find?_write (m : Memory) (k j : Nat) (v : Byte) :
    (m.write k v).find? j = if k = j then some v else m.find? j := by
  induction m with
  | nil => simp [Memory.write, Memory.find?]
  | cons c m ih =>
    obtain ⟨a, b⟩ := c
    simp only [Memory.write]
    split_ifs with h1 h2 h3 h3 <;> (simp_all [Memory.find?]; try omega)

/-- What a read gives after bytes were written at consecutive addresses. -/
theorem Memory.find?_writeBytes (bs : List Byte) (m : Memory) (a j : Nat) :
    (m.writeBytes a bs).find? j = if a ≤ j ∧ j < a + bs.length then bs[j - a]? else m.find? j := by
  induction bs generalizing m a with
  | nil => simp [Memory.writeBytes]
  | cons b bs ih =>
    simp only [Memory.writeBytes, ih, Memory.find?_write, List.length_cons]
    split_ifs with h1 h2 h3 h4 <;> try omega
    · obtain ⟨d, rfl⟩ : ∃ d, j = a + 1 + d := ⟨j - (a + 1), by omega⟩
      simp [show a + 1 + d - a = d + 1 by omega]
    · subst h3
      simp
    · rfl

/-- The cells of a memory after a write: the new one, and old ones. -/
theorem Memory.mem_write {m : Memory} {k : Nat} {v : Byte} {c : Host.Cell} (h : c ∈ m.write k v) :
    c = (k, v) ∨ c ∈ m := by
  induction m with
  | nil => simpa [Memory.write] using h
  | cons d m ih =>
    obtain ⟨a, b⟩ := d
    simp only [Memory.write] at h
    split_ifs at h
    · simpa using h
    · rcases List.mem_cons.1 h with h | h
      · exact .inl h
      · exact .inr (List.mem_cons_of_mem _ h)
    · rcases List.mem_cons.1 h with h | h
      · exact .inr (h ▸ List.mem_cons_self)
      · exact (ih h).imp id (List.mem_cons_of_mem _)

/-- A write keeps the canonical form. -/
theorem Memory.write_wf {m : Memory} (h : m.wf) (k : Nat) (v : Byte) : (m.write k v).wf := by
  induction m with
  | nil => simp [Memory.write, Memory.wf]
  | cons d m ih =>
    obtain ⟨a, b⟩ := d
    obtain ⟨ha, hm⟩ := List.pairwise_cons.1 h
    simp only [Memory.write]
    split_ifs with h1 h2
    · refine List.pairwise_cons.2 ⟨fun c hc => ?_, h⟩
      rcases List.mem_cons.1 hc with rfl | hc
      · exact h1
      · exact h1.trans (ha c hc)
    · subst h2
      exact List.pairwise_cons.2 ⟨ha, hm⟩
    · refine List.pairwise_cons.2 ⟨fun c hc => ?_, ih hm⟩
      rcases Memory.mem_write hc with rfl | hc
      · simp only; omega
      · exact ha c hc

/-- Writing bytes keeps the canonical form. -/
theorem Memory.writeBytes_wf {m : Memory} (h : m.wf) (a : Nat) (bs : List Byte) : (m.writeBytes a bs).wf := by
  induction bs generalizing m a with
  | nil => exact h
  | cons b bs ih => exact ih (Memory.write_wf h a b) (a + 1)

/-- The cells of a memory after bytes were written: those written, and old ones. -/
theorem Memory.mem_writeBytes {m : Memory} {a : Nat} {bs : List Byte} {c : Host.Cell}
    (h : c ∈ m.writeBytes a bs) : (a ≤ c.1 ∧ c.1 < a + bs.length) ∨ c ∈ m := by
  induction bs generalizing m a with
  | nil => exact .inr h
  | cons b bs ih =>
    simp only [List.length_cons]
    rcases ih h with h | h
    · exact .inl (by omega)
    · rcases Memory.mem_write h with rfl | h
      · exact .inl (by simp)
      · exact .inr h

/-- In canonical form a read finds a byte exactly where it is listed. -/
theorem Memory.find?_eq_some {m : Memory} (h : m.wf) {k : Nat} {v : Byte} : m.find? k = some v ↔ (k, v) ∈ m := by
  induction m with
  | nil => simp
  | cons d m ih =>
    obtain ⟨a, b⟩ := d
    obtain ⟨ha, hm⟩ := List.pairwise_cons.1 h
    by_cases hk : a = k
    · subst hk
      have : (a, v) ∉ m := fun hc => absurd (ha _ hc) (Nat.lt_irrefl a)
      simp [Memory.find?, this, eq_comm]
    · simp [Memory.find?, hk, ih hm, Ne.symm hk]

/-- Memories in canonical form that read alike are equal data. -/
theorem Memory.ext_find? {m n : Memory} (hm : m.wf) (hn : n.wf) (h : ∀ k, m.find? k = n.find? k) : m = n := by
  have : Std.Asymm (fun x y : Host.Cell => x.1 < y.1) := ⟨fun _ _ => Nat.lt_asymm⟩
  refine List.Pairwise.eq_of_mem_iff hm hn fun c => ?_
  rw [← Memory.find?_eq_some hm, ← Memory.find?_eq_some hn, h]

/-- Writing the same bytes twice is writing them once (R70). -/
theorem Memory.writeBytes_twice {m : Memory} (h : m.wf) (a : Nat) (bs : List Byte) :
    (m.writeBytes a bs).writeBytes a bs = m.writeBytes a bs := by
  have hw := Memory.writeBytes_wf h a bs
  refine Memory.ext_find? (Memory.writeBytes_wf hw a bs) hw fun k => ?_
  simp only [Memory.find?_writeBytes]
  split_ifs <;> rfl

end Sys2Proof.Machine
end

