-- ==== Sys2Proof/Laws/Operands.lean ====
section
/-! SUPPORT. Bytes, words and blocks: their byte views, the byte order of the bus, and BUF by bytes. -/

namespace Sys2Proof

@[simp] theorem Quad.bytes_length (q : Quad) : q.bytes.length = 4 := rfl

@[simp] theorem Block.bytes_length (b : Block) : b.bytes.length = 16 := rfl

/-- A word is what its four bytes are. -/
theorem Quad.ext_byte {p q : Quad} (h : ∀ k < 4, p.byte k = q.byte k) : p = q := by
  obtain ⟨p0, p1, p2, p3⟩ := p
  obtain ⟨q0, q1, q2, q3⟩ := q
  have h0 := h 0 (by omega)
  have h1 := h 1 (by omega)
  have h2 := h 2 (by omega)
  have h3 := h 3 (by omega)
  simp_all [Quad.byte]

/-- A block is what its sixteen bytes are. -/
theorem Block.ext_byte {a b : Block} (h : ∀ i < 16, a.byte i = b.byte i) : a = b := by
  have hq : ∀ j : Fin 4, a.quad j = b.quad j := fun j => by
    refine Quad.ext_byte fun k hk => ?_
    have := h (4 * j.val + k) (by omega)
    simpa [Block.byte, show (4 * j.val + k) / 4 = j.val by omega, show (4 * j.val + k) % 4 = k by omega]
      using this
  obtain ⟨a0, a1, a2, a3⟩ := a
  obtain ⟨b0, b1, b2, b3⟩ := b
  have h0 := hq 0
  have h1 := hq 1
  have h2 := hq 2
  have h3 := hq 3
  simp_all [Block.quad]

/-- The bytes of a block built from bytes. -/
@[simp] theorem Block.byte_ofBytes (f : Nat → Byte) (i : Nat) (h : i < 16) : (Block.ofBytes f).byte i = f i := by
  interval_cases i <;> rfl

/-- Entry i of a block's byte list is its byte i. -/
theorem Block.bytes_getElem? (b : Block) (i : Nat) (h : i < 16) : b.bytes[i]? = some (b.byte i) := by
  interval_cases i <;> rfl

/-- Entry k of a word's byte list is its byte k. -/
theorem Quad.bytes_getElem? (q : Quad) (k : Nat) (h : k < 4) : q.bytes[k]? = some (q.byte k) := by
  interval_cases k <;> rfl

/-- Bits 8k .. 8k+7 of the bus word are byte k (R67). -/
theorem Quad.toWord_byte (q : Quad) (k : Nat) (h : k < 4) : q.toWord.extractLsb' (8 * k) 8 = q.byte k := by
  interval_cases k <;>
    · refine BitVec.eq_of_getLsbD_eq fun i hi => ?_
      simp only [Quad.toWord, Quad.byte, BitVec.getLsbD_extractLsb', BitVec.getLsbD_append]
      interval_cases i <;> simp

/-- Byte k of the bytes of a bus word is its bits 8k .. 8k+7 (R67). -/
theorem Quad.ofWord_byte (w : Word) (k : Nat) (h : k < 4) : (Quad.ofWord w).byte k = w.extractLsb' (8 * k) 8 := by
  interval_cases k <;> rfl

/-- The words of a block after one of them was replaced. -/
theorem Block.quad_setQuad (b : Block) (j k : Fin 4) (q : Quad) :
    (b.setQuad j q).quad k = if j = k then q else b.quad k := by
  revert j k
  simp [Fin.forall_fin_succ, Block.quad, Block.setQuad]

theorem Block.setQuad_setQuad (b : Block) (j : Fin 4) (p q : Quad) :
    (b.setQuad j p).setQuad j q = b.setQuad j q := by
  revert j
  simp [Fin.forall_fin_succ, Block.setQuad]

/-- The bytes of a block after one of its words was replaced. -/
theorem Block.byte_setQuad (b : Block) (j : Fin 4) (q : Quad) (k : Nat) (hk : k < 16) :
    (b.setQuad j q).byte k = if 4 * j.val ≤ k ∧ k < 4 * j.val + 4 then q.byte (k - 4 * j.val) else b.byte k := by
  have hj := j.isLt
  simp only [Block.byte, Block.quad_setQuad]
  by_cases h : 4 * j.val ≤ k ∧ k < 4 * j.val + 4
  · rw [if_pos h, if_pos (by ext; simp [Fin.ofNat]; omega), show k % 4 = k - 4 * j.val by omega]
  · rw [if_neg h, if_neg (fun hh => ?_)]
    have := congrArg Fin.val hh
    simp [Fin.ofNat] at this
    omega

end Sys2Proof

namespace Sys2Proof.Machine

/-- BUF by bytes after a content block was written. -/
theorem State.bufByte_setBlock (s : State) (i : Nat) (b : Block) (k : Nat) :
    (s.setBlock i b).bufByte k =
      if 16 * i ≤ k ∧ k < 16 * i + 16 then b.byte (k - 16 * i) else s.bufByte k := by
  have hl := b.bytes_length
  simp only [State.bufByte, State.setBlock, Memory.find?_writeBytes]
  by_cases h : 16 * i ≤ k ∧ k < 16 * i + 16
  · rw [if_pos (by omega), if_pos h, show bufBase + k - (bufBase + 16 * i) = k - 16 * i by omega,
      Block.bytes_getElem? _ _ (by omega)]
    rfl
  · rw [if_neg (by omega), if_neg h]

/-- BUF by bytes after a bus word was written. -/
theorem State.bufByte_setBufQuad (s : State) (j : Nat) (q : Quad) (k : Nat) :
    (s.setBufQuad j q).bufByte k =
      if 4 * j ≤ k ∧ k < 4 * j + 4 then q.byte (k - 4 * j) else s.bufByte k := by
  have hl := q.bytes_length
  simp only [State.bufByte, State.setBufQuad, Memory.find?_writeBytes]
  by_cases h : 4 * j ≤ k ∧ k < 4 * j + 4
  · rw [if_pos (by omega), if_pos h, show bufBase + k - (bufBase + 4 * j) = k - 4 * j by omega,
      Quad.bytes_getElem? _ _ (by omega)]
    rfl
  · rw [if_neg (by omega), if_neg h]

/-- Content block i, byte by byte. -/
theorem State.block_byte (s : State) (i k : Nat) (h : k < 16) : (s.block i).byte k = s.bufByte (16 * i + k) := by
  simp [State.block, h]

/-- Equal BUF bytes give equal content blocks. -/
theorem State.block_congr {s t : State} {i : Nat} (h : ∀ k < 16, s.bufByte (16 * i + k) = t.bufByte (16 * i + k)) :
    s.block i = t.block i :=
  Block.ext_byte fun k hk => by rw [State.block_byte _ _ _ hk, State.block_byte _ _ _ hk, h k hk]

/-- The content blocks after one of them was written. -/
theorem State.block_setBlock (s : State) (i j : Nat) (b : Block) :
    (s.setBlock i b).block j = if i = j then b else s.block j := by
  split_ifs with h
  · subst h
    refine Block.ext_byte fun k hk => ?_
    rw [State.block_byte _ _ _ hk, State.bufByte_setBlock, if_pos (by omega), Nat.add_sub_cancel_left]
  · refine State.block_congr fun k hk => ?_
    rw [State.bufByte_setBlock, if_neg (by omega)]

/-- Equal schedules give equal round keys, word by word. -/
theorem State.roundKey_congr {s t : State} (h : s.sched = t.sched) : s.roundKey = t.roundKey := by
  funext r
  simp [State.roundKey, State.schedWord, h]

/-- A round key by bytes: SCHED[16r .. 16r+16) (R69). -/
theorem State.roundKey_byte (s : State) (r k : Nat) (h : k < 16) :
    (s.roundKey r).byte k = s.schedByte (16 * r + k) := by
  have h1 : (16 * r + k) / 4 = 4 * r + k / 4 := by omega
  have h2 : (16 * r + k) % 4 = k % 4 := by omega
  rw [State.schedByte, h1, h2]
  interval_cases k <;> rfl

/-- The bytes of KEY after one of its words was replaced. -/
theorem State.keyByte_set (s : State) (j : Fin 8) (q : Quad) (k : Nat) :
    ({ s with key := s.key.set j q } : State).keyByte k =
      if 4 * j.val ≤ k ∧ k < 4 * j.val + 4 then q.byte (k - 4 * j.val) else s.keyByte k := by
  simp only [State.keyByte, Vector.getElem?_set]
  by_cases h : 4 * j.val ≤ k ∧ k < 4 * j.val + 4
  · rw [if_pos h, if_pos (by omega)]
    simp [show k % 4 = k - 4 * j.val by omega]
  · rw [if_neg h, if_neg (by omega)]

end Sys2Proof.Machine
end

