-- ==== Sys2Proof/Laws/State.lean ====
section
/-! SUPPORT. What each named update of the state does to each field. -/

namespace Sys2Proof.Machine

variable (s : State)

/-! ## The end of a command (R47). -/

@[simp] theorem State.complete_capacity : (s.complete).capacity = s.capacity := rfl
@[simp] theorem State.complete_ecbParallel : (s.complete).ecbParallel = s.ecbParallel := rfl
@[simp] theorem State.complete_cmd : (s.complete).cmd = s.cmd := rfl
@[simp] theorem State.complete_phase : (s.complete).phase = .idle := rfl
@[simp] theorem State.complete_latency : (s.complete).latency = s.latency := rfl
@[simp] theorem State.complete_status : (s.complete).status = { s.status with done := true } := rfl
@[simp] theorem State.complete_keycfg : (s.complete).keycfg = s.keycfg := rfl
@[simp] theorem State.complete_len : (s.complete).len = s.len := rfl
@[simp] theorem State.complete_result : (s.complete).result = s.result := rfl
@[simp] theorem State.complete_key : (s.complete).key = s.key := rfl
@[simp] theorem State.complete_iv : (s.complete).iv = s.iv := rfl
@[simp] theorem State.complete_st : (s.complete).st = s.st := rfl
@[simp] theorem State.complete_rk : (s.complete).rk = s.rk := rfl
@[simp] theorem State.complete_sched : (s.complete).sched = s.sched := rfl
@[simp] theorem State.complete_buf : (s.complete).buf = s.buf := rfl
@[simp] theorem State.complete_work : (s.complete).work = Config.workOutsideCommand s.draws := rfl
@[simp] theorem State.complete_awaitingReset : (s.complete).awaitingReset = s.awaitingReset := rfl
@[simp] theorem State.complete_host : (s.complete).host = s.host := rfl
@[simp] theorem State.complete_rsp : (s.complete).rsp = s.rsp := rfl
@[simp] theorem State.complete_ramDraw : (s.complete).ramDraw = s.ramDraw := rfl
@[simp] theorem State.complete_draws : (s.complete).draws = s.draws + 1 := rfl

/-! ## An error completion (R223). -/

@[simp] theorem State.raiseError_capacity (e : CmdError) : (s.raiseError e).capacity = s.capacity := rfl
@[simp] theorem State.raiseError_ecbParallel (e : CmdError) : (s.raiseError e).ecbParallel = s.ecbParallel := rfl
@[simp] theorem State.raiseError_cmd (e : CmdError) : (s.raiseError e).cmd = s.cmd := rfl
@[simp] theorem State.raiseError_phase (e : CmdError) : (s.raiseError e).phase = .idle := rfl
@[simp] theorem State.raiseError_latency (e : CmdError) : (s.raiseError e).latency = s.latency := rfl
@[simp] theorem State.raiseError_status (e : CmdError) : (s.raiseError e).status = { s.status with error := some e, done := true } := rfl
@[simp] theorem State.raiseError_keycfg (e : CmdError) : (s.raiseError e).keycfg = s.keycfg := rfl
@[simp] theorem State.raiseError_len (e : CmdError) : (s.raiseError e).len = s.len := rfl
@[simp] theorem State.raiseError_result (e : CmdError) : (s.raiseError e).result = s.result := rfl
@[simp] theorem State.raiseError_key (e : CmdError) : (s.raiseError e).key = s.key := rfl
@[simp] theorem State.raiseError_iv (e : CmdError) : (s.raiseError e).iv = s.iv := rfl
@[simp] theorem State.raiseError_st (e : CmdError) : (s.raiseError e).st = s.st := rfl
@[simp] theorem State.raiseError_rk (e : CmdError) : (s.raiseError e).rk = s.rk := rfl
@[simp] theorem State.raiseError_sched (e : CmdError) : (s.raiseError e).sched = s.sched := rfl
@[simp] theorem State.raiseError_buf (e : CmdError) : (s.raiseError e).buf = s.buf := rfl
@[simp] theorem State.raiseError_work (e : CmdError) : (s.raiseError e).work = Config.workOutsideCommand s.draws := rfl
@[simp] theorem State.raiseError_awaitingReset (e : CmdError) : (s.raiseError e).awaitingReset = s.awaitingReset := rfl
@[simp] theorem State.raiseError_host (e : CmdError) : (s.raiseError e).host = s.host := rfl
@[simp] theorem State.raiseError_rsp (e : CmdError) : (s.raiseError e).rsp = s.rsp := rfl
@[simp] theorem State.raiseError_ramDraw (e : CmdError) : (s.raiseError e).ramDraw = s.ramDraw := rfl
@[simp] theorem State.raiseError_draws (e : CmdError) : (s.raiseError e).draws = s.draws + 1 := rfl

/-! ## RESULT <- v. -/

@[simp] theorem State.setResult_capacity (v : Byte) : (s.setResult v).capacity = s.capacity := rfl
@[simp] theorem State.setResult_ecbParallel (v : Byte) : (s.setResult v).ecbParallel = s.ecbParallel := rfl
@[simp] theorem State.setResult_cmd (v : Byte) : (s.setResult v).cmd = s.cmd := rfl
@[simp] theorem State.setResult_phase (v : Byte) : (s.setResult v).phase = s.phase := rfl
@[simp] theorem State.setResult_latency (v : Byte) : (s.setResult v).latency = s.latency := rfl
@[simp] theorem State.setResult_status (v : Byte) : (s.setResult v).status = s.status := rfl
@[simp] theorem State.setResult_keycfg (v : Byte) : (s.setResult v).keycfg = s.keycfg := rfl
@[simp] theorem State.setResult_len (v : Byte) : (s.setResult v).len = s.len := rfl
@[simp] theorem State.setResult_result (v : Byte) : (s.setResult v).result = v := rfl
@[simp] theorem State.setResult_key (v : Byte) : (s.setResult v).key = s.key := rfl
@[simp] theorem State.setResult_iv (v : Byte) : (s.setResult v).iv = s.iv := rfl
@[simp] theorem State.setResult_st (v : Byte) : (s.setResult v).st = s.st := rfl
@[simp] theorem State.setResult_rk (v : Byte) : (s.setResult v).rk = s.rk := rfl
@[simp] theorem State.setResult_sched (v : Byte) : (s.setResult v).sched = s.sched := rfl
@[simp] theorem State.setResult_buf (v : Byte) : (s.setResult v).buf = s.buf := rfl
@[simp] theorem State.setResult_work (v : Byte) : (s.setResult v).work = s.work := rfl
@[simp] theorem State.setResult_awaitingReset (v : Byte) : (s.setResult v).awaitingReset = s.awaitingReset := rfl
@[simp] theorem State.setResult_host (v : Byte) : (s.setResult v).host = s.host := rfl
@[simp] theorem State.setResult_rsp (v : Byte) : (s.setResult v).rsp = s.rsp := rfl
@[simp] theorem State.setResult_ramDraw (v : Byte) : (s.setResult v).ramDraw = s.ramDraw := rfl
@[simp] theorem State.setResult_draws (v : Byte) : (s.setResult v).draws = s.draws := rfl

/-! ## Acceptance (R46). -/

@[simp] theorem State.accept_capacity (w : Word) : (s.accept w).capacity = s.capacity := rfl
@[simp] theorem State.accept_ecbParallel (w : Word) : (s.accept w).ecbParallel = s.ecbParallel := rfl
@[simp] theorem State.accept_cmd (w : Word) : (s.accept w).cmd = w := rfl
@[simp] theorem State.accept_phase (w : Word) : (s.accept w).phase = .busy := rfl
@[simp] theorem State.accept_latency (w : Word) : (s.accept w).latency = Config.latencyBeyondOne s.draws w s.len s.dataBytes := rfl
@[simp] theorem State.accept_status (w : Word) : (s.accept w).status = { s.status with done := false, error := none, overrun := false } := rfl
@[simp] theorem State.accept_keycfg (w : Word) : (s.accept w).keycfg = s.keycfg := rfl
@[simp] theorem State.accept_len (w : Word) : (s.accept w).len = s.len := rfl
@[simp] theorem State.accept_result (w : Word) : (s.accept w).result = s.result := rfl
@[simp] theorem State.accept_key (w : Word) : (s.accept w).key = s.key := rfl
@[simp] theorem State.accept_iv (w : Word) : (s.accept w).iv = s.iv := rfl
@[simp] theorem State.accept_st (w : Word) : (s.accept w).st = s.st := rfl
@[simp] theorem State.accept_rk (w : Word) : (s.accept w).rk = s.rk := rfl
@[simp] theorem State.accept_sched (w : Word) : (s.accept w).sched = s.sched := rfl
@[simp] theorem State.accept_buf (w : Word) : (s.accept w).buf = s.buf := rfl
@[simp] theorem State.accept_work (w : Word) : (s.accept w).work = s.work := rfl
@[simp] theorem State.accept_awaitingReset (w : Word) : (s.accept w).awaitingReset = s.awaitingReset := rfl
@[simp] theorem State.accept_host (w : Word) : (s.accept w).host = s.host := rfl
@[simp] theorem State.accept_rsp (w : Word) : (s.accept w).rsp = s.rsp := rfl
@[simp] theorem State.accept_ramDraw (w : Word) : (s.accept w).ramDraw = s.ramDraw := rfl
@[simp] theorem State.accept_draws (w : Word) : (s.accept w).draws = s.draws + 1 := rfl

/-! ## Acceptance with the latency over. -/

@[simp] theorem State.issue_capacity (w : Word) : (s.issue w).capacity = s.capacity := rfl
@[simp] theorem State.issue_ecbParallel (w : Word) : (s.issue w).ecbParallel = s.ecbParallel := rfl
@[simp] theorem State.issue_cmd (w : Word) : (s.issue w).cmd = w := rfl
@[simp] theorem State.issue_phase (w : Word) : (s.issue w).phase = .busy := rfl
@[simp] theorem State.issue_latency (w : Word) : (s.issue w).latency = 0 := rfl
@[simp] theorem State.issue_status (w : Word) : (s.issue w).status = { s.status with done := false, error := none, overrun := false } := rfl
@[simp] theorem State.issue_keycfg (w : Word) : (s.issue w).keycfg = s.keycfg := rfl
@[simp] theorem State.issue_len (w : Word) : (s.issue w).len = s.len := rfl
@[simp] theorem State.issue_result (w : Word) : (s.issue w).result = s.result := rfl
@[simp] theorem State.issue_key (w : Word) : (s.issue w).key = s.key := rfl
@[simp] theorem State.issue_iv (w : Word) : (s.issue w).iv = s.iv := rfl
@[simp] theorem State.issue_st (w : Word) : (s.issue w).st = s.st := rfl
@[simp] theorem State.issue_rk (w : Word) : (s.issue w).rk = s.rk := rfl
@[simp] theorem State.issue_sched (w : Word) : (s.issue w).sched = s.sched := rfl
@[simp] theorem State.issue_buf (w : Word) : (s.issue w).buf = s.buf := rfl
@[simp] theorem State.issue_work (w : Word) : (s.issue w).work = s.work := rfl
@[simp] theorem State.issue_awaitingReset (w : Word) : (s.issue w).awaitingReset = s.awaitingReset := rfl
@[simp] theorem State.issue_host (w : Word) : (s.issue w).host = s.host := rfl
@[simp] theorem State.issue_rsp (w : Word) : (s.issue w).rsp = s.rsp := rfl
@[simp] theorem State.issue_ramDraw (w : Word) : (s.issue w).ramDraw = s.ramDraw := rfl
@[simp] theorem State.issue_draws (w : Word) : (s.issue w).draws = s.draws + 1 := rfl

/-! ## InstallSchedule (R156). -/

@[simp] theorem State.installSchedule_capacity (ks : KeySize) : (s.installSchedule ks).capacity = s.capacity := rfl
@[simp] theorem State.installSchedule_ecbParallel (ks : KeySize) : (s.installSchedule ks).ecbParallel = s.ecbParallel := rfl
@[simp] theorem State.installSchedule_cmd (ks : KeySize) : (s.installSchedule ks).cmd = s.cmd := rfl
@[simp] theorem State.installSchedule_phase (ks : KeySize) : (s.installSchedule ks).phase = s.phase := rfl
@[simp] theorem State.installSchedule_latency (ks : KeySize) : (s.installSchedule ks).latency = s.latency := rfl
@[simp] theorem State.installSchedule_status (ks : KeySize) : (s.installSchedule ks).status = { s.status with nr := BitVec.ofNat 4 ks.numRounds, keyValid := true } := rfl
@[simp] theorem State.installSchedule_keycfg (ks : KeySize) : (s.installSchedule ks).keycfg = s.keycfg := rfl
@[simp] theorem State.installSchedule_len (ks : KeySize) : (s.installSchedule ks).len = s.len := rfl
@[simp] theorem State.installSchedule_result (ks : KeySize) : (s.installSchedule ks).result = s.result := rfl
@[simp] theorem State.installSchedule_key (ks : KeySize) : (s.installSchedule ks).key = s.key := rfl
@[simp] theorem State.installSchedule_iv (ks : KeySize) : (s.installSchedule ks).iv = s.iv := rfl
@[simp] theorem State.installSchedule_st (ks : KeySize) : (s.installSchedule ks).st = s.st := rfl
@[simp] theorem State.installSchedule_rk (ks : KeySize) : (s.installSchedule ks).rk = s.rk := rfl
@[simp] theorem State.installSchedule_sched (ks : KeySize) : (s.installSchedule ks).sched = scheduleRam (keyExpansion (s.keyWords ks) ks) := rfl
@[simp] theorem State.installSchedule_buf (ks : KeySize) : (s.installSchedule ks).buf = s.buf := rfl
@[simp] theorem State.installSchedule_work (ks : KeySize) : (s.installSchedule ks).work = s.work := rfl
@[simp] theorem State.installSchedule_awaitingReset (ks : KeySize) : (s.installSchedule ks).awaitingReset = s.awaitingReset := rfl
@[simp] theorem State.installSchedule_host (ks : KeySize) : (s.installSchedule ks).host = s.host := rfl
@[simp] theorem State.installSchedule_rsp (ks : KeySize) : (s.installSchedule ks).rsp = s.rsp := rfl
@[simp] theorem State.installSchedule_ramDraw (ks : KeySize) : (s.installSchedule ks).ramDraw = s.ramDraw := rfl
@[simp] theorem State.installSchedule_draws (ks : KeySize) : (s.installSchedule ks).draws = s.draws := rfl

/-! ## A content block is written. -/

@[simp] theorem State.setBlock_capacity (i : Nat) (b : Block) : (s.setBlock i b).capacity = s.capacity := by unfold State.setBlock; rfl
@[simp] theorem State.setBlock_ecbParallel (i : Nat) (b : Block) : (s.setBlock i b).ecbParallel = s.ecbParallel := by unfold State.setBlock; rfl
@[simp] theorem State.setBlock_cmd (i : Nat) (b : Block) : (s.setBlock i b).cmd = s.cmd := by unfold State.setBlock; rfl
@[simp] theorem State.setBlock_phase (i : Nat) (b : Block) : (s.setBlock i b).phase = s.phase := by unfold State.setBlock; rfl
@[simp] theorem State.setBlock_latency (i : Nat) (b : Block) : (s.setBlock i b).latency = s.latency := by unfold State.setBlock; rfl
@[simp] theorem State.setBlock_status (i : Nat) (b : Block) : (s.setBlock i b).status = s.status := by unfold State.setBlock; rfl
@[simp] theorem State.setBlock_keycfg (i : Nat) (b : Block) : (s.setBlock i b).keycfg = s.keycfg := by unfold State.setBlock; rfl
@[simp] theorem State.setBlock_len (i : Nat) (b : Block) : (s.setBlock i b).len = s.len := by unfold State.setBlock; rfl
@[simp] theorem State.setBlock_result (i : Nat) (b : Block) : (s.setBlock i b).result = s.result := by unfold State.setBlock; rfl
@[simp] theorem State.setBlock_key (i : Nat) (b : Block) : (s.setBlock i b).key = s.key := by unfold State.setBlock; rfl
@[simp] theorem State.setBlock_iv (i : Nat) (b : Block) : (s.setBlock i b).iv = s.iv := by unfold State.setBlock; rfl
@[simp] theorem State.setBlock_st (i : Nat) (b : Block) : (s.setBlock i b).st = s.st := by unfold State.setBlock; rfl
@[simp] theorem State.setBlock_rk (i : Nat) (b : Block) : (s.setBlock i b).rk = s.rk := by unfold State.setBlock; rfl
@[simp] theorem State.setBlock_sched (i : Nat) (b : Block) : (s.setBlock i b).sched = s.sched := by unfold State.setBlock; rfl
@[simp] theorem State.setBlock_buf (i : Nat) (b : Block) : (s.setBlock i b).buf = s.buf.writeBytes (bufBase + 16 * i) b.bytes := by unfold State.setBlock; rfl
@[simp] theorem State.setBlock_work (i : Nat) (b : Block) : (s.setBlock i b).work = s.work := by unfold State.setBlock; rfl
@[simp] theorem State.setBlock_awaitingReset (i : Nat) (b : Block) : (s.setBlock i b).awaitingReset = s.awaitingReset := by unfold State.setBlock; rfl
@[simp] theorem State.setBlock_host (i : Nat) (b : Block) : (s.setBlock i b).host = s.host := by unfold State.setBlock; rfl
@[simp] theorem State.setBlock_rsp (i : Nat) (b : Block) : (s.setBlock i b).rsp = s.rsp := by unfold State.setBlock; rfl
@[simp] theorem State.setBlock_ramDraw (i : Nat) (b : Block) : (s.setBlock i b).ramDraw = s.ramDraw := by unfold State.setBlock; rfl
@[simp] theorem State.setBlock_draws (i : Nat) (b : Block) : (s.setBlock i b).draws = s.draws := by unfold State.setBlock; rfl

/-! ## A bus word is written to BUF. -/

@[simp] theorem State.setBufQuad_capacity (j : Nat) (q : Quad) : (s.setBufQuad j q).capacity = s.capacity := rfl
@[simp] theorem State.setBufQuad_ecbParallel (j : Nat) (q : Quad) : (s.setBufQuad j q).ecbParallel = s.ecbParallel := rfl
@[simp] theorem State.setBufQuad_cmd (j : Nat) (q : Quad) : (s.setBufQuad j q).cmd = s.cmd := rfl
@[simp] theorem State.setBufQuad_phase (j : Nat) (q : Quad) : (s.setBufQuad j q).phase = s.phase := rfl
@[simp] theorem State.setBufQuad_latency (j : Nat) (q : Quad) : (s.setBufQuad j q).latency = s.latency := rfl
@[simp] theorem State.setBufQuad_status (j : Nat) (q : Quad) : (s.setBufQuad j q).status = s.status := rfl
@[simp] theorem State.setBufQuad_keycfg (j : Nat) (q : Quad) : (s.setBufQuad j q).keycfg = s.keycfg := rfl
@[simp] theorem State.setBufQuad_len (j : Nat) (q : Quad) : (s.setBufQuad j q).len = s.len := rfl
@[simp] theorem State.setBufQuad_result (j : Nat) (q : Quad) : (s.setBufQuad j q).result = s.result := rfl
@[simp] theorem State.setBufQuad_key (j : Nat) (q : Quad) : (s.setBufQuad j q).key = s.key := rfl
@[simp] theorem State.setBufQuad_iv (j : Nat) (q : Quad) : (s.setBufQuad j q).iv = s.iv := rfl
@[simp] theorem State.setBufQuad_st (j : Nat) (q : Quad) : (s.setBufQuad j q).st = s.st := rfl
@[simp] theorem State.setBufQuad_rk (j : Nat) (q : Quad) : (s.setBufQuad j q).rk = s.rk := rfl
@[simp] theorem State.setBufQuad_sched (j : Nat) (q : Quad) : (s.setBufQuad j q).sched = s.sched := rfl
@[simp] theorem State.setBufQuad_buf (j : Nat) (q : Quad) : (s.setBufQuad j q).buf = s.buf.writeBytes (bufBase + 4 * j) q.bytes := rfl
@[simp] theorem State.setBufQuad_work (j : Nat) (q : Quad) : (s.setBufQuad j q).work = s.work := rfl
@[simp] theorem State.setBufQuad_awaitingReset (j : Nat) (q : Quad) : (s.setBufQuad j q).awaitingReset = s.awaitingReset := rfl
@[simp] theorem State.setBufQuad_host (j : Nat) (q : Quad) : (s.setBufQuad j q).host = s.host := rfl
@[simp] theorem State.setBufQuad_rsp (j : Nat) (q : Quad) : (s.setBufQuad j q).rsp = s.rsp := rfl
@[simp] theorem State.setBufQuad_ramDraw (j : Nat) (q : Quad) : (s.setBufQuad j q).ramDraw = s.ramDraw := rfl
@[simp] theorem State.setBufQuad_draws (j : Nat) (q : Quad) : (s.setBufQuad j q).draws = s.draws := rfl

/-! ## The first block of a mode command. -/

@[simp] theorem State.startBlocks_capacity : (s.startBlocks).capacity = s.capacity := rfl
@[simp] theorem State.startBlocks_ecbParallel : (s.startBlocks).ecbParallel = s.ecbParallel := rfl
@[simp] theorem State.startBlocks_cmd : (s.startBlocks).cmd = s.cmd := rfl
@[simp] theorem State.startBlocks_phase : (s.startBlocks).phase = s.phase := rfl
@[simp] theorem State.startBlocks_latency : (s.startBlocks).latency = s.latency := rfl
@[simp] theorem State.startBlocks_status : (s.startBlocks).status = s.status := rfl
@[simp] theorem State.startBlocks_keycfg : (s.startBlocks).keycfg = s.keycfg := rfl
@[simp] theorem State.startBlocks_len : (s.startBlocks).len = s.len := rfl
@[simp] theorem State.startBlocks_result : (s.startBlocks).result = s.result := rfl
@[simp] theorem State.startBlocks_key : (s.startBlocks).key = s.key := rfl
@[simp] theorem State.startBlocks_iv : (s.startBlocks).iv = s.iv := rfl
@[simp] theorem State.startBlocks_st : (s.startBlocks).st = s.st := rfl
@[simp] theorem State.startBlocks_rk : (s.startBlocks).rk = s.rk := rfl
@[simp] theorem State.startBlocks_sched : (s.startBlocks).sched = s.sched := rfl
@[simp] theorem State.startBlocks_buf : (s.startBlocks).buf = s.buf := rfl
@[simp] theorem State.startBlocks_work : (s.startBlocks).work = { s.work with blockIndex := 0, prev := s.iv } := rfl
@[simp] theorem State.startBlocks_awaitingReset : (s.startBlocks).awaitingReset = s.awaitingReset := rfl
@[simp] theorem State.startBlocks_host : (s.startBlocks).host = s.host := rfl
@[simp] theorem State.startBlocks_rsp : (s.startBlocks).rsp = s.rsp := rfl
@[simp] theorem State.startBlocks_ramDraw : (s.startBlocks).ramDraw = s.ramDraw := rfl
@[simp] theorem State.startBlocks_draws : (s.startBlocks).draws = s.draws := rfl

/-! ## The next block of a mode command. -/

@[simp] theorem State.nextBlock_capacity : (s.nextBlock).capacity = s.capacity := rfl
@[simp] theorem State.nextBlock_ecbParallel : (s.nextBlock).ecbParallel = s.ecbParallel := rfl
@[simp] theorem State.nextBlock_cmd : (s.nextBlock).cmd = s.cmd := rfl
@[simp] theorem State.nextBlock_phase : (s.nextBlock).phase = s.phase := rfl
@[simp] theorem State.nextBlock_latency : (s.nextBlock).latency = s.latency := rfl
@[simp] theorem State.nextBlock_status : (s.nextBlock).status = s.status := rfl
@[simp] theorem State.nextBlock_keycfg : (s.nextBlock).keycfg = s.keycfg := rfl
@[simp] theorem State.nextBlock_len : (s.nextBlock).len = s.len := rfl
@[simp] theorem State.nextBlock_result : (s.nextBlock).result = s.result := rfl
@[simp] theorem State.nextBlock_key : (s.nextBlock).key = s.key := rfl
@[simp] theorem State.nextBlock_iv : (s.nextBlock).iv = s.iv := rfl
@[simp] theorem State.nextBlock_st : (s.nextBlock).st = s.st := rfl
@[simp] theorem State.nextBlock_rk : (s.nextBlock).rk = s.rk := rfl
@[simp] theorem State.nextBlock_sched : (s.nextBlock).sched = s.sched := rfl
@[simp] theorem State.nextBlock_buf : (s.nextBlock).buf = s.buf := rfl
@[simp] theorem State.nextBlock_work : (s.nextBlock).work = { s.work with blockIndex := s.work.blockIndex + 1 } := rfl
@[simp] theorem State.nextBlock_awaitingReset : (s.nextBlock).awaitingReset = s.awaitingReset := rfl
@[simp] theorem State.nextBlock_host : (s.nextBlock).host = s.host := rfl
@[simp] theorem State.nextBlock_rsp : (s.nextBlock).rsp = s.rsp := rfl
@[simp] theorem State.nextBlock_ramDraw : (s.nextBlock).ramDraw = s.ramDraw := rfl
@[simp] theorem State.nextBlock_draws : (s.nextBlock).draws = s.draws := rfl

end Sys2Proof.Machine
end

