-- ==== Sys2Proof/Laws/Ops.lean ====
section
/-! SUPPORT. What the shared operations can do: how a command ends, the checks, and loops. -/

namespace Sys2Proof.Machine

@[simp] theorem State.conclude_ok (s t : State) : s.conclude (.ok t) = .next t.complete := rfl

@[simp] theorem State.conclude_error (s : State) (e : CmdError) :
    s.conclude (.error e) = .next (s.raiseError e) := rfl

/-- A command that concludes answers a next state: its effects completed, or the error it raised. -/
theorem State.conclude_cases {s u : State} {r : Except CmdError State} (h : s.conclude r = .next u) :
    (∃ t, r = .ok t ∧ u = t.complete) ∨ (∃ e, r = .error e ∧ u = s.raiseError e) := by
  cases r with
  | ok t => exact .inl ⟨t, rfl, by simpa using h.symm⟩
  | error e => exact .inr ⟨e, rfl, by simpa using h.symm⟩

/-- The legal KEYSIZE fields (R150). -/
theorem KeySize.ofField_eq_some {v : BitVec 9} {ks : KeySize} : KeySize.ofField v = some ks ↔ v.toNat = ks.bits := by
  have key : ∀ n : Nat, n < 512 → (v = BitVec.ofNat 9 n ↔ v.toNat = n) := fun n hn => by
    rw [← BitVec.toNat_inj, BitVec.toNat_ofNat, Nat.mod_eq_of_lt (by omega)]
  have h1 := key 128 (by omega)
  have h2 := key 192 (by omega)
  have h3 := key 256 (by omega)
  unfold KeySize.ofField
  cases ks <;> split_ifs <;> simp_all [KeySize.bits]

/-- CheckKeySize passes with the declared size (R156). -/
theorem State.checkKeySize_ok {s : State} {ks : KeySize} (h : s.keycfg.keysize.toNat = ks.bits) :
    s.checkKeySize = .ok ks := by
  simp [State.checkKeySize, KeySize.ofField_eq_some.2 h]

/-- CheckKeySize fails when KEYSIZE is no legal size (R156). -/
theorem State.checkKeySize_error {s : State} (h : ∀ ks : KeySize, s.keycfg.keysize.toNat ≠ ks.bits) :
    s.checkKeySize = .error .keysize := by
  unfold State.checkKeySize
  cases hk : KeySize.ofField s.keycfg.keysize with
  | none => rfl
  | some ks => exact absurd (KeySize.ofField_eq_some.1 hk) (h ks)

/-- The condition of CheckKeyLen (R156). -/
theorem State.keyLenOk_iff {s : State} {ks : KeySize} :
    s.keyLenOk ks = true ↔ s.keycfg.keylen.toNat * 8 = ks.bits := by
  simp [State.keyLenOk]

/-- What every step of a loop keeps, the loop keeps. -/
theorem times_induct {P : State → Prop} {f : State → State} (hf : ∀ s, P s → P (f s)) :
    ∀ (n : Nat) (s : State), P s → P (times n f s)
  | 0, _, h => h
  | n + 1, s, h => times_induct hf n (f s) (hf s h)

/-- The last step of a loop. -/
theorem times_succ (n : Nat) (f : State → State) (s : State) : times (n + 1) f s = f (times n f s) := by
  induction n generalizing s with
  | zero => rfl
  | succ n ih => exact ih (f s)

/-- ModeSetup with all checks passed installs the schedule (R200). -/
theorem State.modeSetup_ok {s : State} {ks : KeySize} (h : s.keycfg.keysize.toNat = ks.bits)
    (hl : s.keycfg.keylen.toNat * 8 = ks.bits) (hm : s.len.toNat % 16 = 0) (hr : s.len.toNat ≤ s.bufBytes) :
    s.modeSetup = .ok (s.installSchedule ks) := by
  simp [State.modeSetup, State.checkKeySize_ok h, State.keyLenOk_iff.2 hl, hm, hr]

/-- A mode command's loop writes BUF and the work registers only. -/
structure State.SameButBlocks (s t : State) : Prop where
  rest : t = { s with buf := t.buf, work := t.work }

theorem State.SameButBlocks.refl (s : State) : s.SameButBlocks s := ⟨rfl⟩

theorem State.SameButBlocks.trans {s t u : State} (h : s.SameButBlocks t) (k : t.SameButBlocks u) :
    s.SameButBlocks u := ⟨by rw [k.rest, h.rest]⟩

theorem State.setBlock_frame (s : State) (i : Nat) (b : Block) : s.SameButBlocks (s.setBlock i b) := ⟨by unfold State.setBlock; rfl⟩
theorem State.nextBlock_frame (s : State) : s.SameButBlocks s.nextBlock := ⟨rfl⟩
theorem State.setPrev_frame (s : State) (b : Block) : s.SameButBlocks (s.setPrev b) := ⟨rfl⟩
theorem State.setNextPrev_frame (s : State) (b : Block) : s.SameButBlocks (s.setNextPrev b) := ⟨rfl⟩

theorem ecbEncBlock_frame (a s : State) : s.SameButBlocks (ecbEncBlock a s) :=
  (s.setBlock_frame _ _).trans (State.nextBlock_frame _)

theorem ecbDecBlock_frame (a s : State) : s.SameButBlocks (ecbDecBlock a s) :=
  (s.setBlock_frame _ _).trans (State.nextBlock_frame _)

theorem cbcEncBlock_frame (a s : State) : s.SameButBlocks (cbcEncBlock a s) :=
  ((s.setBlock_frame _ _).trans (State.setPrev_frame _ _)).trans (State.nextBlock_frame _)

theorem cbcDecBlock_frame (a s : State) : s.SameButBlocks (cbcDecBlock a s) :=
  (((s.setNextPrev_frame _).trans (State.setBlock_frame s.saveCiphertext _ _)).trans
    (State.setPrev_frame (s.saveCiphertext.storePlaintext _) _)).trans (State.nextBlock_frame _)

/-- So does any number of its steps. -/
theorem times_frame {f : State → State} (hf : ∀ s : State, s.SameButBlocks (f s)) (n : Nat) (s : State) :
    s.SameButBlocks (times n f s) :=
  times_induct (P := fun t => s.SameButBlocks t) (fun t h => h.trans (hf t)) n s (.refl s)

end Sys2Proof.Machine
end

