-- ==== Sys2Proof/Laws/BlockCipher.lean ====
section
/-! SUPPORT. What the loops of ENCRYPT and DECRYPT do to STATE and to the round index. -/

namespace Sys2Proof.Machine

@[simp] theorem State.setRound_setRound (s : State) (q r : Nat) : (s.setRound q).setRound r = s.setRound r := rfl
@[simp] theorem State.setRound_roundIndex (s : State) (r : Nat) : (s.setRound r).work.roundIndex = r := rfl
@[simp] theorem State.setRound_st (s : State) (r : Nat) : (s.setRound r).st = s.st := rfl
@[simp] theorem State.setRound_roundKey (s : State) (r : Nat) : (s.setRound r).roundKey = s.roundKey := rfl

/-- A state whose STATE and round index are replaced: all that the loops write. -/
def State.afterRounds (s : State) (r : Nat) (b : Block) : State :=
  { s with st := b, work := { s.work with roundIndex := r } }

@[simp] theorem State.afterRounds_roundIndex (s : State) (r : Nat) (b : Block) :
    (s.afterRounds r b).work.roundIndex = r := rfl
@[simp] theorem State.afterRounds_st (s : State) (r : Nat) (b : Block) : (s.afterRounds r b).st = b := rfl
@[simp] theorem State.afterRounds_roundKey (s : State) (r : Nat) (b : Block) :
    (s.afterRounds r b).roundKey = s.roundKey := rfl
@[simp] theorem State.afterRounds_afterRounds (s : State) (q r : Nat) (b c : Block) :
    (s.afterRounds q b).afterRounds r c = s.afterRounds r c := rfl

/-- One round: the round index as set, STATE through the round under that index's key. -/
theorem State.applyRound_setRound (s : State) (r : Nat) (round : Block → Block → Block) :
    (s.setRound r).applyRound round = s.afterRounds r (round (s.roundKey r) s.st) := rfl

theorem encryptRound_eq (s : State) :
    encryptRound s =
      s.afterRounds (s.work.roundIndex + 1) (encRound (s.roundKey (s.work.roundIndex + 1)) s.st) := rfl

theorem decryptRound_eq (s : State) :
    decryptRound s =
      s.afterRounds (s.work.roundIndex - 1) (decRound (s.roundKey (s.work.roundIndex - 1)) s.st) := rfl

/-- After n rounds of ENCRYPT the round index is n (R190). -/
theorem times_encryptRound (s : State) (n : Nat) (b : Block) :
    times n encryptRound (s.afterRounds 0 b) = s.afterRounds n (encRounds s.roundKey n b) := by
  induction n with
  | zero => rfl
  | succ n ih =>
    rw [times_succ, ih, encryptRound_eq]
    simp [encRounds]

/-- From round index r + n, n rounds of DECRYPT reach round index r; with r = 1 they are rounds n down to 1
(R191). -/
theorem times_decryptRound (s : State) (n : Nat) (b : Block) :
    times n decryptRound (s.afterRounds (n + 1) b) = s.afterRounds 1 (decRounds s.roundKey n b) := by
  induction n generalizing b with
  | zero => rfl
  | succ n ih => exact ih (decRound (s.roundKey (n + 1)) b)

/-- ENCRYPT's loop leaves the cipher of STATE, and the round index at Nr (R190). -/
theorem State.runEncrypt_eq (s : State) :
    s.runEncrypt = s.afterRounds s.status.nr.toNat (s.encryptBlock s.st) := by
  rw [State.runEncrypt, State.applyRound_setRound, State.applyRound_setRound, times_encryptRound]
  simp [State.encryptBlock, cipher, whiten]

/-- DECRYPT's loop leaves the inverse cipher of STATE, and the round index at 0 (R191). -/
theorem State.runDecrypt_eq (s : State) : s.runDecrypt = s.afterRounds 0 (s.decryptBlock s.st) := by
  rw [State.runDecrypt, State.applyRound_setRound, State.applyRound_setRound]
  cases hn : s.status.nr.toNat with
  | zero => simp [State.decryptBlock, invCipher, whiten, hn, times, decRounds]
  | succ n =>
    rw [Nat.add_sub_cancel, times_decryptRound]
    simp [State.decryptBlock, invCipher, whiten, hn]

/-- The end of a command leaves no trace of the round index. -/
@[simp] theorem State.complete_afterRounds (s : State) (r : Nat) (b : Block) :
    (s.afterRounds r b).complete = ({ s with st := b } : State).complete := rfl

/-- ENCRYPT as a function of STATE (R190). -/
theorem execEncrypt_eq (s : State) :
    execEncrypt s =
      s.conclude (if s.status.keyValid = false then .error .noKey else .ok { s with st := s.encryptBlock s.st }) := by
  unfold execEncrypt
  split
  · rfl
  · rw [State.runEncrypt_eq, State.conclude_ok, State.conclude_ok, State.complete_afterRounds]

/-- DECRYPT as a function of STATE (R191). -/
theorem execDecrypt_eq (s : State) :
    execDecrypt s =
      s.conclude (if s.status.keyValid = false then .error .noKey else .ok { s with st := s.decryptBlock s.st }) := by
  unfold execDecrypt
  split
  · rfl
  · rw [State.runDecrypt_eq, State.conclude_ok, State.conclude_ok, State.complete_afterRounds]

end Sys2Proof.Machine
end

