-- ==== Sys2Proof/Laws/Bus.lean ====
section
/-! SUPPORT. The address map, and what one host transaction and one clock edge can do. -/

namespace Sys2Proof.Machine

/-- Every mapped word, with the offset it stands at (R61). -/
theorem locate_cases {c : Config.Capacity} {a : Nat} {l : Loc} (h : locate c a = some l) :
    (a = 0x00 ∧ l = .id) ∨ (a = 0x04 ∧ l = .cmd) ∨ (a = 0x08 ∧ l = .status) ∨ (a = 0x0C ∧ l = .keycfg) ∨
    (a = 0x10 ∧ l = .len) ∨ (a = 0x14 ∧ l = .result) ∨ (a = 0x18 ∧ l = .cap) ∨
    (0x20 ≤ a ∧ a < 0x40 ∧ ∃ j : Fin 8, j.val = (a - 0x20) / 4 ∧ l = .key j) ∨
    (0x40 ≤ a ∧ a < 0x50 ∧ ∃ j : Fin 4, j.val = (a - 0x40) / 4 ∧ l = .iv j) ∨
    (0x50 ≤ a ∧ a < 0x60 ∧ ∃ j : Fin 4, j.val = (a - 0x50) / 4 ∧ l = .state j) ∨
    (0x60 ≤ a ∧ a < 0x70 ∧ ∃ j : Fin 4, j.val = (a - 0x60) / 4 ∧ l = .rk j) ∨
    (0x100 ≤ a ∧ a < 0x1F0 ∧ ∃ j : Fin 60, j.val = (a - 0x100) / 4 ∧ l = .sched j) ∨
    (0x1000 ≤ a ∧ a < 0x1000 + Config.bufBytes c ∧ l = .buf ((a - 0x1000) / 4)) := by
  unfold locate at h
  split at h
  · unfold locateScalar at h
    split at h <;> first
      | (cases h; done)
      | (injection h with h; subst h; simp)
  · unfold locateArray schedBase bufBase at h
    iterate 7 refine .inr ?_
    split_ifs at h <;> injection h with h <;> subst h
    · have : (a - 0x20) / 4 < 8 := by omega
      exact .inl ⟨by omega, by omega, _, Nat.mod_eq_of_lt this, rfl⟩
    · have : (a - 0x40) / 4 < 4 := by omega
      exact .inr (.inl ⟨by omega, by omega, _, Nat.mod_eq_of_lt this, rfl⟩)
    · have : (a - 0x50) / 4 < 4 := by omega
      exact .inr (.inr (.inl ⟨by omega, by omega, _, Nat.mod_eq_of_lt this, rfl⟩))
    · have : (a - 0x60) / 4 < 4 := by omega
      exact .inr (.inr (.inr (.inl ⟨by omega, by omega, _, Nat.mod_eq_of_lt this, rfl⟩)))
    · have : (a - 0x100) / 4 < 60 := by omega
      exact .inr (.inr (.inr (.inr (.inl ⟨by omega, by omega, _, Nat.mod_eq_of_lt this, rfl⟩))))
    · exact .inr (.inr (.inr (.inr (.inr ⟨by omega, by omega, rfl⟩))))

/-- An offset is reserved exactly outside the ranges of the map (R61, R65), for aligned offsets. -/
theorem locate_none {c : Config.Capacity} {a : Nat} (h4 : a % 4 = 0) :
    locate c a = none ↔ ¬ (a < 0x1C ∨ (0x20 ≤ a ∧ a < 0x70) ∨ (0x100 ≤ a ∧ a < 0x1F0) ∨
      (0x1000 ≤ a ∧ a < 0x1000 + Config.bufBytes c)) := by
  constructor
  · intro h
    unfold locate at h
    split at h
    · unfold locateScalar at h
      split at h
      iterate 7 · cases h
      rename_i h0 h1 h2 h3 h4 h5 h6
      rintro hc
      have ha : a = 0x00 ∨ a = 0x04 ∨ a = 0x08 ∨ a = 0x0C ∨ a = 0x10 ∨ a = 0x14 ∨ a = 0x18 := by omega
      tauto
    · unfold locateArray schedBase bufBase at h
      split_ifs at h
      omega
  · intro h
    cases hl : locate c a with
    | none => rfl
    | some l =>
      exfalso
      rcases locate_cases hl with h | h | h | h | h | h | h | h | h | h | h | h | h <;> omega

/-- One transaction: an ERROR response, or a read or a write of the word it reaches (R62 to R65). -/
theorem State.transact_cases (s : State) (t : Transaction) :
    (t.target s.capacity = none ∧ s.transact t = { s with rsp := some (.error 0) }) ∨
    ∃ l, t.target s.capacity = some l ∧
      ((t.write = true ∧ s.transact t = s.hostWrite l t.wdata) ∨
       (t.write = false ∧ s.transact t = s.hostRead t.addr.toNat l)) := by
  unfold State.transact
  cases h : t.target s.capacity with
  | none => exact .inl ⟨rfl, rfl⟩
  | some l => cases hw : t.write <;> simp

/-- A read changes its response and, for a free value, the draw counter, and nothing else (R62). -/
theorem State.hostRead_frame (s : State) (a : Nat) (l : Loc) :
    s.hostRead a l = { s with rsp := (s.hostRead a l).rsp, draws := (s.hostRead a l).draws } := by
  unfold State.hostRead
  split <;> rfl

/-- A write while busy sets OVERRUN and is answered, and nothing else (R48). -/
theorem State.hostWrite_busy {s : State} (h : s.isBusy = true) (l : Loc) (v : Word) :
    s.hostWrite l v = { s with status := { s.status with overrun := true }, rsp := some .okay } := by
  simp [State.hostWrite, h]

/-- A write while idle is applied and answered (R63). -/
theorem State.hostWrite_idle {s : State} (h : s.isBusy = false) (l : Loc) (v : Word) :
    s.hostWrite l v = { s.writeLoc l v with rsp := some .okay } := by
  simp [State.hostWrite, h]

end Sys2Proof.Machine
end

