-- ==== Sys2Proof/Laws/Decode.lean ====
section
/-! SUPPORT. The fields of a command word, and what each decoding rule gives. -/

namespace Sys2Proof

variable (o a b : Byte) (w : Word)

theorem cmdOpc_commandWord : cmdOpc (commandWord o a b) = o := by
  refine BitVec.eq_of_getLsbD_eq fun i hi => ?_
  simp only [cmdOpc, commandWord, BitVec.getLsbD_extractLsb', BitVec.getLsbD_append]
  interval_cases i <;> simp

theorem cmdA_commandWord : cmdA (commandWord o a b) = a := by
  refine BitVec.eq_of_getLsbD_eq fun i hi => ?_
  simp only [cmdA, commandWord, BitVec.getLsbD_extractLsb', BitVec.getLsbD_append]
  interval_cases i <;> simp

theorem cmdB_commandWord : cmdB (commandWord o a b) = b := by
  refine BitVec.eq_of_getLsbD_eq fun i hi => ?_
  simp only [cmdB, commandWord, BitVec.getLsbD_extractLsb', BitVec.getLsbD_append]
  interval_cases i <;> simp

theorem cmdRsv_commandWord : cmdRsv (commandWord o a b) = 0 := by
  refine BitVec.eq_of_getLsbD_eq fun i hi => ?_
  simp only [cmdRsv, commandWord, BitVec.getLsbD_extractLsb', BitVec.getLsbD_append]
  interval_cases i <;> simp

/-- A word without reserved bits is the word of its fields (R90). -/
theorem commandWord_fields (h : cmdRsv w = 0) : commandWord (cmdOpc w) (cmdA w) (cmdB w) = w := by
  refine BitVec.eq_of_getLsbD_eq fun i hi => ?_
  have hr : ∀ k < 8, w.getLsbD (24 + k) = false := fun k hk => by
    have := congrArg (fun v => v.getLsbD k) h
    simpa [cmdRsv, BitVec.getLsbD_extractLsb', hk] using this
  simp only [cmdOpc, cmdA, cmdB, commandWord, BitVec.getLsbD_extractLsb', BitVec.getLsbD_append]
  by_cases h24 : 24 ≤ i
  · obtain ⟨k, rfl⟩ : ∃ k, i = 24 + k := ⟨i - 24, by omega⟩
    rw [hr k (by omega)]
    simp [show ¬ (24 + k < 8) by omega, show ¬ (24 + k - 8 < 8) by omega, show ¬ (24 + k - 8 - 8 < 8) by omega]
  · interval_cases i <;> simp

/-- What a word that decodes under `decodeOnlyA` decodes to, and what its field B is. -/
theorem decodeOnlyA_ok {f : Byte → Instr} {i : Instr} :
    decodeOnlyA w f = .ok i ↔ cmdB w = 0 ∧ f (cmdA w) = i := by
  unfold decodeOnlyA
  split_ifs with h <;> simp_all

/-- What a word that decodes under `decodeBare` decodes to, and what its fields A and B are. -/
theorem decodeBare_ok {j i : Instr} : decodeBare w j = .ok i ↔ cmdA w = 0 ∧ cmdB w = 0 ∧ j = i := by
  unfold decodeBare
  split_ifs with h <;> simp_all

end Sys2Proof
end

