-- ==== Sys2Proof/Laws/Field.lean ====
section
/-! SUPPORT. GF(2^8) multiplication is linear in each operand, so a law need only be checked on the eight powers
of x. -/

namespace Sys2Proof.Machine

/-- The sum of those of the first n bits of `a` that are set. -/
def bitSum (a : Byte) : Nat → Byte
  | 0 => 0
  | n + 1 => bitSum a n ^^^ (if a.getLsbD n then (1 : Byte) <<< n else 0)

theorem bitSum_eq : ∀ a : Byte, bitSum a 8 = a := by decide +kernel

/-- What holds of 0 and of the powers of x, and is kept by addition, holds of every byte. -/
theorem byte_induction {P : Byte → Prop} (h0 : P 0) (hb : ∀ k < 8, P ((1 : Byte) <<< k))
    (hx : ∀ a b, P a → P b → P (a ^^^ b)) (a : Byte) : P a := by
  have : ∀ n ≤ 8, P (bitSum a n) := by
    intro n
    induction n with
    | zero => exact fun _ => h0
    | succ n ih =>
      intro hn
      refine hx _ _ (ih (by omega)) ?_
      split
      · exact hb n (by omega)
      · exact h0
  rw [← bitSum_eq a]
  exact this 8 le_rfl

/-- Multiplication by 2 is linear (R121). -/
theorem xtime_xor (a b : Byte) : xtime (a ^^^ b) = xtime a ^^^ xtime b := by
  unfold xtime
  rw [BitVec.msb_xor, BitVec.shiftLeft_xor_distrib]
  have h : ∀ x y : Byte, x ^^^ (x ^^^ y) = y := fun x y => by rw [← BitVec.xor_assoc, BitVec.xor_self, BitVec.zero_xor]
  cases a.msb <;> cases b.msb
  · rfl
  · simp only [Bool.false_xor, if_true, Bool.false_eq_true, if_false]; ac_rfl
  · simp only [Bool.xor_false, if_true, Bool.false_eq_true, if_false]; ac_rfl
  · simp only [Bool.xor_self, Bool.false_eq_true, if_false, if_true]
    generalize a <<< 1 = p, b <<< 1 = q, (0x1B : Byte) = r
    rw [show (p ^^^ r) ^^^ (q ^^^ r) = r ^^^ (r ^^^ (p ^^^ q)) by ac_rfl, h]

theorem xtime_zero : xtime 0 = 0 := by decide

theorem mul3_xor (a b : Byte) : mul3 (a ^^^ b) = mul3 a ^^^ mul3 b := by
  simp only [mul3, xtime_xor]
  ac_rfl

theorem gfmulLoop_xor (b : Byte) (n k : Nat) (t u r q : Byte) :
    gfmulLoop b n k (t ^^^ u) (r ^^^ q) = gfmulLoop b n k t r ^^^ gfmulLoop b n k u q := by
  induction n generalizing k t u r q with
  | zero => rfl
  | succ n ih =>
    simp only [gfmulLoop, xtime_xor]
    rw [← ih]
    congr 1
    split
    · ac_rfl
    · rfl

/-- Multiplication is linear in its first operand (R123). -/
theorem gfmul_xor_left (a b c : Byte) : gfmul (a ^^^ b) c = gfmul a c ^^^ gfmul b c := by
  have := gfmulLoop_xor c 8 0 a b 0 0
  simpa [gfmul] using this

theorem gfmulLoop_zero (b : Byte) (n k : Nat) (r : Byte) : gfmulLoop b n k 0 r = r := by
  induction n generalizing k r with
  | zero => rfl
  | succ n ih =>
    rw [gfmulLoop, xtime_zero, ih]
    split
    · exact BitVec.xor_zero
    · rfl

/-- The sum so far is added to the rest of the loop. -/
theorem gfmulLoop_acc (b : Byte) (n k : Nat) (t r : Byte) :
    gfmulLoop b n k t r = r ^^^ gfmulLoop b n k t 0 := by
  have := gfmulLoop_xor b n k 0 t r 0
  rwa [gfmulLoop_zero, show (0 : Byte) ^^^ t = t from BitVec.zero_xor, show r ^^^ (0 : Byte) = r from BitVec.xor_zero]
    at this

/-- Multiplication is linear in its second operand (R123). -/
theorem gfmul_xor_right (a b c : Byte) : gfmul a (b ^^^ c) = gfmul a b ^^^ gfmul a c := by
  have : ∀ (n k : Nat) (t : Byte),
      gfmulLoop (b ^^^ c) n k t 0 = gfmulLoop b n k t 0 ^^^ gfmulLoop c n k t 0 := by
    intro n
    induction n with
    | zero => exact fun _ _ => by simp [gfmulLoop]
    | succ n ih =>
      intro k t
      have h : ∀ x y z : Byte, x ^^^ y ^^^ (x ^^^ z) = y ^^^ z := fun x y z => by
        rw [show x ^^^ y ^^^ (x ^^^ z) = (x ^^^ x) ^^^ (y ^^^ z) by ac_rfl, BitVec.xor_self, BitVec.zero_xor]
      have e : ∀ d : Byte, gfmulLoop d (n + 1) k t 0 =
          (if d.getLsbD k then t else 0) ^^^ gfmulLoop d n (k + 1) (xtime t) 0 := fun d => by
        rw [gfmulLoop, gfmulLoop_acc, show (0 : Byte) ^^^ t = t from BitVec.zero_xor]
      rw [e, e, e, ih, BitVec.getLsbD_xor]
      cases b.getLsbD k <;> cases c.getLsbD k <;> simp [h] <;> ac_rfl
  exact this 8 0 a

end Sys2Proof.Machine
end

