-- ==== Sys2Proof/Laws/KeySchedule.lean ====
section
/-! SUPPORT. Key expansion word by word: its length, its first words, and the recurrence of R151. -/

namespace Sys2Proof.Machine

/-- Word i of a list that has the newest word first. -/
def wordAt (newestFirst : List Quad) (i : Nat) : Quad := newestFirst.reverse.getD i default

theorem wordAt_cons_old (q : Quad) (ws : List Quad) (i : Nat) (h : i < ws.length) :
    wordAt (q :: ws) i = wordAt ws i := by
  simp [wordAt, List.getElem?_append_left (show i < ws.reverse.length by simpa using h)]

theorem wordAt_cons_new (q : Quad) (ws : List Quad) : wordAt (q :: ws) ws.length = q := by
  simp [wordAt]

theorem getD_eq_wordAt (ws : List Quad) (k : Nat) (h : k < ws.length) :
    ws.getD k default = wordAt ws (ws.length - 1 - k) := by
  simp [wordAt, show ws.length - 1 - k < ws.length by omega, h, show ws.length - 1 - (ws.length - 1 - k) = k by omega]

@[simp] theorem expandWords_length (nk n : Nat) (ws : List Quad) :
    (expandWords nk n ws).length = ws.length + n := by
  induction n generalizing ws with
  | zero => rfl
  | succ n ih => simp only [expandWords, ih, List.length_cons]; omega

/-- Expansion keeps the words it starts from, and each later word follows the recurrence (R151). -/
theorem expandWords_word (nk n : Nat) (ws : List Quad) (hk : 0 < nk) (hw : nk ≤ ws.length) :
    (∀ i < ws.length, wordAt (expandWords nk n ws) i = wordAt ws i) ∧
    ∀ i, ws.length ≤ i → i < ws.length + n →
      wordAt (expandWords nk n ws) i =
        (scheduleCore nk i (wordAt (expandWords nk n ws) (i - 1))).xor (wordAt (expandWords nk n ws) (i - nk)) := by
  induction n generalizing ws with
  | zero => exact ⟨fun _ _ => rfl, fun i h1 h2 => by omega⟩
  | succ n ih =>
    obtain ⟨ho, hn⟩ := ih (nextWord nk ws :: ws) (by simp only [List.length_cons]; omega)
    simp only [List.length_cons] at ho hn
    simp only [expandWords]
    refine ⟨fun i hi => by rw [ho i (by omega), wordAt_cons_old _ _ _ hi], fun i h1 h2 => ?_⟩
    by_cases h : i = ws.length
    · subst h
      rw [ho _ (by omega), wordAt_cons_new, ho _ (by omega), wordAt_cons_old _ _ _ (by omega), ho _ (by omega),
        wordAt_cons_old _ _ _ (by omega), nextWord, getD_eq_wordAt _ _ (by omega), getD_eq_wordAt _ _ (by omega),
        show ws.length - 1 - (nk - 1) = ws.length - nk by omega, Nat.sub_zero]
    · exact hn i (by omega) (by omega)

theorem KeySize.numKeyWords_pos (ks : KeySize) : 0 < ks.numKeyWords := by cases ks <;> decide

/-- The key is the beginning of the schedule, which is longer. -/
theorem KeySize.numKeyWords_le (ks : KeySize) : ks.numKeyWords ≤ 4 * (ks.numRounds + 1) := by cases ks <;> decide

theorem KeySize.schedule_le (ks : KeySize) : 4 * (ks.numRounds + 1) ≤ 60 := by cases ks <;> decide

/-- The schedule has 4*(Nr+1) words (R158). -/
theorem keyExpansion_length {key : List Quad} {ks : KeySize} (h : key.length = ks.numKeyWords) :
    (keyExpansion key ks).length = 4 * (ks.numRounds + 1) := by
  have := ks.numKeyWords_le
  simp only [keyExpansion, List.length_reverse, expandWords_length, h]
  omega

/-- The first words of the schedule are the key's (R151, R158). -/
theorem keyExpansion_key {key : List Quad} {ks : KeySize} (h : key.length = ks.numKeyWords) {i : Nat}
    (hi : i < ks.numKeyWords) : (keyExpansion key ks).getD i default = key.getD i default := by
  have := (expandWords_word ks.numKeyWords (4 * (ks.numRounds + 1) - ks.numKeyWords) key.reverse ks.numKeyWords_pos
    (by simp [h])).1 i (by simpa [h] using hi)
  simpa [wordAt, keyExpansion] using this

/-- Every later word follows the recurrence (R151). -/
theorem keyExpansion_word {key : List Quad} {ks : KeySize} (h : key.length = ks.numKeyWords) {i : Nat}
    (h1 : ks.numKeyWords ≤ i) (h2 : i < 4 * (ks.numRounds + 1)) :
    (keyExpansion key ks).getD i default =
      (scheduleCore ks.numKeyWords i ((keyExpansion key ks).getD (i - 1) default)).xor
        ((keyExpansion key ks).getD (i - ks.numKeyWords) default) :=
  (expandWords_word ks.numKeyWords (4 * (ks.numRounds + 1) - ks.numKeyWords) key.reverse ks.numKeyWords_pos
    (by simp [h])).2 i (by simpa [h] using h1) (by simp only [List.length_reverse, h]; omega)

/-- The key a key size reads has its number of words. -/
@[simp] theorem State.keyWords_length (s : State) (ks : KeySize) : (s.keyWords ks).length = ks.numKeyWords := by
  cases ks <;> simp [State.keyWords, KeySize.numKeyWords]

/-- Word j of the key, by bytes (R13). -/
theorem State.keyWords_getD (s : State) (ks : KeySize) (j : Nat) (h : j < ks.numKeyWords) :
    (s.keyWords ks).getD j default =
      ⟨s.keyByte (4 * j), s.keyByte (4 * j + 1), s.keyByte (4 * j + 2), s.keyByte (4 * j + 3)⟩ := by
  have h8 : j < 8 := by cases ks <;> simp [KeySize.numKeyWords] at h <;> omega
  have hq : ∀ q : Quad, q = ⟨q.byte 0, q.byte 1, q.byte 2, q.byte 3⟩ := fun _ => rfl
  have e : ∀ k < 4, s.keyByte (4 * j + k) = s.key[j].byte k := fun k hk => by
    simp [State.keyByte, show (4 * j + k) / 4 = j by omega, show (4 * j + k) % 4 = k by omega, h8]
  have e0 := e 0 (by omega)
  rw [Nat.add_zero] at e0
  rw [e0, e 1 (by omega), e 2 (by omega), e 3 (by omega), ← hq]
  simp [State.keyWords, h, h8]

/-- Word j of an installed schedule (R156). -/
theorem State.schedWord_installSchedule (s : State) (ks : KeySize) (j : Nat) (h : j < 60) :
    (s.installSchedule ks).schedWord j = (keyExpansion (s.keyWords ks) ks).getD j default := by
  simp [State.schedWord, State.installSchedule, scheduleRam, h]

/-- SCHED is zero above the schedule (R38, R156). -/
theorem State.schedByte_installSchedule_above (s : State) (ks : KeySize) (k : Nat) (h : 16 * (ks.numRounds + 1) ≤ k) :
    (s.installSchedule ks).schedByte k = 0 := by
  have hz : ∀ n, (default : Quad).byte n = 0 := fun n => by
    unfold Quad.byte; split <;> rfl
  have hl := keyExpansion_length (s.keyWords_length ks)
  by_cases hk : k / 4 < 60
  · rw [State.schedByte, State.schedWord_installSchedule _ _ _ hk,
      List.getD_eq_default _ _ (by omega), hz]
  · rw [State.schedByte, State.schedWord, Vector.getElem?_eq_none (by omega)]
    exact hz _

end Sys2Proof.Machine
end

