-- ==== Sys2Proof/Laws/Modes.lean ====
section
/-! SUPPORT. What the loops of the mode engines do, block by block. -/

namespace Sys2Proof.Machine

/-- The ciphers read the schedule and the round count only. -/
theorem State.SameButBlocks.encryptBlock {s t : State} (h : s.SameButBlocks t) : t.encryptBlock = s.encryptBlock := by
  rw [h.rest]; rfl

theorem State.SameButBlocks.decryptBlock {s t : State} (h : s.SameButBlocks t) : t.decryptBlock = s.decryptBlock := by
  rw [h.rest]; rfl

/-- A byte of BUF is a byte of its block. -/
theorem State.bufByte_eq_block (s : State) (k : Nat) : s.bufByte k = (s.block (k / 16)).byte (k % 16) := by
  rw [State.block_byte _ _ _ (by omega), show 16 * (k / 16) + k % 16 = k by omega]

/-- The work registers are no part of BUF. -/
@[simp] theorem State.block_work (s : State) (w : WorkRegs) (j : Nat) : ({ s with work := w } : State).block j = s.block j := by
  simp only [State.block, State.bufByte]

@[simp] theorem State.block_nextBlock (s : State) (j : Nat) : s.nextBlock.block j = s.block j := by
  simp only [State.nextBlock, State.block_work]

@[simp] theorem State.block_setPrev (s : State) (b : Block) (j : Nat) : (s.setPrev b).block j = s.block j := by
  simp only [State.setPrev, State.block_work]

@[simp] theorem State.block_setNextPrev (s : State) (b : Block) (j : Nat) : (s.setNextPrev b).block j = s.block j := by
  simp only [State.setNextPrev, State.block_work]

@[simp] theorem State.block_startBlocks (s : State) (j : Nat) : s.startBlocks.block j = s.block j := by
  simp only [State.startBlocks, State.block_work]

/-- BUF after one block of ECB_ENC. -/
theorem ecbEncBlock_block (a s : State) (j : Nat) :
    (ecbEncBlock a s).block j =
      if s.work.blockIndex = j then s.encryptBlock (a.block s.work.blockIndex) else s.block j := by
  simp only [ecbEncBlock, State.block_nextBlock, State.block_setBlock]

/-- BUF after one block of ECB_DEC. -/
theorem ecbDecBlock_block (a s : State) (j : Nat) :
    (ecbDecBlock a s).block j =
      if s.work.blockIndex = j then s.decryptBlock (a.block s.work.blockIndex) else s.block j := by
  simp only [ecbDecBlock, State.block_nextBlock, State.block_setBlock]

/-- BUF after one block of CBC_ENC. -/
theorem cbcEncBlock_block (a s : State) (j : Nat) :
    (cbcEncBlock a s).block j =
      if s.work.blockIndex = j then s.encryptBlock ((s.block s.work.blockIndex).xor s.work.prev) else s.block j := by
  simp only [cbcEncBlock, State.block_nextBlock, State.block_setPrev, State.block_setBlock]

/-- BUF after one block of CBC_DEC. -/
theorem cbcDecBlock_block (a s : State) (j : Nat) :
    (cbcDecBlock a s).block j =
      if s.work.blockIndex = j then (s.decryptBlock (a.block s.work.blockIndex)).xor s.work.prev else s.block j := by
  have hd := (s.setNextPrev_frame (s.block s.work.blockIndex)).decryptBlock
  simp only [cbcDecBlock, State.storePlaintext, State.saveCiphertext, State.block_nextBlock, State.block_setPrev,
    State.block_setBlock, State.block_setNextPrev, hd]
  rfl

/-- The work registers after one block of CBC_ENC. -/
theorem cbcEncBlock_work (a s : State) :
    (cbcEncBlock a s).work.blockIndex = s.work.blockIndex + 1 ∧
    (cbcEncBlock a s).work.prev = s.encryptBlock ((s.block s.work.blockIndex).xor s.work.prev) := ⟨rfl, rfl⟩

/-- The work registers after one block of CBC_DEC. -/
theorem cbcDecBlock_work (a s : State) :
    (cbcDecBlock a s).work.blockIndex = s.work.blockIndex + 1 ∧
    (cbcDecBlock a s).work.prev = s.block s.work.blockIndex := ⟨rfl, rfl⟩

/-- What the block function of every mode does: it writes the block of its index and moves on to the next, and of
the state its cipher reads it uses that block only. -/
structure ModeBody (body : State → State → State) : Prop where
  frame : ∀ a s : State, s.SameButBlocks (body a s)
  index : ∀ a s : State, (body a s).work.blockIndex = s.work.blockIndex + 1
  buf : ∀ a s : State, ∃ b, (body a s).buf = (s.setBlock s.work.blockIndex b).buf
  source : ∀ a b s : State, a.block s.work.blockIndex = b.block s.work.blockIndex → body a s = body b s
  other : ∀ (a s : State) (j : Nat), s.work.blockIndex ≠ j → (body a s).block j = s.block j

theorem ecbEncBlock_modeBody : ModeBody ecbEncBlock where
  frame := ecbEncBlock_frame
  index := fun a s => by simp only [ecbEncBlock, State.nextBlock, State.setBlock_work]
  buf := fun a s => ⟨s.encryptBlock (a.block s.work.blockIndex), by simp only [ecbEncBlock, State.nextBlock]⟩
  source := fun a b s h => by rw [ecbEncBlock, h, ← ecbEncBlock]
  other := fun a s j h => by rw [ecbEncBlock_block, if_neg h]

theorem ecbDecBlock_modeBody : ModeBody ecbDecBlock where
  frame := ecbDecBlock_frame
  index := fun a s => by simp only [ecbDecBlock, State.nextBlock, State.setBlock_work]
  buf := fun a s => ⟨s.decryptBlock (a.block s.work.blockIndex), by simp only [ecbDecBlock, State.nextBlock]⟩
  source := fun a b s h => by rw [ecbDecBlock, h, ← ecbDecBlock]
  other := fun a s j h => by rw [ecbDecBlock_block, if_neg h]

theorem cbcEncBlock_modeBody : ModeBody cbcEncBlock where
  frame := cbcEncBlock_frame
  index := fun a s => (cbcEncBlock_work a s).1
  buf := fun a s => ⟨s.encryptBlock ((s.block s.work.blockIndex).xor s.work.prev), by
    simp only [cbcEncBlock, State.nextBlock, State.setPrev]⟩
  source := fun _ _ _ _ => rfl
  other := fun a s j h => by rw [cbcEncBlock_block, if_neg h]

theorem cbcDecBlock_modeBody : ModeBody cbcDecBlock where
  frame := cbcDecBlock_frame
  index := fun a s => (cbcDecBlock_work a s).1
  buf := fun a s =>
    ⟨_, by simp only [cbcDecBlock, State.nextBlock, State.setPrev, State.storePlaintext, State.setBlock_buf]; rfl⟩
  source := fun a b s h => by rw [cbcDecBlock, h, ← cbcDecBlock]
  other := fun a s j h => by rw [cbcDecBlock_block, if_neg h]

/-- A mode's sequential loop writes BUF and the work registers only. -/
theorem ModeBody.times_frame {body : State → State → State} (hm : ModeBody body) (n : Nat) (s : State) :
    s.SameButBlocks (times n (sequentially body) s) :=
  Sys2Proof.Machine.times_frame (fun u => hm.frame u u) n s

/-- Reading from a state whose blocks from the present one on are still as they stand makes no difference. -/
theorem ModeBody.times_source {body : State → State → State} (hm : ModeBody body) (n : Nat) (a s : State)
    (h : ∀ j, s.work.blockIndex ≤ j → a.block j = s.block j) :
    times n (body a) s = times n (sequentially body) s := by
  induction n generalizing s with
  | zero => rfl
  | succ n ih =>
    have hs : body a s = sequentially body s := hm.source a s s (h _ (Nat.le_refl _))
    rw [times, times, hs]
    refine ih _ fun j hj => ?_
    rw [sequentially, hm.index] at hj
    rw [sequentially, hm.other _ _ _ (by omega), h j (by omega)]

/-- Whatever ECB_PARALLEL is, the result is the sequential one (R209). -/
theorem ModeBody.runBlocks_eq {body : State → State → State} (hm : ModeBody body) (s : State) (n : Nat) :
    s.runBlocks n body = times n (sequentially body) s := by
  unfold State.runBlocks
  split
  · exact hm.times_source n s s fun _ _ => rfl
  · rfl

/-- n blocks of ECB_ENC (R201). -/
theorem times_ecbEncBlock (n : Nat) (s : State) :
    (times n (sequentially ecbEncBlock) s).work.blockIndex = s.work.blockIndex + n ∧
    ∀ j, (times n (sequentially ecbEncBlock) s).block j =
      if s.work.blockIndex ≤ j ∧ j < s.work.blockIndex + n then s.encryptBlock (s.block j) else s.block j := by
  induction n with
  | zero => exact ⟨rfl, fun j => by rw [if_neg (by omega)]; rfl⟩
  | succ n ih =>
    obtain ⟨hi, hb⟩ := ih
    have hf := (ecbEncBlock_modeBody.times_frame n s).encryptBlock
    rw [times_succ]
    generalize times n (sequentially ecbEncBlock) s = t at hi hb hf
    rw [show sequentially ecbEncBlock t = ecbEncBlock t t from rfl]
    refine ⟨by rw [ecbEncBlock_modeBody.index, hi, Nat.add_assoc], fun j => ?_⟩
    rw [ecbEncBlock_block, hf, hi]
    by_cases h : s.work.blockIndex + n = j
    · rw [if_pos h, if_pos (by omega), hb, h, if_neg (by omega)]
    · rw [if_neg h, hb]
      exact if_congr (by omega) rfl rfl

/-- n blocks of ECB_DEC (R202). -/
theorem times_ecbDecBlock (n : Nat) (s : State) :
    (times n (sequentially ecbDecBlock) s).work.blockIndex = s.work.blockIndex + n ∧
    ∀ j, (times n (sequentially ecbDecBlock) s).block j =
      if s.work.blockIndex ≤ j ∧ j < s.work.blockIndex + n then s.decryptBlock (s.block j) else s.block j := by
  induction n with
  | zero => exact ⟨rfl, fun j => by rw [if_neg (by omega)]; rfl⟩
  | succ n ih =>
    obtain ⟨hi, hb⟩ := ih
    have hf := (ecbDecBlock_modeBody.times_frame n s).decryptBlock
    rw [times_succ]
    generalize times n (sequentially ecbDecBlock) s = t at hi hb hf
    rw [show sequentially ecbDecBlock t = ecbDecBlock t t from rfl]
    refine ⟨by rw [ecbDecBlock_modeBody.index, hi, Nat.add_assoc], fun j => ?_⟩
    rw [ecbDecBlock_block, hf, hi]
    by_cases h : s.work.blockIndex + n = j
    · rw [if_pos h, if_pos (by omega), hb, h, if_neg (by omega)]
    · rw [if_neg h, hb]
      exact if_congr (by omega) rfl rfl

/-- The chaining value before block n: the starting value, then the ciphertext block before (R203, R204). -/
def chained (start : Block) (block : Nat → Block) : Nat → Block
  | 0 => start
  | n + 1 => block n

@[simp] theorem chained_zero (start : Block) (block : Nat → Block) : chained start block 0 = start := rfl

@[simp] theorem chained_succ (start : Block) (block : Nat → Block) (n : Nat) :
    chained start block (n + 1) = block n := rfl

/-- Chaining values depend on the blocks before only. -/
theorem chained_congr {start : Block} {f g : Nat → Block} {n : Nat} (h : ∀ j < n, f j = g j) :
    chained start f n = chained start g n := by
  cases n with
  | zero => rw [chained_zero, chained_zero]
  | succ n => rw [chained_succ, chained_succ, h n (by omega)]

/-- n blocks of CBC_ENC from block 0 (R203). -/
theorem times_cbcEncBlock (n : Nat) (s : State) (h0 : s.work.blockIndex = 0) :
    (times n (sequentially cbcEncBlock) s).work.blockIndex = n ∧
    (times n (sequentially cbcEncBlock) s).work.prev = chained s.work.prev (times n (sequentially cbcEncBlock) s).block n ∧
    ∀ j, (times n (sequentially cbcEncBlock) s).block j =
      if j < n then s.encryptBlock ((s.block j).xor (chained s.work.prev (times n (sequentially cbcEncBlock) s).block j))
      else s.block j := by
  induction n with
  | zero => exact ⟨h0, rfl, fun j => by rw [if_neg (by omega)]; rfl⟩
  | succ n ih =>
    obtain ⟨hi, hp, hb⟩ := ih
    have hf := (cbcEncBlock_modeBody.times_frame n s).encryptBlock
    rw [times_succ]
    generalize times n (sequentially cbcEncBlock) s = t at hi hp hb hf
    rw [show sequentially cbcEncBlock t = cbcEncBlock t t from rfl]
    have hblock := cbcEncBlock_block t t
    obtain ⟨hui, hup⟩ := cbcEncBlock_work t t
    rw [hi] at hblock hui hup
    rw [hf, hb n, if_neg (by omega), hp] at hup
    simp only [hf, hb n, if_neg (Nat.lt_irrefl n), hp] at hblock
    generalize cbcEncBlock t t = u at hblock hui hup
    have hut : ∀ j, j ≠ n → u.block j = t.block j := fun j hj => by rw [hblock, if_neg (Ne.symm hj)]
    refine ⟨hui, ?_, fun j => ?_⟩
    · rw [hup, chained_succ, hblock, if_pos rfl]
    · by_cases h : n = j
      · subst h
        rw [hblock, if_pos rfl, if_pos (by omega), chained_congr fun j hj => hut j (by omega)]
      · rw [hut j (Ne.symm h), hb]
        by_cases hj : j < n
        · rw [if_pos hj, if_pos (by omega), chained_congr fun i hi => hut i (by omega)]
        · rw [if_neg hj, if_neg (by omega)]

/-- n blocks of CBC_DEC from block 0 (R204). -/
theorem times_cbcDecBlock (n : Nat) (s : State) (h0 : s.work.blockIndex = 0) :
    (times n (sequentially cbcDecBlock) s).work.blockIndex = n ∧
    (times n (sequentially cbcDecBlock) s).work.prev = chained s.work.prev s.block n ∧
    ∀ j, (times n (sequentially cbcDecBlock) s).block j =
      if j < n then (s.decryptBlock (s.block j)).xor (chained s.work.prev s.block j) else s.block j := by
  induction n with
  | zero => exact ⟨h0, rfl, fun j => by rw [if_neg (by omega)]; rfl⟩
  | succ n ih =>
    obtain ⟨hi, hp, hb⟩ := ih
    have hf := (cbcDecBlock_modeBody.times_frame n s).decryptBlock
    rw [times_succ]
    generalize times n (sequentially cbcDecBlock) s = t at hi hp hb hf
    rw [show sequentially cbcDecBlock t = cbcDecBlock t t from rfl]
    have hblock := cbcDecBlock_block t t
    obtain ⟨hui, hup⟩ := cbcDecBlock_work t t
    rw [hi] at hblock hui hup
    rw [hb n, if_neg (by omega)] at hup
    simp only [hf, hb n, if_neg (Nat.lt_irrefl n), hp] at hblock
    refine ⟨hui, by rw [hup, chained_succ], fun j => ?_⟩
    rw [hblock]
    by_cases h : n = j
    · subst h
      rw [if_pos rfl, if_pos (by omega)]
    · rw [if_neg h, hb]
      exact if_congr (by omega) rfl rfl

end Sys2Proof.Machine
end

