-- ==== Sys2Proof/Laws/PerInstr.lean ====
section
/-! SUPPORT. The family `Encoding`: of every command's word the reserved byte is 0, and its fields are the
opcode and the operands of the command (R90, R92). -/

namespace Sys2Proof.Laws.Encoding

/-- The word of `i` has RSV = 0, and the mnemonic of `i` with the word's fields A and B is `i`. -/
def Statement (i : Instr) : Prop :=
  cmdRsv (encode i) = 0 ∧ i.mnemonic.instr (cmdA (encode i)) (cmdB (encode i)) = i

theorem gfmul (a b : Byte) : Statement (.gfmul a b) := by
  simp [Statement, encode, Instr.mnemonic, Mnemonic.instr, cmdA_commandWord, cmdB_commandWord, cmdRsv_commandWord]

theorem xtime (a : Byte) : Statement (.xtime a) := by
  simp [Statement, encode, Instr.mnemonic, Mnemonic.instr, cmdA_commandWord, cmdRsv_commandWord]

theorem mul3 (a : Byte) : Statement (.mul3 a) := by
  simp [Statement, encode, Instr.mnemonic, Mnemonic.instr, cmdA_commandWord, cmdRsv_commandWord]

theorem sbox (a : Byte) : Statement (.sbox a) := by
  simp [Statement, encode, Instr.mnemonic, Mnemonic.instr, cmdA_commandWord, cmdRsv_commandWord]

theorem invsbox (a : Byte) : Statement (.invsbox a) := by
  simp [Statement, encode, Instr.mnemonic, Mnemonic.instr, cmdA_commandWord, cmdRsv_commandWord]

theorem rcon (a : Byte) : Statement (.rcon a) := by
  simp [Statement, encode, Instr.mnemonic, Mnemonic.instr, cmdA_commandWord, cmdRsv_commandWord]

theorem numrounds : Statement (.numrounds) := by
  simp [Statement, encode, Instr.mnemonic, Mnemonic.instr, cmdRsv_commandWord]

theorem numkeywords : Statement (.numkeywords) := by
  simp [Statement, encode, Instr.mnemonic, Mnemonic.instr, cmdRsv_commandWord]

theorem keyexp : Statement (.keyexp) := by
  simp [Statement, encode, Instr.mnemonic, Mnemonic.instr, cmdRsv_commandWord]

theorem getrk (a : Byte) : Statement (.getrk a) := by
  simp [Statement, encode, Instr.mnemonic, Mnemonic.instr, cmdA_commandWord, cmdRsv_commandWord]

theorem addrk : Statement (.addrk) := by
  simp [Statement, encode, Instr.mnemonic, Mnemonic.instr, cmdRsv_commandWord]

theorem subbytes : Statement (.subbytes) := by
  simp [Statement, encode, Instr.mnemonic, Mnemonic.instr, cmdRsv_commandWord]

theorem invsubbytes : Statement (.invsubbytes) := by
  simp [Statement, encode, Instr.mnemonic, Mnemonic.instr, cmdRsv_commandWord]

theorem shiftrows : Statement (.shiftrows) := by
  simp [Statement, encode, Instr.mnemonic, Mnemonic.instr, cmdRsv_commandWord]

theorem invshiftrows : Statement (.invshiftrows) := by
  simp [Statement, encode, Instr.mnemonic, Mnemonic.instr, cmdRsv_commandWord]

theorem mixcolumns : Statement (.mixcolumns) := by
  simp [Statement, encode, Instr.mnemonic, Mnemonic.instr, cmdRsv_commandWord]

theorem invmixcolumns : Statement (.invmixcolumns) := by
  simp [Statement, encode, Instr.mnemonic, Mnemonic.instr, cmdRsv_commandWord]

theorem encrypt : Statement (.encrypt) := by
  simp [Statement, encode, Instr.mnemonic, Mnemonic.instr, cmdRsv_commandWord]

theorem decrypt : Statement (.decrypt) := by
  simp [Statement, encode, Instr.mnemonic, Mnemonic.instr, cmdRsv_commandWord]

theorem ecbEnc : Statement (.ecbEnc) := by
  simp [Statement, encode, Instr.mnemonic, Mnemonic.instr, cmdRsv_commandWord]

theorem ecbDec : Statement (.ecbDec) := by
  simp [Statement, encode, Instr.mnemonic, Mnemonic.instr, cmdRsv_commandWord]

theorem cbcEnc : Statement (.cbcEnc) := by
  simp [Statement, encode, Instr.mnemonic, Mnemonic.instr, cmdRsv_commandWord]

theorem cbcDec : Statement (.cbcDec) := by
  simp [Statement, encode, Instr.mnemonic, Mnemonic.instr, cmdRsv_commandWord]

end Sys2Proof.Laws.Encoding
end

