-- ==== Sys2Proof/Laws/Step.lean ====
section
/-! SUPPORT. What a command can do to the state, and what one step can do. -/

namespace Sys2Proof.Machine

/-- What a write into BUF may add: cells of BUF's own window, the canonical form kept. -/
structure State.BufWithin (s t : State) : Prop where
  wf : s.buf.wf → t.buf.wf
  cells : ∀ c ∈ t.buf, c ∈ s.buf ∨ (bufBase ≤ c.1 ∧ c.1 < bufBase + s.bufBytes)

theorem State.setBlock_within {s : State} {i : Nat} (b : Block) (h : 16 * i + 16 ≤ s.bufBytes) :
    s.BufWithin (s.setBlock i b) where
  wf := fun hw => Memory.writeBytes_wf hw _ _
  cells := fun c hc => by
    rcases Memory.mem_writeBytes hc with ⟨h1, h2⟩ | h
    · rw [Block.bytes_length] at h2
      exact .inr ⟨by omega, by omega⟩
    · exact .inl h

/-- A loop that writes block after block below the capacity writes cells of BUF's window only. -/
theorem ModeBody.times_within {body : State → State → State} (hm : ModeBody body) (n : Nat) (s : State)
    (h : 16 * (s.work.blockIndex + n) ≤ s.bufBytes) : s.BufWithin (times n (sequentially body) s) := by
  induction n generalizing s with
  | zero => exact ⟨id, fun c hc => .inl hc⟩
  | succ n ih =>
    have hs : (body s s).bufBytes = s.bufBytes := by rw [(hm.frame s s).rest]; rfl
    have := ih (body s s) (by rw [hm.index, hs]; omega)
    obtain ⟨b, hb⟩ := hm.buf s s
    obtain ⟨w1, c1⟩ := State.setBlock_within b (show 16 * s.work.blockIndex + 16 ≤ s.bufBytes by omega)
    rw [← hb] at w1 c1
    refine ⟨fun hw => this.wf (w1 hw), fun c hc => ?_⟩
    rcases this.cells c hc with h | h
    · exact c1 c h
    · exact .inr (hs ▸ h)

theorem State.startBlocks_frame (s : State) : s.SameButBlocks s.startBlocks := ⟨rfl⟩

/-- The effects a command of each class can have (R43); `u` is the state before completion. -/
def CommandEffect (c : CommandClass) (s u : State) : Prop :=
  match c with
  | .scalar => ∃ v, u = s.setResult v
  | .keyExpansion => ∃ ks, s.checkKeySize = .ok ks ∧ s.keyLenOk ks = true ∧ u = s.installSchedule ks
  | .roundKey => ∃ k, u = { s with rk := k }
  | .state => ∃ b, u = { s with st := b }
  | .mode => ∃ ks, s.modeSetup = .ok (s.installSchedule ks) ∧ (s.installSchedule ks).SameButBlocks u ∧ s.BufWithin u

/-- A mode command's setup that passes installs the schedule, and LEN is then within the capacity (R200). -/
theorem State.modeSetup_cases {s t : State} (h : s.modeSetup = .ok t) :
    ∃ ks, s.checkKeySize = .ok ks ∧ s.keyLenOk ks = true ∧ s.len.toNat % 16 = 0 ∧ s.len.toNat ≤ s.bufBytes ∧
      t = s.installSchedule ks := by
  unfold State.modeSetup at h
  split at h
  · cases h
  · rename_i ks hk
    split_ifs at h with h1 h2 h3
    cases h
    exact ⟨ks, hk, by simpa using h2, by omega, by omega, rfl⟩

/-- What a mode command can end in. -/
theorem ModeBody.runMode_cases {s t : State} {body : State → State → State} (hm : ModeBody body)
    (h : s.runMode body = .next t) :
    (∃ u, t = u.complete ∧ CommandEffect .mode s u) ∨ ∃ e, t = s.raiseError e := by
  rcases State.conclude_cases h with ⟨u, hu, rfl⟩ | ⟨e, -, rfl⟩
  · refine .inl ⟨u, rfl, ?_⟩
    cases hs : s.modeSetup with
    | error e => rw [hs] at hu; cases hu
    | ok v =>
      rw [hs] at hu
      simp only [hm.runBlocks_eq] at hu
      cases hu
      obtain ⟨ks, -, -, h16, hr, rfl⟩ := State.modeSetup_cases hs
      have hw := hm.times_within (s.installSchedule ks).blockCount (s.installSchedule ks).startBlocks
        (by
          have h1 : (s.installSchedule ks).blockCount = s.len.toNat / 16 := rfl
          have h2 : (s.installSchedule ks).startBlocks.work.blockIndex = 0 := rfl
          have h3 : (s.installSchedule ks).startBlocks.bufBytes = s.bufBytes := rfl
          rw [h1, h2, h3]
          omega)
      exact ⟨ks, hs, (State.startBlocks_frame _).trans (hm.times_frame _ _), hw.wf, hw.cells⟩
  · exact .inr ⟨e, rfl⟩

/-- What a command can end in: its effects and completion, or an error (R43, R223). -/
theorem exec_cases {i : Instr} {s t : State} (h : exec i s = .next t) :
    (∃ u, t = u.complete ∧ CommandEffect (Instr.commandClass i) s u) ∨ ∃ e, t = s.raiseError e := by
  have plain : ∀ {c : CommandClass} {r : Except CmdError State}, (∀ u, r = .ok u → CommandEffect c s u) →
      s.conclude r = .next t → (∃ u, t = u.complete ∧ CommandEffect c s u) ∨ ∃ e, t = s.raiseError e := by
    intro c r hr hc
    rcases State.conclude_cases hc with ⟨u, hu, rfl⟩ | ⟨e, -, rfl⟩
    · exact .inl ⟨u, rfl, hr u hu⟩
    · exact .inr ⟨e, rfl⟩
  cases i
  case rcon x =>
    refine plain (fun u hu => ?_) h
    split at hu <;> cases hu
    exact ⟨_, rfl⟩
  case numrounds =>
    refine plain (fun u hu => ?_) h
    split at hu <;> cases hu
    exact ⟨_, rfl⟩
  case numkeywords =>
    refine plain (fun u hu => ?_) h
    split at hu <;> cases hu
    exact ⟨_, rfl⟩
  case keyexp =>
    refine plain (fun u hu => ?_) h
    split at hu
    · cases hu
    · rename_i ks hk
      split_ifs at hu with hl
      cases hu
      exact ⟨ks, hk, hl, rfl⟩
  case getrk r =>
    refine plain (fun u hu => ?_) h
    split_ifs at hu
    cases hu
    exact ⟨_, rfl⟩
  case encrypt =>
    refine plain (fun u hu => ?_) ((execEncrypt_eq s).symm.trans h)
    split_ifs at hu
    cases hu
    exact ⟨_, rfl⟩
  case decrypt =>
    refine plain (fun u hu => ?_) ((execDecrypt_eq s).symm.trans h)
    split_ifs at hu
    cases hu
    exact ⟨_, rfl⟩
  case ecbEnc => exact ecbEncBlock_modeBody.runMode_cases h
  case ecbDec => exact ecbDecBlock_modeBody.runMode_cases h
  case cbcEnc => exact cbcEncBlock_modeBody.runMode_cases h
  case cbcDec => exact cbcDecBlock_modeBody.runMode_cases h
  all_goals
    simp only [exec, execGfmul, execXtime, execMul3, execSbox, execInvsbox, execAddrk, execSubbytes, execInvsubbytes,
      execShiftrows, execInvshiftrows, execMixcolumns, execInvmixcolumns] at h
    exact plain (fun u hu => by cases hu; exact ⟨_, rfl⟩) h

/-- A command always answers a next state: no command faults or is refused (R228). -/
theorem exec_next (i : Instr) (s : State) : ∃ t, exec i s = .next t := by
  have hc : ∀ r : Except CmdError State, ∃ t, s.conclude r = .next t := fun r => by cases r <;> exact ⟨_, rfl⟩
  cases i
  case ecbEnc | ecbDec | cbcEnc | cbcDec => exact hc _
  all_goals
    simp only [exec, execGfmul, execXtime, execMul3, execSbox, execInvsbox, execRcon, execNumrounds, execNumkeywords,
      execKeyexp, execGetrk, execAddrk, execSubbytes, execInvsubbytes, execShiftrows, execInvshiftrows,
      execMixcolumns, execInvmixcolumns, execEncrypt, execDecrypt]
    exact hc _

/-- The command in flight completes: as its decoded word's command, or as an illegal word (R47, R94). -/
theorem State.runCommand_cases {s t : State} (h : s.runCommand = .next t) :
    (∃ i, decode s.cmd = .ok i ∧ exec i s = .next t) ∨ (∃ e, decode s.cmd = .error e ∧ t = s.raiseError .illegal) := by
  unfold State.runCommand State.fetch at h
  split at h
  · exact .inl ⟨_, ‹_›, h⟩
  · cases h
    exact .inr ⟨_, ‹_›, rfl⟩

/-- What one step can do (R231, R47, R73). -/
theorem step_cases {s t : State} (h : step s = .next t) :
    (∃ rest, s.host = .reset :: rest ∧ t = s.applyReset rest) ∨
    (∃ rest, s.host = .powerUp :: rest ∧ t = s.applyPowerUp rest) ∨
    (s.undisturbed 1 ∧ s.awaitingReset = false ∧
      ((s.phase = .busy ∧ s.latency = 0 ∧ s.runCommand = .next t) ∨
        (∃ n, s.phase = .busy ∧ s.latency = n + 1 ∧ t = s.busyCycle n) ∨ (s.phase = .idle ∧ t = s.serve))) := by
  unfold step at h
  split at h
  · cases h; exact .inl ⟨_, ‹_›, rfl⟩
  · cases h; exact .inr (.inl ⟨_, ‹_›, rfl⟩)
  · rename_i h1 h2
    refine .inr (.inr ⟨?_, ?_⟩)
    · intro e he
      cases hh : s.host with
      | nil => simp [hh] at he
      | cons x rest =>
        simp only [hh, List.take_succ_cons, List.take_zero, List.mem_singleton] at he
        subst he
        cases e with
        | reset => exact absurd hh (h1 rest)
        | powerUp => exact absurd hh (h2 rest)
        | transact | wait | quiet => rfl
    · cases ha : s.awaitingReset with
      | true => simp [ha] at h
      | false =>
        refine ⟨rfl, ?_⟩
        simp only [ha, Bool.false_eq_true, if_false] at h
        split at h
        · exact .inl ⟨‹_›, ‹_›, h⟩
        · cases h; exact .inr (.inl ⟨_, ‹_›, ‹_›, rfl⟩)
        · cases h; exact .inr (.inr ⟨‹_›, rfl⟩)

/-- While a command is in flight the host's input changes its response, OVERRUN and the draw counter at most
(R45, R48). -/
theorem State.busyCycle_frame {s : State} (hb : s.isBusy = true) (n : Nat) :
    s.busyCycle n = { s with
      latency := n, host := (s.busyCycle n).host, rsp := (s.busyCycle n).rsp, draws := (s.busyCycle n).draws
      status := { s.status with overrun := (s.busyCycle n).status.overrun } } ∧
    (s.status.overrun = true → (s.busyCycle n).status.overrun = true) := by
  have ht : ∀ t, s.transact t = { s with
        rsp := (s.transact t).rsp, draws := (s.transact t).draws
        status := { s.status with overrun := (s.transact t).status.overrun } } ∧
      (s.status.overrun = true → (s.transact t).status.overrun = true) := by
    intro t
    rcases s.transact_cases t with ⟨_, h⟩ | ⟨l, _, ⟨_, h⟩ | ⟨_, h⟩⟩ <;> rw [h]
    · simp
    · rw [State.hostWrite_busy hb]; simp
    · rw [State.hostRead_frame]; simp
  unfold State.busyCycle State.serve
  split
  · rw [(ht _).1]; exact ⟨rfl, (ht _).2⟩
  · rw [(ht _).1]; exact ⟨rfl, (ht _).2⟩
  · exact ⟨rfl, id⟩
  · exact ⟨rfl, id⟩
  · exact ⟨rfl, id⟩
  · exact ⟨rfl, id⟩

end Sys2Proof.Machine
end

