-- ==== Sys2Proof/Laws/Window.lean ====
section
/-! SUPPORT. The window in the terms of the statements: the STATUS word by fields, the word at a mapped offset,
and the exposure set by offsets. -/

namespace Sys2Proof.Machine

open Sys2Proof.Spec

/-- The fields of the STATUS word (R23). -/
theorem State.statusWord_fields (s : State) : StatusLifecycle s s.statusWord ∧ StatusKey s s.statusWord := by
  rcases h : s.status with ⟨d, e, o, k, n⟩
  simp only [StatusLifecycle, StatusKey, State.statusWord, statusWordOf, h]
  refine ⟨⟨?_, ?_, ?_, ?_, ?_, ?_, ?_⟩, ?_, ?_⟩
  · simp only [BitVec.getLsbD_append]; cases s.isBusy <;> simp
  · simp only [BitVec.getLsbD_append]; cases d <;> simp
  · simp only [BitVec.getLsbD_append]; cases e <;> simp
  · simp only [BitVec.getLsbD_append]; cases o <;> simp
  · refine BitVec.eq_of_getLsbD_eq fun i hi => ?_
    simp only [BitVec.getLsbD_extractLsb', BitVec.getLsbD_append]
    simp only [show ¬ (4 + i < 1) by omega, show ¬ (4 + i - 1 < 1) by omega, show ¬ (4 + i - 1 - 1 < 1) by omega,
      show ¬ (4 + i - 1 - 1 - 1 < 1) by omega, show 4 + i - 1 - 1 - 1 - 1 = i by omega, hi, decide_true, if_true, if_false,
      Bool.true_and]
    rcases e with _ | e
    · rfl
    · cases e <;> rfl
  · refine BitVec.eq_of_getLsbD_eq fun i hi => ?_
    simp only [BitVec.getLsbD_extractLsb', BitVec.getLsbD_append]
    interval_cases i <;> simp
  · refine BitVec.eq_of_getLsbD_eq fun i hi => ?_
    simp only [BitVec.getLsbD_extractLsb', BitVec.getLsbD_append]
    interval_cases i <;> simp
  · simp only [BitVec.getLsbD_append]; cases k <;> simp
  · refine BitVec.eq_of_getLsbD_eq fun i hi => ?_
    simp only [BitVec.getLsbD_extractLsb', BitVec.getLsbD_append]
    interval_cases i <;> simp

/-- The fields of the KEYCFG word (R30). -/
theorem KeyCfg.toWord_fields (c : KeyCfg) :
    c.toWord.extractLsb' 0 9 = c.keysize ∧ c.toWord.extractLsb' 9 7 = 0 ∧ c.toWord.extractLsb' 16 6 = c.keylen ∧
      c.toWord.extractLsb' 22 10 = 0 := by
  refine ⟨?_, ?_, ?_, ?_⟩ <;>
    · refine BitVec.eq_of_getLsbD_eq fun i hi => ?_
      simp only [KeyCfg.toWord, BitVec.getLsbD_extractLsb', BitVec.getLsbD_append]
      interval_cases i <;> simp

/-- The fields of the RESULT word (R32). -/
theorem State.resultWord_fields (s : State) :
    s.resultWord.extractLsb' 0 8 = s.result ∧ s.resultWord.extractLsb' 8 24 = 0 := by
  refine ⟨?_, ?_⟩ <;>
    · refine BitVec.eq_of_getLsbD_eq fun i hi => ?_
      simp only [State.resultWord, BitVec.truncate_eq_setWidth, BitVec.getLsbD_extractLsb', BitVec.getLsbD_setWidth]
      interval_cases i <;> simp

/-- CAP reads BUF_BYTES (R33). -/
theorem State.capWord_toNat (s : State) : s.capWord.toNat = s.bufBytes := by
  have := s.capacity.isLt
  simp only [State.capWord, State.bufBytes, Config.bufBytes, BitVec.toNat_ofNat]
  omega

/-- The bytes of BUF in one of its bus words (R67). -/
theorem State.bufQuad_byte (s : State) (j k : Nat) (h : k < 4) : (s.bufQuad j).byte k = s.bufByte (4 * j + k) := by
  interval_cases k <;> rfl

/-- A word of KEY, by bytes (R67). -/
theorem State.key_byte (s : State) (j : Fin 8) (k : Nat) (h : k < 4) : s.key[j].byte k = s.keyByte (4 * j.val + k) := by
  simp [State.keyByte, show (4 * j.val + k) / 4 = j.val by omega, show (4 * j.val + k) % 4 = k by omega]

/-- A word of SCHED, by bytes (R67). -/
theorem State.sched_byte (s : State) (j : Fin 60) (k : Nat) (h : k < 4) :
    s.sched[j].byte k = s.schedByte (4 * j.val + k) := by
  simp [State.schedByte, State.schedWord, show (4 * j.val + k) / 4 = j.val by omega,
    show (4 * j.val + k) % 4 = k by omega]

/-- A word of a block, by bytes (R67). -/
theorem quad_byte (b : Block) (j : Fin 4) (k : Nat) (h : k < 4) : (b.quad j).byte k = b.byte (4 * j.val + k) := by
  simp [Block.byte, show (4 * j.val + k) / 4 = j.val by omega, show (4 * j.val + k) % 4 = k by omega]

/-- The word read at a mapped offset is the one the map gives (R61, R67). -/
theorem State.readLoc_holds {s : State} {a : Nat} {l : Loc} (h4 : a % 4 = 0) (h : locate s.capacity a = some l) :
    HoldsWord s a (s.readLoc l) := by
  rcases locate_cases h with ⟨rfl, rfl⟩ | ⟨rfl, rfl⟩ | ⟨rfl, rfl⟩ | ⟨rfl, rfl⟩ | ⟨rfl, rfl⟩ | ⟨rfl, rfl⟩ | ⟨rfl, rfl⟩ |
    ⟨h1, h2, j, hj, rfl⟩ | ⟨h1, h2, j, hj, rfl⟩ | ⟨h1, h2, j, hj, rfl⟩ | ⟨h1, h2, j, hj, rfl⟩ |
    ⟨h1, h2, j, hj, rfl⟩ | ⟨h1, h2, rfl⟩ <;> clear h
  · exact ⟨fun _ => rfl, by omega, by omega, by omega, by omega, by omega, by omega, fun k hk => by omega⟩
  · exact ⟨by omega, fun _ => rfl, by omega, by omega, by omega, by omega, by omega, fun k hk => by omega⟩
  · exact ⟨by omega, by omega, fun _ => s.statusWord_fields, by omega, by omega, by omega, by omega, fun k hk => by omega⟩
  · exact ⟨by omega, by omega, by omega, fun _ => s.keycfg.toWord_fields, by omega, by omega, by omega, fun k hk => by omega⟩
  · exact ⟨by omega, by omega, by omega, by omega, fun _ => rfl, by omega, by omega, fun k hk => by omega⟩
  · exact ⟨by omega, by omega, by omega, by omega, by omega, fun _ => s.resultWord_fields, by omega, fun k hk => by omega⟩
  · exact ⟨by omega, by omega, by omega, by omega, by omega, by omega, fun _ => s.capWord_toNat, fun k hk => by omega⟩
  all_goals
    refine ⟨by omega, by omega, by omega, by omega, by omega, by omega, by omega, fun k hk => ?_⟩
    simp only [State.readLoc, Quad.toWord_byte _ _ hk]
  · refine ⟨fun _ _ => ?_, by omega, by omega, by omega, by omega, by omega⟩
    rw [State.key_byte _ _ _ hk, show 4 * j.val + k = a - 0x20 + k by omega]
  · refine ⟨by omega, fun _ _ => ?_, by omega, by omega, by omega, by omega⟩
    rw [quad_byte _ _ _ hk, show 4 * j.val + k = a - 0x40 + k by omega]
  · refine ⟨by omega, by omega, fun _ _ => ?_, by omega, by omega, by omega⟩
    rw [quad_byte _ _ _ hk, show 4 * j.val + k = a - 0x50 + k by omega]
  · refine ⟨by omega, by omega, by omega, fun _ _ => ?_, by omega, by omega⟩
    rw [quad_byte _ _ _ hk, show 4 * j.val + k = a - 0x60 + k by omega]
  · refine ⟨by omega, by omega, by omega, by omega, fun _ _ => ?_, by omega⟩
    rw [State.sched_byte _ _ _ hk, show 4 * j.val + k = a - 0x100 + k by omega]
  · refine ⟨by omega, by omega, by omega, by omega, by omega, fun _ => ?_⟩
    rw [State.bufQuad_byte _ _ _ hk, show 4 * ((a - 0x1000) / 4) + k = a - 0x1000 + k by omega]

/-- A legal access to a mapped offset reaches a word (R61, R64). -/
theorem Transaction.target_of_mapped {s : State} {t : Transaction} (h : t.size = 2) (h4 : t.addr.toNat % 4 = 0)
    (hm : Mapped s t.addr.toNat) :
    ∃ l, t.target s.capacity = some l ∧ locate s.capacity t.addr.toNat = some l := by
  unfold Transaction.target
  rw [if_pos ⟨h, h4⟩]
  cases hl : locate s.capacity t.addr.toNat with
  | none => exact absurd hm ((locate_none h4).1 hl)
  | some l => exact ⟨l, rfl, rfl⟩

/-- STATUS stands at 0x08 and nowhere else (R61). -/
theorem locate_status {c : Config.Capacity} {a : Nat} {l : Loc} (h : locate c a = some l) :
    l = .status ↔ a = 0x08 := by
  rcases locate_cases h with ⟨h1, rfl⟩ | ⟨h1, rfl⟩ | ⟨h1, rfl⟩ | ⟨h1, rfl⟩ | ⟨h1, rfl⟩ | ⟨h1, rfl⟩ | ⟨h1, rfl⟩ |
    ⟨h1, h2, j, hj, rfl⟩ | ⟨h1, h2, j, hj, rfl⟩ | ⟨h1, h2, j, hj, rfl⟩ | ⟨h1, h2, j, hj, rfl⟩ |
    ⟨h1, h2, j, hj, rfl⟩ | ⟨h1, h2, rfl⟩ <;> simp <;> omega

/-- The exposure sets of R44 by offsets. -/
theorem exposes_at {c : Config.Capacity} {a : Nat} {l : Loc} {i : Instr} (h : locate c a = some l)
    (hl : l ≠ .status) (he : (Instr.commandClass i).exposes l = true) : ExposedAt i a := by
  rcases locate_cases h with ⟨h1, rfl⟩ | ⟨h1, rfl⟩ | ⟨h1, rfl⟩ | ⟨h1, rfl⟩ | ⟨h1, rfl⟩ | ⟨h1, rfl⟩ | ⟨h1, rfl⟩ |
    ⟨h1, h2, j, hj, rfl⟩ | ⟨h1, h2, j, hj, rfl⟩ | ⟨h1, h2, j, hj, rfl⟩ | ⟨h1, h2, j, hj, rfl⟩ |
    ⟨h1, h2, j, hj, rfl⟩ | ⟨h1, h2, rfl⟩ <;> cases i <;> first
    | exact absurd he Bool.false_ne_true
    | exact absurd rfl hl
    | exact h1
    | exact ⟨h1, h2⟩
    | exact .inl ⟨h1, h2⟩
    | exact .inr h1

end Sys2Proof.Machine
end

