-- ==== Sys2Proof/Tests/Slice0.lean ====
section
/-! SUPPORT. The model's own tests: ill-formed statements refused, words written out from the encoding, one-step
tests against the spec's vectors (`95_test_vectors.md`), and a witness for the hypotheses of every statement. -/

namespace Sys2Proof.Tests

open Sys2Proof.Machine Sys2Proof.Spec

/-! ## Helpers -/

/-- What a field of the next state is, if there is one. -/
def got {α : Type} (f : State → α) (o : Host.Outcome State Fault Refusal) : Option α :=
  match o with
  | .next t => some (f t)
  | .fault _ => none
  | .refused _ => none

/-- The block of a 128-bit number whose most significant byte is byte 0. -/
def blockOf (v : BitVec 128) : Block := Block.ofBytes fun i => v.extractLsb' (8 * (15 - i)) 8

/-- The bytes 00 01 .. 1f as the KEY register. -/
def countingKey : Vector Quad 8 :=
  Vector.ofFn fun j : Fin 8 =>
    ⟨BitVec.ofNat 8 (4 * j.val), BitVec.ofNat 8 (4 * j.val + 1), BitVec.ofNat 8 (4 * j.val + 2),
     BitVec.ofNat 8 (4 * j.val + 3)⟩

/-- A core after reset with KEYCFG, LEN and the key 00 01 .. written. -/
def configured (keysize : BitVec 9) (keylen : BitVec 6) (len : Word) : State :=
  { State.reset with keycfg := { keysize := keysize, keylen := keylen }, len := len, key := countingKey }

/-- The same with STATE loaded. -/
def loaded (v : BitVec 128) : State := { State.reset with st := blockOf v }

/-- The state after KEYEXP of the key 00 01 .., with STATE loaded. -/
def expanded (ks : KeySize) (v : BitVec 128) : State :=
  { (configured (BitVec.ofNat 9 ks.bits) (BitVec.ofNat 6 (ks.bits / 8)) 0).installSchedule ks with st := blockOf v }

/-- A core with one block in BUF. -/
def withBlock (s : State) (v : BitVec 128) : State := s.setBlock 0 (blockOf v)

/-- A command in flight. -/
def inFlight (w : Word) (left : Nat) (host : List HostEvent) : State :=
  { State.reset with cmd := w, phase := .busy, latency := left, host := host }

/-! ## WellFormed refuses each ill-formed statement (R97) -/

theorem test_wr_misaligned : (Stmt.wr 0x0022 0).wellFormed = false := by decide
theorem test_wr_beyond_window : (Stmt.wr 0x10000 0).wellFormed = false := by decide
theorem test_wr_value_too_wide : (Stmt.wr 0x0020 0x100000000).wellFormed = false := by decide
theorem test_rd_misaligned : (Stmt.rd 0x0009).wellFormed = false := by decide
theorem test_rd_beyond_window : (Stmt.rd 0x10000).wellFormed = false := by decide
theorem test_wrb_sched : (Stmt.wrb .sched 0 [1, 2, 3, 4]).wellFormed = false := by decide
theorem test_wrb_offset_on_key : (Stmt.wrb .key 4 [1, 2, 3, 4]).wellFormed = false := by decide
theorem test_wrb_buf_offset_misaligned : (Stmt.wrb .buf 2 [1, 2, 3, 4]).wellFormed = false := by decide
theorem test_wrb_partial_word : (Stmt.wrb .iv 0 [1, 2, 3]).wellFormed = false := by decide
theorem test_wrb_too_long : (Stmt.wrb .iv 0 (List.replicate 20 0)).wellFormed = false := by decide
theorem test_rdb_partial_word : (Stmt.rdb .state 6).wellFormed = false := by decide
theorem test_rdb_too_long : (Stmt.rdb .rk 20).wellFormed = false := by decide
theorem test_command_missing_operand : (Stmt.command .GFMUL [1]).wellFormed = false := by decide
theorem test_command_extra_operand : (Stmt.command .ENCRYPT [1]).wellFormed = false := by decide
theorem test_command_operand_too_wide : (Stmt.command .XTIME [256]).wellFormed = false := by decide
theorem test_wellformed_accepts :
    (Stmt.wr 0x000C 0x00100080).wellFormed = true ∧ (Stmt.wrb .buf 16 [1, 2, 3, 4]).wellFormed = true ∧
    (Stmt.rdb .sched 240).wellFormed = true ∧ (Stmt.command .GFMUL [0x57, 255]).wellFormed = true := by decide

/-! ## Words written out from the encoding: RSV B A OPC (R90, R92) -/

theorem test_decode_gfmul : decode 0b00000000_10000011_01010111_00000001 = .ok (.gfmul 0x57 0x83) := by rfl
theorem test_decode_xtime : decode 0b00000000_00000000_10000000_00000010 = .ok (.xtime 0x80) := by rfl
theorem test_decode_mul3 : decode 0b00000000_00000000_01010111_00000011 = .ok (.mul3 0x57) := by rfl
theorem test_decode_sbox : decode 0b00000000_00000000_01010011_00000100 = .ok (.sbox 0x53) := by rfl
theorem test_decode_invsbox : decode 0b00000000_00000000_11101101_00000101 = .ok (.invsbox 0xED) := by rfl
theorem test_decode_rcon : decode 0b00000000_00000000_00001010_00000110 = .ok (.rcon 10) := by rfl
theorem test_decode_numrounds : decode 0b00000000_00000000_00000000_00001000 = .ok .numrounds := by rfl
theorem test_decode_numkeywords : decode 0b00000000_00000000_00000000_00001001 = .ok .numkeywords := by rfl
theorem test_decode_keyexp : decode 0b00000000_00000000_00000000_00010000 = .ok .keyexp := by rfl
theorem test_decode_getrk : decode 0b00000000_00000000_00001110_00010001 = .ok (.getrk 14) := by rfl
theorem test_decode_addrk : decode 0b00000000_00000000_00000000_00100000 = .ok .addrk := by rfl
theorem test_decode_subbytes : decode 0b00000000_00000000_00000000_00100001 = .ok .subbytes := by rfl
theorem test_decode_invsubbytes : decode 0b00000000_00000000_00000000_00100010 = .ok .invsubbytes := by rfl
theorem test_decode_shiftrows : decode 0b00000000_00000000_00000000_00100011 = .ok .shiftrows := by rfl
theorem test_decode_invshiftrows : decode 0b00000000_00000000_00000000_00100100 = .ok .invshiftrows := by rfl
theorem test_decode_mixcolumns : decode 0b00000000_00000000_00000000_00100101 = .ok .mixcolumns := by rfl
theorem test_decode_invmixcolumns : decode 0b00000000_00000000_00000000_00100110 = .ok .invmixcolumns := by rfl
theorem test_decode_encrypt : decode 0b00000000_00000000_00000000_00110000 = .ok .encrypt := by rfl
theorem test_decode_decrypt : decode 0b00000000_00000000_00000000_00110001 = .ok .decrypt := by rfl
theorem test_decode_ecb_enc : decode 0b00000000_00000000_00000000_01000000 = .ok .ecbEnc := by rfl
theorem test_decode_ecb_dec : decode 0b00000000_00000000_00000000_01000001 = .ok .ecbDec := by rfl
theorem test_decode_cbc_enc : decode 0b00000000_00000000_00000000_01000010 = .ok .cbcEnc := by rfl
theorem test_decode_cbc_dec : decode 0b00000000_00000000_00000000_01000011 = .ok .cbcDec := by rfl
theorem test_decode_opcode_zero : decode 0x00000000 = .error .unknownOpcode := by rfl
theorem test_decode_opcode_hole : decode 0x00000007 = .error .unknownOpcode := by rfl
theorem test_decode_reserved : decode 0x01000030 = .error .reservedNonzero := by rfl
theorem test_decode_unused_a : decode 0x00000130 = .error .unusedOperandNonzero := by rfl
theorem test_decode_unused_b : decode 0x00010002 = .error .unusedOperandNonzero := by rfl
theorem test_decode_table_word : decodeTableWord 32 0x00000E11 = some (.getrk 14) := by rfl

/-- No two mnemonics share an opcode, so no word is picked by two rows (R92). -/
theorem test_opcodes_distinct : ∀ m n : Mnemonic, opcode m = opcode n → m = n := by
  intro m n
  cases m <;> cases n <;> decide

/-! ## One step per command, against the spec's vectors -/

/-- R130, 95 section 2.1. -/
theorem test_gfmul : got State.result (exec (.gfmul 0x57 0x83) State.reset) = some 0xC1 := by decide
theorem test_gfmul_ff : got State.result (exec (.gfmul 0xFF 0xFF) State.reset) = some 0x13 := by decide
/-- R131. -/
theorem test_xtime_reduces : got State.result (exec (.xtime 0x80) State.reset) = some 0x1B := by decide
theorem test_xtime_plain : got State.result (exec (.xtime 0x7F) State.reset) = some 0xFE := by decide
/-- R132. -/
theorem test_mul3 : got State.result (exec (.mul3 0xFF) State.reset) = some 0x1A := by decide
/-- R133, R134. -/
theorem test_sbox : got State.result (exec (.sbox 0xC9) State.reset) = some 0xDD := by decide
theorem test_sbox_ends : sboxValue 0x00 = 0x63 ∧ sboxValue 0xFF = 0x16 := by decide
theorem test_invsbox : got State.result (exec (.invsbox 0x80) State.reset) = some 0x3A := by decide
/-- R135: the last entry, and the two indices beside the ROM. -/
theorem test_rcon_last : got State.result (exec (.rcon 14) State.reset) = some 0x4D := by decide
theorem test_rcon_outside :
    got (fun t => t.status.error) (exec (.rcon 0) State.reset) = some (some .rconIndex) ∧
    got (fun t => t.status.error) (exec (.rcon 15) State.reset) = some (some .rconIndex) := by decide
/-- R154, R155: KEYLEN is not checked. -/
theorem test_numrounds : got State.result (exec .numrounds (configured 192 0 0)) = some 12 := by decide
theorem test_numkeywords : got State.result (exec .numkeywords (configured 256 0 0)) = some 8 := by decide
theorem test_numrounds_reset : got State.statusWord (exec .numrounds State.reset) = some 0x00000016 := by decide
/-- R152: STATUS and two round keys of the AES-128 schedule. -/
theorem test_keyexp_status : got State.statusWord (exec .keyexp (configured 128 16 0)) = some 0x0000A102 := by
  decide +kernel
theorem test_keyexp_round_keys :
    got (fun t => (t.roundKey 1, t.roundKey 10)) (exec .keyexp (configured 128 16 0)) =
      some (blockOf 0xd6aa74fdd2af72fadaa678f1d6ab76fe, blockOf 0x13111d7fe3944a17f307a78b4d2b30c5) := by
  decide +kernel
/-- R151, 95 section 2.2: the last round keys for the longer keys. -/
theorem test_keyexp_192 :
    got (fun t => t.roundKey 12) (exec .keyexp (configured 192 24 0)) =
      some (blockOf 0xa4970a331a78dc09c418c271e3a41d5d) := by decide +kernel
theorem test_keyexp_256 :
    got (fun t => t.roundKey 14) (exec .keyexp (configured 256 32 0)) =
      some (blockOf 0x24fc79ccbf0979e9371ac23c6d68de36) := by decide +kernel
/-- R153: ERR_NO_KEY from reset, ERR_ROUND_RANGE above NR. -/
theorem test_getrk_no_key : got State.statusWord (exec (.getrk 0) State.reset) = some 0x00000066 := by decide
theorem test_getrk_range : got State.statusWord (exec (.getrk 11) (expanded .k128 0)) = some 0x0000A176 := by
  decide +kernel
/-- R170. -/
theorem test_addrk :
    got State.st (exec .addrk { loaded 0x00112233445566778899aabbccddeeff with
      rk := blockOf 0x000102030405060708090a0b0c0d0e0f }) =
      some (blockOf 0x00102030405060708090a0b0c0d0e0f0) := by decide
/-- R171 to R174. -/
theorem test_subbytes :
    got State.st (exec .subbytes (loaded 0x000102030405060708090a0b0c0d0e0f)) =
      some (blockOf 0x637c777bf26b6fc53001672bfed7ab76) := by decide +kernel
theorem test_invsubbytes :
    got State.st (exec .invsubbytes (loaded 0x000102030405060708090a0b0c0d0e0f)) =
      some (blockOf 0x52096ad53036a538bf40a39e81f3d7fb) := by decide +kernel
theorem test_shiftrows :
    got State.st (exec .shiftrows (loaded 0x000102030405060708090a0b0c0d0e0f)) =
      some (blockOf 0x00050a0f04090e03080d02070c01060b) := by decide +kernel
theorem test_invshiftrows :
    got State.st (exec .invshiftrows (loaded 0x000102030405060708090a0b0c0d0e0f)) =
      some (blockOf 0x000d0a0704010e0b0805020f0c090603) := by decide +kernel
/-- R175, R176. -/
theorem test_mixcolumns :
    got State.st (exec .mixcolumns (loaded 0xd4bf5d30e0b452aeb84111f11e2798e5)) =
      some (blockOf 0x046681e5e0cb199a48f8d37a2806264c) := by decide +kernel
theorem test_invmixcolumns :
    got State.st (exec .invmixcolumns (loaded 0x00112233445566778899aabbccddeeff)) =
      some (blockOf 0xaaff88ddeebbcc992277005566334411) := by decide +kernel
/-- R190, R191, R194. -/
theorem test_encrypt :
    got State.st (exec .encrypt (expanded .k128 0x00112233445566778899aabbccddeeff)) =
      some (blockOf 0x69c4e0d86a7b0430d8cdb78070b4c55a) := by decide +kernel
theorem test_encrypt_256 :
    got State.st (exec .encrypt (expanded .k256 0x00112233445566778899aabbccddeeff)) =
      some (blockOf 0x8ea2b7ca516745bfeafc49904b496089) := by decide +kernel
theorem test_decrypt_192 :
    got State.st (exec .decrypt (expanded .k192 0xdda97ca4864cdfe06eaf70a0ec0d7191)) =
      some (blockOf 0x00112233445566778899aabbccddeeff) := by decide +kernel
/-- R41: at the end of ENCRYPT's rounds the round index is Nr, at the end of DECRYPT's it is 0. -/
theorem test_round_index_ends :
    (expanded .k192 0).runEncrypt.work.roundIndex = 12 ∧ (expanded .k192 0).runDecrypt.work.roundIndex = 0 := by
  exact ⟨rfl, rfl⟩

theorem test_decrypt_no_key : got State.statusWord (exec .decrypt State.reset) = some 0x00000066 := by decide

/-- The key and plaintext block 0 of 95 section 2.5. -/
def nist (len : Word) (v : BitVec 128) : State :=
  withBlock { State.reset with
    keycfg := { keysize := 128, keylen := 16 }
    len := len
    key := #v[⟨0x2b, 0x7e, 0x15, 0x16⟩, ⟨0x28, 0xae, 0xd2, 0xa6⟩, ⟨0xab, 0xf7, 0x15, 0x88⟩, ⟨0x09, 0xcf, 0x4f, 0x3c⟩,
      default, default, default, default]
    iv := blockOf 0x000102030405060708090a0b0c0d0e0f } v

/-- R201 to R204. -/
theorem test_ecb_enc :
    got (fun t => t.block 0) (exec .ecbEnc (nist 16 0x6bc1bee22e409f96e93d7e117393172a)) =
      some (blockOf 0x3ad77bb40d7a3660a89ecaf32466ef97) := by decide +kernel
theorem test_ecb_dec :
    got (fun t => t.block 0) (exec .ecbDec (nist 16 0x3ad77bb40d7a3660a89ecaf32466ef97)) =
      some (blockOf 0x6bc1bee22e409f96e93d7e117393172a) := by decide +kernel
theorem test_cbc_enc :
    got (fun t => t.block 0) (exec .cbcEnc (nist 16 0x6bc1bee22e409f96e93d7e117393172a)) =
      some (blockOf 0x7649abac8119b246cee98e9b12e9197d) := by decide +kernel
theorem test_cbc_dec :
    got (fun t => t.block 0) (exec .cbcDec (nist 16 0x7649abac8119b246cee98e9b12e9197d)) =
      some (blockOf 0x6bc1bee22e409f96e93d7e117393172a) := by decide +kernel
/-- R204: the original ciphertext of block 0, not the plaintext written over it, goes into block 1. -/
theorem test_cbc_dec_second_block :
    got (fun t => t.block 1) (exec .cbcDec ((nist 32 0x7649abac8119b246cee98e9b12e9197d).setBlock 1
      (blockOf 0x5086cb9b507219ee95db113a917678b2))) =
      some (blockOf 0xae2d8a571e03ac9c9eb76fac45af8e51) := by decide +kernel
/-- R209: the same where the core processes blocks concurrently. -/
theorem test_cbc_dec_parallel :
    got (fun t => t.block 1) (exec .cbcDec ({ nist 32 0x7649abac8119b246cee98e9b12e9197d with
      ecbParallel := true }.setBlock 1 (blockOf 0x5086cb9b507219ee95db113a917678b2))) =
      some (blockOf 0xae2d8a571e03ac9c9eb76fac45af8e51) := by decide +kernel
/-- R200, R222: one state for each error, in the order of the checks. -/
theorem test_mode_errors :
    got State.statusWord (exec .ecbEnc (configured 100 16 20)) = some 0x00000016 ∧
    got State.statusWord (exec .ecbEnc (configured 128 16 20)) = some 0x00000026 ∧
    got State.statusWord (exec .cbcEnc (configured 128 24 32)) = some 0x00000036 ∧
    got State.statusWord (exec .ecbEnc (configured 128 16 4112)) = some 0x00000086 := by decide
/-- R205. -/
theorem test_mode_zero_length : got State.statusWord (exec .cbcDec (configured 128 16 0)) = some 0x0000A102 := by
  decide +kernel

/-! ## The window -/

/-- R67, R68: the second word of the plaintext block. -/
theorem test_read_state :
    ((loaded 0x00112233445566778899aabbccddeeff).transact (readAt 0x0054)).rsp = some (.okayData 0x77665544) := by
  decide
/-- R30: reserved bits of KEYCFG are not stored. -/
theorem test_write_keycfg :
    (State.reset.transact (writeAt 0x000C 0xFFFFFFFF)).keycfg.toWord = 0x003F01FF := by decide
/-- R33: CAP at the reference capacity. -/
theorem test_read_cap : (State.reset.transact (readAt 0x0018)).rsp = some (.okayData 4096) := by decide
/-- R67: bytes of BUF, little-endian. -/
theorem test_write_buf : (State.reset.transact (writeAt 0x1004 0xDDCCBBAA)).bufByte 5 = 0xBB := by decide
/-- R65: the first word above BUF, and the hole at 0x1C. -/
theorem test_reserved :
    (State.reset.transact (readAt 0x2000)).rsp = some (.error 0) ∧
    (State.reset.transact (readAt 0x001C)).rsp = some (.error 0) := by decide
/-- R48: a write while busy, and STATUS after it. -/
theorem test_write_while_busy :
    ((inFlight 0x30 5 []).transact (writeAt 0x0010 7)).len = 0 ∧
    (((inFlight 0x30 5 []).transact (writeAt 0x0010 7)).transact (readAt 0x0008)).rsp =
      some (.okayData 0x00000009) := by decide

/-! ## The step -/

/-- withFetchWord from reset: the next step runs the command. -/
theorem test_fetch_word : got State.result (step (State.reset.withFetchWord 32 0x00835701)) = some 0xC1 := by decide
/-- R94: an illegal word. -/
theorem test_illegal_word : got State.statusWord (step (State.reset.withFetchWord 32 0x01000030)) = some 0x00000046 := by
  decide
/-- R46: acceptance. -/
theorem test_accept :
    got (fun t => (t.cmd, t.statusWord))
      (step { State.reset with host := [.transact (writeAt 0x0004 0x30)] }) = some (0x30, 0x00000001) := by decide
/-- R231: the completion, then the transaction of its edge. -/
theorem test_completion_first :
    got (fun t => (t.result, t.host.length)) (step (inFlight 0x00001002 0 [.transact (writeAt 0x0010 7)])) =
      some (0x20, 1) := by decide
/-- R260, U13. -/
theorem test_power_up_stuck :
    (match step { State.reset with host := [.powerUp] } with
      | .next t => (match step t with | .fault .undefinedBeforeReset => true | _ => false)
      | _ => false) = true := by decide
/-- R97: GFMUL assembles to its word and WAIT. -/
theorem test_assemble_gfmul :
    assemble (.command .GFMUL [0x57, 0x83]) = some [.transact (writeAt 0x0004 0x00835701), .wait] := by decide
/-- R97, R68: WRB writes a word at a time. -/
theorem test_assemble_wrb :
    assemble (.wrb .state 0 [0x00, 0x11, 0x22, 0x33, 0x44, 0x55, 0x66, 0x77]) =
      some [.transact (writeAt 0x0050 0x33221100), .transact (writeAt 0x0054 0x77665544)] := by decide
/-- R98: SETKEY192 and WHITEN. -/
theorem test_assemble_pseudo :
    assemble (.pseudo .setkey192) = some [.transact (writeAt 0x000C 0x001800C0)] ∧
    assemble (.pseudo (.whiten 3)) = some [.transact (writeAt 0x0004 0x00000311), .wait,
      .transact (writeAt 0x0004 0x00000020), .wait] := by decide

/-! ## Witnesses: each statement's hypotheses, met by a concrete state -/


/-- The commands are due: no reset pending, one command at its completion. -/
def Due (s : State) (i : Instr) : Prop :=
  s.phase = .busy ∧ s.latency = 0 ∧ s.awaitingReset = false ∧ s.undisturbed 1 ∧ decode s.cmd = .ok i

theorem wit_ALegalWordIsTheEncodingOfItsCommand : decode (0x00835701 : Word) = .ok (.gfmul 0x57 0x83) := by rfl

theorem wit_MaskAndMatchSelectTheMnemonic : (0x00835701 : Word) &&& Spec.mask .GFMUL = opcode .GFMUL := by decide

theorem wit_MnemonicStatementAssemblesToItsWord :
    (assemble (.command .GFMUL [0x57, 0xFF])).isSome = true ∧ (assemble (.command .RCON [0])).isSome = true ∧
    (assemble (.command .CBC_DEC [])).isSome = true ∧ (assemble (.command .RCON [256])).isSome = false := by decide

theorem wit_StepRunsTheDecodedCommand : Due (State.reset.withFetchWord 32 0x00000030) .encrypt :=
  ⟨rfl, rfl, rfl, fun _ h => (by cases h), rfl⟩

theorem wit_IllegalWordCompletesWithErrIllegal :
    State.reset.phase = .idle ∧ (State.reset.withFetchWord 32 0x01000030).phase = .busy ∧
    (State.reset.withFetchWord 32 0x01000030).latency = 0 ∧
    (State.reset.withFetchWord 32 0x01000030).awaitingReset = false ∧
    (State.reset.withFetchWord 32 0x01000030).undisturbed 1 ∧
    decode (State.reset.withFetchWord 32 0x01000030).cmd = .error .reservedNonzero :=
  ⟨rfl, rfl, rfl, rfl, fun _ h => (by cases h), rfl⟩

theorem wit_WriteToCmdIsAcceptedWhenIdle :
    State.reset.isBusy = false ∧ (inFlight 0x30 5 []).isBusy = true := by decide

/-- With a write, a WAIT and nothing more coming from the host. -/
theorem wit_BusyPeriodKeepsEveryOperand :
    (inFlight 0x30 3 [.transact (writeAt 0x0010 7), .wait]).phase = .busy ∧
    (inFlight 0x30 3 [.transact (writeAt 0x0010 7), .wait]).latency = 3 ∧
    (inFlight 0x30 3 [.transact (writeAt 0x0010 7), .wait]).awaitingReset = false ∧
    (inFlight 0x30 3 [.transact (writeAt 0x0010 7), .wait]).undisturbed 3 ∧
    { inFlight 0x30 3 [] with status := { State.reset.status with overrun := true } }.status.overrun = true := by
  refine ⟨rfl, rfl, rfl, ?_, rfl⟩
  unfold State.undisturbed
  decide

theorem wit_EveryAcceptedCommandCompletes :
    (inFlight 0x30 0 [.wait]).phase = .busy ∧ (inFlight 0x30 0 [.wait]).latency = 0 ∧
    (inFlight 0x30 0 [.wait]).awaitingReset = false ∧
    (inFlight 0x30 0 [.wait]).undisturbed 1 := by
  refine ⟨rfl, rfl, rfl, ?_⟩
  unfold State.undisturbed
  decide

/-- Every error of the table, and for each row a state in which no check fails. -/
theorem wit_FirstFailingCheckDecides :
    FirstError State.reset (.rcon 0) .rconIndex ∧ FirstError State.reset (.rcon 15) .rconIndex ∧
    FirstError State.reset .numrounds .keysize ∧ FirstError State.reset .numkeywords .keysize ∧
    FirstError State.reset .keyexp .keysize ∧ FirstError (configured 128 24 0) .keyexp .keylen ∧
    FirstError State.reset (.getrk 0) .noKey ∧ FirstError (expanded .k128 0) (.getrk 11) .roundRange ∧
    FirstError State.reset .encrypt .noKey ∧ FirstError State.reset .decrypt .noKey ∧
    FirstError (configured 100 16 20) .ecbEnc .keysize ∧ FirstError (configured 128 24 20) .ecbDec .align ∧
    FirstError (configured 128 24 4112) .cbcEnc .keylen ∧ FirstError (configured 128 16 4112) .cbcDec .lenRange := by
  refine ⟨?_, ?_, ?_, ?_, ?_, ?_, ?_, ?_, ?_, ?_, ?_, ?_, ?_, ?_⟩ <;>
    simp only [FirstError, BadKeySize, BadKeyLen] <;> decide

theorem wit_CommandsWriteOnlyTheirWriteSet :
    (∀ e, ¬ FirstError State.reset (.gfmul 2 3) e) ∧ (∀ e, ¬ FirstError State.reset (.rcon 14) e) ∧
    (∀ e, ¬ FirstError (configured 128 16 0) .keyexp e) ∧ (∀ e, ¬ FirstError (expanded .k128 0) (.getrk 10) e) ∧
    (∀ e, ¬ FirstError State.reset .addrk e) ∧ (∀ e, ¬ FirstError (expanded .k256 0) .encrypt e) ∧
    (∀ e, ¬ FirstError (configured 256 32 4096) .cbcDec e) := by
  simp only [FirstError, BadKeySize, BadKeyLen]
  refine ⟨?_, ?_, ?_, ?_, ?_, ?_, ?_⟩ <;> intro e <;> cases e <;> decide +kernel

theorem wit_NoCommandWritesTheHostsRegisters :
    ∃ t, exec (.xtime 0x80) State.reset = .next t := ⟨_, rfl⟩

/-- KEYEXP, due, changes KEYVALID. -/
theorem wit_OnlyKeyExpansionChangesTheSchedule :
    ({ configured 128 16 0 with cmd := 0x10, phase := .busy, latency := 0 } : State).undisturbed 1 ∧
    ∃ t, step { configured 128 16 0 with cmd := 0x10, phase := .busy, latency := 0 } = .next t ∧
      t.status.keyValid ≠ ({ configured 128 16 0 with cmd := 0x10, phase := .busy, latency := 0 } : State).status.keyValid := by
  refine ⟨fun _ h => (by cases h), _, rfl, ?_⟩
  decide

/-- One witness for each clause: a reset, a due completion, a transaction while idle and while busy, and the same
for no transaction. -/
theorem wit_ResetThenCompletionThenTransaction :
    (inFlight 0x30 2 [.reset, .wait]).host = [.reset, .wait] ∧
    ((inFlight 0x00001002 0 [.wait]).undisturbed 1 ∧ (inFlight 0x00001002 0 [.wait]).phase = .busy ∧
      (inFlight 0x00001002 0 [.wait]).latency = 0 ∧
      ∃ t, step (inFlight 0x00001002 0 [.wait]) = .next t) ∧
    (∀ s ∈ [{ State.reset with host := [.transact (writeAt 0x0004 0x30), .wait] },
        inFlight 0x30 1 [.transact (writeAt 0x0004 0x30), .wait]],
      s.host = [.transact (writeAt 0x0004 0x30), .wait] ∧ s.awaitingReset = false ∧
        (s.phase = .idle ∨ s.phase = .busy ∧ s.latency = 0 + 1)) ∧
    ∀ s ∈ [State.reset, { State.reset with host := [.quiet, .wait] }, inFlight 0x30 1 [],
        inFlight 0x30 1 [.quiet, .wait]],
      (s.host = [] ∨ s.host.head? = some .quiet) ∧ s.awaitingReset = false ∧
        (s.phase = .idle ∨ s.phase = .busy ∧ s.latency = 0 + 1) := by
  refine ⟨rfl, ⟨?_, rfl, rfl, _, rfl⟩, ?_, ?_⟩
  · unfold State.undisturbed
    decide
  · simp only [List.mem_cons, List.not_mem_nil, or_false]
    rintro s (rfl | rfl) <;> decide
  · simp only [List.mem_cons, List.not_mem_nil, or_false]
    rintro s (rfl | rfl | rfl | rfl) <;> decide

theorem wit_ResetGivesEveryRegisterItsValue : (inFlight 0x42 7 [.reset]).host = [.reset] := rfl

/-- Once with nothing after the power-up, once with a reset. -/
theorem wit_PowerUpIsStuckUntilReset :
    (inFlight 0x42 7 [.powerUp]).host = [.powerUp] ∧
    (∃ t, step (inFlight 0x42 7 [.powerUp]) = .next t ∧ t.undisturbed 1) ∧
    (inFlight 0x42 7 [.powerUp, .reset]).host = .powerUp :: .reset :: [] :=
  ⟨rfl, ⟨_, rfl, fun _ h => (by cases h)⟩, rfl⟩

/-- A narrow access, a misaligned one, and both ends of every reserved range at the reference capacity. -/
theorem wit_BusErrorChangesNothing :
    ({ readAt 0x0000 with size := 1 } : Transaction).size ≠ 2 ∧ (readAt 0x0006).addr.toNat % 4 ≠ 0 ∧
    ∀ a ∈ [0x1C, 0x70, 0xFC, 0x1F0, 0xFFC, 0x2000, 0xFFFC], ¬ Mapped State.reset a := by
  unfold Mapped
  decide

/-- Both ends of every mapped range at the reference capacity. -/
theorem wit_IdleReadReturnsTheMappedWord :
    State.reset.phase = .idle ∧ (readAt 0x0018).write = false ∧ (readAt 0x0018).size = 2 ∧
    ∀ a ∈ [0x00, 0x04, 0x08, 0x0C, 0x10, 0x14, 0x18, 0x20, 0x3C, 0x40, 0x4C, 0x50, 0x5C, 0x60, 0x6C, 0x100, 0x1EC, 0x1000,
      0x1FFC], a % 4 = 0 ∧ Mapped State.reset a := by
  unfold Mapped
  decide

/-- Busy with SBOX: STATUS is no part of its exposure set, 0x10 is not, 0x14 is. -/
theorem wit_AccessesWhileBusy :
    (inFlight 0x00005304 5 []).isBusy = true ∧ (inFlight 0x00005304 5 []).LifecycleOk ∧
    decode (inFlight 0x00005304 5 []).cmd = .ok (.sbox 0x53) ∧ ¬ ExpandsKey (.sbox 0x53) ∧
    ¬ ExposedAt (.sbox 0x53) 0x10 ∧ ExposedAt (.sbox 0x53) 0x14 ∧
    ¬ Mapped (inFlight 0x00005304 5 []) 0x1C ∧
    ∀ a ∈ [0x00, 0x08, 0x10, 0x14, 0x1FFC], Mapped (inFlight 0x00005304 5 []) a := by
  refine ⟨rfl, ⟨fun _ => rfl, fun _ => rfl⟩, rfl, ?_⟩
  unfold Mapped ExpandsKey ExposedAt
  decide

/-- Both ends of each array of the write clauses. -/
theorem wit_IdleWriteStoresFourBytes :
    State.reset.phase = .idle ∧ (writeAt 0x0020 1).write = true ∧ (writeAt 0x0020 1).size = 2 ∧
    (∀ a ∈ [0x20, 0x3C], a % 4 = 0 ∧ 0x20 ≤ a ∧ a < 0x40) ∧ (∀ a ∈ [0x40, 0x4C], a % 4 = 0 ∧ 0x40 ≤ a ∧ a < 0x50) ∧
    (∀ a ∈ [0x50, 0x5C], a % 4 = 0 ∧ 0x50 ≤ a ∧ a < 0x60) ∧ (∀ a ∈ [0x60, 0x6C], a % 4 = 0 ∧ 0x60 ≤ a ∧ a < 0x70) ∧
    (∀ a ∈ [0x1000, 0x1FFC], a % 4 = 0 ∧ 0x1000 ≤ a ∧ a < 0x1000 + State.reset.bufBytes) := by decide

theorem wit_IdleWriteToKeycfgAndLen : State.reset.phase = .idle := rfl

theorem wit_WritesToReadOnlyOffsetsAreIgnored :
    State.reset.isBusy = false ∧ (inFlight 0x30 1 []).isBusy = true ∧
    ∀ a ∈ [0x00, 0x08, 0x14, 0x18, 0x100, 0x1EC],
      a % 4 = 0 ∧ (a = 0x00 ∨ a = 0x08 ∨ a = 0x14 ∨ a = 0x18 ∨ (0x100 ≤ a ∧ a < 0x1F0)) := by decide

/-- One write per kind of location, and a reserved one. -/
theorem wit_IdleWritesButToCmdAreIdempotent :
    State.reset.phase = .idle ∧ State.reset.BufOk ∧
    ∀ a ∈ [0x0000, 0x000C, 0x0010, 0x003C, 0x0040, 0x0050, 0x0060, 0x0070, 0x0100, 0x1FFC, 0x2000],
      (writeAt (BitVec.ofNat 16 a) 0xDDCCBBAA).write = true ∧ (writeAt (BitVec.ofNat 16 a) 0xDDCCBBAA).addr ≠ 0x0004 := by
  refine ⟨rfl, ⟨List.Pairwise.nil, fun _ h => (by cases h)⟩, ?_⟩
  decide

theorem wit_WaitEndsOnlyWhenNotBusy :
    (inFlight 0x30 1 [.wait]).host = [.wait] ∧ (inFlight 0x30 1 [.wait]).awaitingReset = false ∧
    (inFlight 0x30 1 [.wait]).isBusy = true ∧ (inFlight 0x30 1 [.wait]).phase = .busy ∧
    (inFlight 0x30 1 [.wait]).latency = 0 + 1 ∧
    ({ State.reset with host := [.wait] } : State).awaitingReset = false ∧
    ({ State.reset with host := [.wait] } : State).isBusy = false := by decide

theorem wit_EveryStepKeepsTheInvariant : State.reset.Inv ∧ ∃ t, step State.reset = .next t :=
  ⟨⟨⟨List.Pairwise.nil, fun _ h => (by cases h)⟩,
    fun _ => ⟨⟨fun h => (by cases h), fun _ => rfl⟩, fun h => (by cases h), fun _ => rfl⟩⟩, _, rfl⟩

theorem wit_EcbParallelismDoesNotChangeTheResult : ∃ t, step (inFlight 0x41 0 []) = .next t := ⟨_, rfl⟩

theorem wit_NoStepChangesTheCapacity : ∃ t, step (inFlight 0x42 7 [.powerUp]) = .next t := ⟨_, rfl⟩

theorem wit_FieldMultiplicationObeysTheFieldLaws : (0x53 : Byte) ≠ 0 ∧ gfmul 0x53 0xCA = 1 := by decide

theorem wit_SboxGivesTheAffineMapOfTheInverse : IsFieldInverse 0x00 0x00 ∧ IsFieldInverse 0x53 0xCA := by
  unfold IsFieldInverse
  decide

/-- Both ends of the index range and of the ranges beside it. -/
theorem wit_RconGivesPowersOfTwoOrAnIndexError :
    (∀ i ∈ [1, 14], 1 ≤ (BitVec.ofNat 8 i).toNat ∧ (BitVec.ofNat 8 i).toNat ≤ 14) ∧
    ∀ i ∈ [0, 15, 255], (BitVec.ofNat 8 i).toNat = 0 ∨ 14 < (BitVec.ofNat 8 i).toNat := by
  decide

theorem wit_NumroundsAndNumkeywordsFollowTheKeySize :
    (configured 128 0 0).keycfg.keysize.toNat = 128 ∧ (configured 192 0 0).keycfg.keysize.toNat = 192 ∧
    (configured 256 0 0).keycfg.keysize.toNat = 256 ∧ BadKeySize (configured 0 0 0) ∧ BadKeySize (configured 511 0 0) := by
  unfold BadKeySize
  decide

theorem wit_KeyexpInstallsTheScheduleOfTheKey :
    KeyReady (configured 128 16 0) .k128 ∧ KeyReady (configured 192 24 0) .k192 ∧ KeyReady (configured 256 32 0) .k256 ∧
    BadKeySize State.reset ∧ ¬ BadKeySize (configured 128 24 0) ∧ BadKeyLen (configured 128 24 0) := by
  unfold KeyReady BadKeySize BadKeyLen
  decide

theorem wit_TheScheduleBeginsWithTheKey : KeyReady (configured 192 24 0) .k192 := by
  unfold KeyReady
  decide

/-- The first and the last round key, the first index above, and no key at all. -/
theorem wit_GetrkCopiesARoundKeyOrFails :
    (expanded .k128 0).status.keyValid = true ∧ (0 : Byte).toNat ≤ (expanded .k128 0).status.nr.toNat ∧
    (10 : Byte).toNat ≤ (expanded .k128 0).status.nr.toNat ∧ (expanded .k128 0).status.nr.toNat < (11 : Byte).toNat ∧
    State.reset.status.keyValid = false := by decide

theorem wit_EncryptAppliesTheCipherToTheState :
    (expanded .k192 0).status.keyValid = true ∧ State.reset.status.keyValid = false := by decide

theorem wit_DecryptAppliesTheInverseCipherToTheState :
    (expanded .k192 0).status.keyValid = true ∧ State.reset.status.keyValid = false := by decide

theorem wit_DecryptInvertsEncrypt : (expanded .k256 0).status.keyValid = true := by decide

theorem wit_PrimitiveSequenceEqualsTheCipherCommand :
    (expanded .k128 0).status.keyValid = true ∧ (encryptProgram (expanded .k128 0).status.nr.toNat).length = 51 := by
  decide

/-- For each key size, the key 00 01 .. and the plaintext of R194. -/
theorem wit_KnownAnswersAreReproduced :
    ∀ p ∈ [((128 : BitVec 9), (16 : BitVec 6), KeySize.k128), (192, 24, .k192), (256, 32, .k256)],
      KeyReady { configured p.1 p.2.1 0 with st := blockOf 0x00112233445566778899aabbccddeeff } p.2.2 ∧
      (∀ k < 4 * p.2.2.numKeyWords,
        ({ configured p.1 p.2.1 0 with st := blockOf 0x00112233445566778899aabbccddeeff } : State).keyByte k =
          BitVec.ofNat 8 k) ∧
      ∀ k < 16, ({ configured p.1 p.2.1 0 with st := blockOf 0x00112233445566778899aabbccddeeff } : State).st.byte k =
        BitVec.ofNat 8 (0x11 * k) := by
  unfold KeyReady
  decide +kernel

theorem wit_EcbTransformsEveryBlockOnItsOwn :
    ModeReady (configured 128 16 32) .k128 ∧ 16 * 1 < (configured 128 16 32).len.toNat := by
  unfold ModeReady KeyReady
  decide

theorem wit_CbcEncChainsWithThePreviousCiphertext :
    ModeReady (configured 192 24 32) .k192 ∧ 0 < (configured 192 24 32).len.toNat ∧
    16 * (0 + 1) < (configured 192 24 32).len.toNat := by
  unfold ModeReady KeyReady
  decide

theorem wit_CbcDecAddsThePreviousOriginalCiphertext :
    ModeReady (configured 256 32 32) .k256 ∧ 0 < (configured 256 32 32).len.toNat ∧
    16 * (0 + 1) < (configured 256 32 32).len.toNat := by
  unfold ModeReady KeyReady
  decide

theorem wit_ZeroLengthInstallsTheScheduleOnly :
    Instr.cbcDec ∈ [Instr.ecbEnc, .ecbDec, .cbcEnc, .cbcDec] ∧ (configured 128 16 0).len = 0 ∧
    KeyReady (configured 128 16 0) .k128 ∧ BadKeySize State.reset ∧ State.reset.len = 0 ∧
    ¬ BadKeySize (configured 128 24 0) ∧ BadKeyLen (configured 128 24 0) := by
  unfold KeyReady BadKeySize BadKeyLen
  decide

theorem wit_WrongIvSpoilsTheFirstBlockOnly :
    ModeReady (configured 128 16 32) .k128 ∧ 15 < (configured 128 16 32).len.toNat ∧
    16 < (configured 128 16 32).len.toNat := by
  unfold ModeReady KeyReady
  decide

theorem wit_EcbMapsEqualBlocksToEqualBlocks :
    ModeReady (nist 32 0) .k128 ∧
    ((nist 32 0).setBlock 1 (blockOf 0)).block 0 = ((nist 32 0).setBlock 1 (blockOf 0)).block 1 := by
  unfold ModeReady KeyReady
  decide +kernel

theorem wit_ModesRoundTrip : ModeReady (configured 256 32 4096) .k256 := by
  unfold ModeReady KeyReady
  decide

end Sys2Proof.Tests
end

section
/-! PROOFS. What a command's checks decide, and what a command that passes them writes (`10_state.md` R43,
`60_exceptions.md` R222, R223). -/

namespace Sys2Proof.Machine

open Sys2Proof.Spec

/-! ## The checks of R222 as the model makes them -/

/-- The indices that are no entry of the round-constant ROM (R126). -/
theorem rcon?_eq_none_iff {n : Nat} : rcon? n = none ↔ n = 0 ∨ 14 < n := by
  cases n with
  | zero => simp [rcon?]
  | succ n => simp [rcon?, rconRom, Nat.succ_le_iff]

theorem badKeySize_iff_ne_bits {s : State} : BadKeySize s ↔ ∀ ks : KeySize, s.keycfg.keysize.toNat ≠ ks.bits := by
  refine ⟨fun ⟨h1, h2, h3⟩ ks => ?_, fun h => ⟨h .k128, h .k192, h .k256⟩⟩
  cases ks
  · exact h1
  · exact h2
  · exact h3

/-- CheckKeySize fails with ERR_KEYSIZE, or passes with the size KEYCFG declares (R156). -/
theorem State.checkKeySize_cases (s : State) :
    (BadKeySize s ∧ s.checkKeySize = .error .keysize) ∨
      ∃ ks : KeySize, ¬ BadKeySize s ∧ s.keycfg.keysize.toNat = ks.bits ∧ s.checkKeySize = .ok ks := by
  by_cases h : BadKeySize s
  · exact .inl ⟨h, State.checkKeySize_error (badKeySize_iff_ne_bits.1 h)⟩
  · obtain ⟨ks, hks⟩ : ∃ ks : KeySize, s.keycfg.keysize.toNat = ks.bits := by
      simpa [badKeySize_iff_ne_bits] using h
    exact .inr ⟨ks, h, hks, State.checkKeySize_ok hks⟩

/-- The condition of CheckKeyLen is that KEYLEN is not wrong for the declared size (R156). -/
theorem State.keyLenOk_iff_not_badKeyLen {s : State} {ks : KeySize} (h : s.keycfg.keysize.toNat = ks.bits) :
    s.keyLenOk ks = true ↔ ¬ BadKeyLen s := by
  rw [State.keyLenOk_iff, BadKeyLen, h, not_not]

/-- ModeSetup fails with the first failing check of a mode command's row of R222 (R200). -/
theorem State.modeSetup_eq_error_iff {s : State} {e : CmdError} :
    s.modeSetup = .error e ↔ FirstError s .ecbEnc e := by
  unfold State.modeSetup FirstError
  obtain ⟨hb, hk⟩ | ⟨ks, hb, hks, hk⟩ := s.checkKeySize_cases
  · simp [hk, hb, eq_comm (b := e)]
  · have hl := State.keyLenOk_iff_not_badKeyLen hks
    simp only [hk, hb]
    split_ifs with h1 h2 h3 <;> simp_all [eq_comm (b := e)]

/-! ## Blocks at and above LEN -/

/-- n blocks of a mode leave the blocks behind them as they were. -/
theorem ModeBody.times_block_above {body : State → State → State} (hm : ModeBody body) (n : Nat) (s : State)
    {j : Nat} (h : s.work.blockIndex + n ≤ j) : (times n (sequentially body) s).block j = s.block j := by
  induction n generalizing s with
  | zero => rfl
  | succ n ih =>
    rw [times, ih _ (by rw [sequentially, hm.index]; omega), sequentially, hm.other _ _ _ (by omega)]

/-- The blocks of a mode command leave BUF at and above LEN as it was (R200). -/
theorem ModeBody.runBlocks_bufByte_above {body : State → State → State} (hm : ModeBody body) (s : State)
    {k : Nat} (h : s.len.toNat ≤ k) :
    (s.startBlocks.runBlocks s.blockCount body).bufByte k = s.bufByte k := by
  have hn : s.startBlocks.work.blockIndex + s.blockCount ≤ k / 16 := by
    rw [State.startBlocks_work, State.blockCount, Nat.zero_add]
    exact Nat.div_le_div_right h
  rw [hm.runBlocks_eq, State.bufByte_eq_block, hm.times_block_above _ _ hn, State.block_startBlocks,
    ← State.bufByte_eq_block]

/-- The blocks of a mode command write BUF and the work registers only (R43). -/
theorem ModeBody.runBlocks_frame {body : State → State → State} (hm : ModeBody body) (s : State) (n : Nat) :
    s.SameButBlocks (s.startBlocks.runBlocks n body) := by
  rw [hm.runBlocks_eq]
  exact (State.startBlocks_frame s).trans (hm.times_frame n _)

/-- A loop over blocks keeps the error field. -/
theorem State.SameButBlocks.status_error {s u : State} (h : s.SameButBlocks u) : u.status.error = s.status.error := by
  rw [h.rest]

/-- After InstallSchedule, a loop that keeps BUF at and above LEN stays within the write set of a mode command (R43). -/
theorem State.SameButBlocks.withinWriteSet_mode {s u : State} {ks : KeySize}
    (h : (s.installSchedule ks).SameButBlocks u) (ha : ∀ k, s.len.toNat ≤ k → u.bufByte k = s.bufByte k) :
    WithinWriteSet .mode s { u with work := s.work } :=
  ⟨by rw [h.rest]; rfl, ha⟩

/-! ## The result a command concludes with -/

/-- `r` is the result of a command under its checks: the first failing one, or effects within its write set, the
work registers aside (R43, R222). -/
structure DecidedByChecks (i : Instr) (s : State) (r : Except CmdError State) : Prop where
  error_iff : ∀ e, FirstError s i e ↔ r = .error e
  within : ∀ u, r = .ok u → WithinWriteSet (Instr.commandClass i) s { u with work := s.work }
  keepsError : ∀ u, r = .ok u → u.status.error = s.status.error

theorem DecidedByChecks.ok {i : Instr} {s u : State} (hno : ∀ e, ¬ FirstError s i e)
    (hw : WithinWriteSet (Instr.commandClass i) s { u with work := s.work })
    (he : u.status.error = s.status.error) : DecidedByChecks i s (.ok u) where
  error_iff := fun e => by simp [hno e]
  within := fun _ h => by cases h; exact hw
  keepsError := fun _ h => by cases h; exact he

theorem DecidedByChecks.error {i : Instr} {s : State} {e : CmdError} (h : ∀ x, FirstError s i x ↔ x = e) :
    DecidedByChecks i s (.error e) where
  error_iff := fun x => by rw [h x, Except.error.injEq, eq_comm]
  within := fun _ h => by cases h
  keepsError := fun _ h => by cases h

/-- A command that only checks KEYVALID writes STATE, or fails with ERR_NO_KEY (R190, R191). -/
theorem keyValidCheck_decided {i : Instr} {s : State} {b : Block} (hc : Instr.commandClass i = .state)
    (hf : ∀ e, FirstError s i e ↔ e = .noKey ∧ s.status.keyValid = false) :
    DecidedByChecks i s (if s.status.keyValid = false then .error .noKey else .ok { s with st := b }) := by
  split_ifs with hv
  · exact .error fun e => by simp [hf, hv]
  · exact .ok (fun e => by simp [hf, hv]) (by rw [hc]; rfl) rfl

/-- A mode command installs the schedule and writes BUF below LEN, or fails in its setup (R200). -/
theorem ModeBody.runMode_decided {i : Instr} {body : State → State → State} (hm : ModeBody body) (s : State)
    (hc : Instr.commandClass i = .mode) (hf : ∀ e, FirstError s i e ↔ FirstError s .ecbEnc e) :
    ∃ r, s.runMode body = s.conclude r ∧ DecidedByChecks i s r := by
  refine ⟨_, rfl, ?_⟩
  simp only [← State.modeSetup_eq_error_iff] at hf
  cases hs : s.modeSetup with
  | error e => exact .error fun x => by rw [hf, hs, Except.error.injEq, eq_comm]
  | ok t =>
    obtain ⟨ks, -, -, -, -, rfl⟩ := State.modeSetup_cases hs
    have hframe := hm.runBlocks_frame (s.installSchedule ks) (s.installSchedule ks).blockCount
    refine .ok (fun e he => by rw [hf, hs] at he; cases he) ?_ hframe.status_error
    rw [hc]
    exact hframe.withinWriteSet_mode fun k => hm.runBlocks_bufByte_above (s.installSchedule ks)

/-- Every command concludes with what its checks decide (R222, R43). -/
theorem exec_decided (i : Instr) (s : State) : ∃ r, exec i s = s.conclude r ∧ DecidedByChecks i s r := by
  cases i
  case rcon x =>
    refine ⟨_, rfl, ?_⟩
    have hx := rcon?_eq_none_iff (n := x.toNat)
    split
    · exact .error fun e => by simp_all [FirstError]
    · exact .ok (fun e => by simp_all [FirstError]) rfl rfl
  case numrounds | numkeywords =>
    refine ⟨_, rfl, ?_⟩
    obtain ⟨hb, hk⟩ | ⟨ks, hb, -, hk⟩ := s.checkKeySize_cases <;> rw [hk]
    · exact .error fun e => by simp [FirstError, hb]
    · exact .ok (fun e => by simp [FirstError, hb]) rfl rfl
  case keyexp =>
    refine ⟨_, rfl, ?_⟩
    obtain ⟨hb, hk⟩ | ⟨ks, hb, hks, hk⟩ := s.checkKeySize_cases <;> rw [hk]
    · exact .error fun e => by simp [FirstError, hb]
    · have hl := State.keyLenOk_iff_not_badKeyLen hks
      dsimp only
      split_ifs with h
      · exact .ok (fun e => by simp [FirstError, hb, hl.1 h]) rfl rfl
      · exact .error fun e => by simp_all [FirstError]
  case getrk r =>
    refine ⟨_, rfl, ?_⟩
    split_ifs with hv hr
    · exact .error fun e => by simp [FirstError, hv]
    · exact .error fun e => by simp_all [FirstError]
    · exact .ok (fun e => by simp_all [FirstError]) rfl rfl
  case encrypt => exact ⟨_, execEncrypt_eq s, keyValidCheck_decided rfl fun _ => Iff.rfl⟩
  case decrypt => exact ⟨_, execDecrypt_eq s, keyValidCheck_decided rfl fun _ => Iff.rfl⟩
  case ecbEnc => exact ecbEncBlock_modeBody.runMode_decided s rfl fun _ => Iff.rfl
  case ecbDec => exact ecbDecBlock_modeBody.runMode_decided s rfl fun _ => Iff.rfl
  case cbcEnc => exact cbcEncBlock_modeBody.runMode_decided s rfl fun _ => Iff.rfl
  case cbcDec => exact cbcDecBlock_modeBody.runMode_decided s rfl fun _ => Iff.rfl
  all_goals exact ⟨.ok _, rfl, .ok (fun _ => id) rfl rfl⟩

/-- A command whose first failing check is `e` ends with `e` and no other effect (R223). -/
theorem failsWith_of_firstError {i : Instr} {s : State} {e : CmdError} (h : FirstError s i e) : FailsWith i s e := by
  obtain ⟨r, hr, hd⟩ := exec_decided i s
  rw [(hd.error_iff e).1 h, State.conclude_error] at hr
  exact ⟨_, _, hr⟩

/-- A command with no failing check completes within its write set (R43). -/
theorem completesWithin_of_no_firstError {i : Instr} {s : State} (h : ∀ e, ¬ FirstError s i e) :
    ∃ t, CompletesAs i s t ∧ WithinWriteSet (Instr.commandClass i) s t ∧ t.status.error = s.status.error := by
  obtain ⟨r, hr, hd⟩ := exec_decided i s
  cases r with
  | error e => exact absurd ((hd.error_iff e).2 rfl) (h e)
  | ok u => exact ⟨{ u with work := s.work }, ⟨_, _, hr⟩, hd.within u rfl, hd.keepsError u rfl⟩

/-- Settles O12: a command concludes with its first failing check or, if there is none, with effects within its
write set. -/
theorem commandsWriteOnlyTheirWriteSet : Obligations.CommandsWriteOnlyTheirWriteSet :=
  fun _ _ => ⟨completesWithin_of_no_firstError, fun _ => failsWith_of_firstError⟩

end Sys2Proof.Machine
end

section
/-! PROOFS. The host's window as a command meets it: acceptance of a word (`10_state.md` R46), and every kind of
access while a command is in flight (R44, R48). -/

namespace Sys2Proof.Machine

open Sys2Proof.Spec

/-! ## Which word a transaction reaches -/

/-- A write to offset 0x0004 reaches CMD, whatever the word (R61). -/
@[simp] theorem target_writeAt_cmd (c : Config.Capacity) (w : Word) :
    (writeAt 0x0004 w).target c = some .cmd := by
  simp [Transaction.target, writeAt, locate, locateScalar]

/-- An illegal access, or one to a reserved offset, reaches no word (R64, R65). -/
theorem Transaction.target_eq_none {s : State} {t : Transaction}
    (h : t.size ≠ 2 ∨ t.addr.toNat % 4 ≠ 0 ∨ ¬ Mapped s t.addr.toNat) : t.target s.capacity = none := by
  unfold Transaction.target
  split_ifs with hl
  · obtain ⟨hsize, halign⟩ := hl
    exact (locate_none halign).2 ((h.resolve_left (not_not_intro hsize)).resolve_left (not_not_intro halign))
  · rfl

/-- A transaction that reaches no word gets an ERROR response and does nothing else (R64, R65). -/
theorem State.transact_of_target_none {s : State} {t : Transaction} (h : t.target s.capacity = none) :
    s.transact t = { s with rsp := some (.error 0) } := by
  rw [State.transact, h]

/-- A write transaction is a host write of the word it reaches. -/
theorem State.transact_write {s : State} {t : Transaction} {l : Loc} (h : t.target s.capacity = some l)
    (hw : t.write = true) : s.transact t = s.hostWrite l t.wdata := by
  rw [State.transact, h]
  exact if_pos hw

/-- A read transaction is a host read of the word it reaches. -/
theorem State.transact_read {s : State} {t : Transaction} {l : Loc} (h : t.target s.capacity = some l)
    (hw : t.write = false) : s.transact t = s.hostRead t.addr.toNat l := by
  rw [State.transact, h]
  exact if_neg (by simp [hw])

/-! ## Acceptance of a command word (R46) -/

/-- Settles O8: a write to CMD is `State.accept` when idle, and sets OVERRUN when busy. -/
theorem writeToCmdIsAcceptedWhenIdle : Obligations.WriteToCmdIsAcceptedWhenIdle := by
  intro s w
  rw [State.transact_write (target_writeAt_cmd _ w) rfl]
  exact ⟨fun hidle => ⟨_, _, State.hostWrite_idle hidle .cmd w⟩, fun hbusy => State.hostWrite_busy hbusy .cmd w⟩

/-! ## What a read answers while a command is in flight (R48) -/

/-- An exposed location is in the exposure set of the command in flight (R44). -/
theorem State.exposed_cases {s : State} {l : Loc} (h : s.exposed l = true) :
    ∃ i, decode s.cmd = .ok i ∧ (Instr.commandClass i).exposes l = true := by
  obtain ⟨-, h⟩ := Bool.and_eq_true_iff.1 h
  cases hd : s.fetch with
  | ok i => exact ⟨i, hd, by simpa [hd] using h⟩
  | error e => simp [hd] at h

/-- KEYVALID and NR are exposed by the commands that expand a key (R44). -/
theorem expandsKey_of_exposes_status {i : Instr} (h : (Instr.commandClass i).exposes .status = true) :
    ExpandsKey i := by
  cases i
  case keyexp | ecbEnc | ecbDec | cbcEnc | cbcDec => trivial
  all_goals exact absurd h Bool.false_ne_true

/-- A read answers the current word, or some exposed one where the command in flight exposes the location. -/
theorem State.hostRead_cases (s : State) (a : Nat) (l : Loc) :
    ∃ w draws, s.hostRead a l = { s with rsp := some (.okayData w), draws := draws } ∧
      (w = s.readLoc l ∨ s.exposed l = true ∧ ∃ d, w = s.exposedWord l d) := by
  unfold State.hostRead
  split_ifs with h
  · exact ⟨_, _, rfl, .inr ⟨h, _, rfl⟩⟩
  · exact ⟨_, s.draws, rfl, .inl rfl⟩

/-- An exposed STATUS word has every field but KEYVALID and NR as it stands (R44, R48). -/
theorem State.exposedWord_status_lifecycle (s : State) (d : Word) :
    StatusLifecycle s (s.exposedWord .status d) :=
  (State.statusWord_fields
    { s with status := { s.status with keyValid := d.getLsbD 8, nr := d.extractLsb' 12 4 } }).1

/-- While a command is in flight the lifecycle fields read BUSY = 1 and DONE = ERR = ERRCODE = 0 (R48). -/
theorem State.LifecycleOk.busy_bits {s : State} {w : Word} (hok : s.LifecycleOk) (hb : s.isBusy = true)
    (h : StatusLifecycle s w) :
    w.getLsbD 0 = true ∧ w.getLsbD 1 = false ∧ w.getLsbD 2 = false ∧ w.extractLsb' 4 4 = 0 := by
  obtain ⟨hdone, herror⟩ := hok
  obtain ⟨h0, h1, h2, -, h4, -, -⟩ := h
  have he := herror (hdone hb)
  rw [he] at h2 h4
  exact ⟨h0.trans hb, h1.trans (hdone hb), h2, h4⟩

/-- Settles O20: an access reaches no word, writes one or reads one, and a read answers the current word or an
exposed one. -/
theorem accessesWhileBusy : Obligations.AccessesWhileBusy := by
  intro s t hbusy hok
  refine ⟨fun h => State.transact_of_target_none (Transaction.target_eq_none h), fun hsize halign hmap hw => ?_,
    fun hsize halign hmap hw => ?_⟩
  · obtain ⟨l, htarget, -⟩ := Transaction.target_of_mapped hsize halign hmap
    rw [State.transact_write htarget hw, State.hostWrite_busy hbusy]
  · obtain ⟨l, htarget, hloc⟩ := Transaction.target_of_mapped hsize halign hmap
    rw [State.transact_read htarget hw]
    obtain ⟨w, draws, hread, hword⟩ := s.hostRead_cases t.addr.toNat l
    refine ⟨w, draws, hread, fun ha => ?_, fun ha hexp => ?_, fun ha hexp => ?_⟩
    · obtain rfl := (locate_status hloc).2 ha
      have hlife : StatusLifecycle s w := by
        rcases hword with rfl | ⟨-, d, rfl⟩
        · exact s.statusWord_fields.1
        · exact s.exposedWord_status_lifecycle d
      exact ⟨hlife, hok.busy_bits hbusy hlife⟩
    · obtain rfl := (locate_status hloc).2 ha
      rcases hword with rfl | ⟨he, -⟩
      · exact s.statusWord_fields.2
      · obtain ⟨i, hi, hx⟩ := State.exposed_cases he
        exact absurd (expandsKey_of_exposes_status hx) (hexp i hi)
    · rcases hword with rfl | ⟨he, -⟩
      · exact State.readLoc_holds halign hloc
      · obtain ⟨i, hi, hx⟩ := State.exposed_cases he
        exact absurd (exposes_at hloc (fun hl => ha ((locate_status hloc).1 hl)) hx) (hexp i hi)

end Sys2Proof.Machine
end

section
/-! PROOFS. What a reset leaves in every register and RAM (`10_state.md` R49). -/

namespace Sys2Proof

open Sys2Proof.Machine

@[simp] theorem Quad.byte_default (k : Nat) : (default : Quad).byte k = 0 := by
  unfold Quad.byte
  split <;> rfl

@[simp] theorem Block.byte_default (i : Nat) : (default : Block).byte i = 0 := by
  have hq : ∀ j, (default : Block).quad j = default := by decide
  rw [Block.byte, hq, Quad.byte_default]

end Sys2Proof

namespace Sys2Proof.Machine

open Sys2Proof.Spec

/-- A drawn word of SCHED holds the free byte of each of its addresses (R49). -/
theorem drawnQuad_byte (draw addr k : Nat) (h : k < 4) :
    (drawnQuad draw addr).byte k = Config.ramByte draw (addr + k) := by
  interval_cases k <;> rfl

/-- A pending reset is sampled before everything else (R260). -/
theorem step_of_reset {s : State} {rest : List HostEvent} (h : s.host = .reset :: rest) :
    step s = .next (s.applyReset rest) := by
  simp [step, h]

section
variable (c : Config.Capacity) (p : Bool) (draw : Nat) (host : List HostEvent)

/-- KEY is 0 after a reset (R49). -/
theorem State.atReset_keyByte (k : Nat) : (State.atReset c p draw host).keyByte k = 0 := by
  by_cases h : k / 4 < 8 <;> simp [State.keyByte, State.atReset, h]

/-- SCHED holds free bytes after a reset (R49, U11). -/
theorem State.atReset_schedByte {k : Nat} (h : k < 240) :
    (State.atReset c p draw host).schedByte k = Config.ramByte draw (0x100 + k) := by
  have hj : k / 4 < 60 := by omega
  have hquad : (State.atReset c p draw host).schedWord (k / 4) = drawnQuad draw (schedBase + 4 * (k / 4)) := by
    simp [State.schedWord, State.atReset, hj]
  rw [State.schedByte, hquad, drawnQuad_byte _ _ _ (by omega), schedBase]
  congr 1
  omega

/-- STATUS reads 0 after a reset (R49). -/
theorem State.atReset_statusWord : (State.atReset c p draw host).statusWord = 0 := by
  change statusWordOf false ⟨false, none, false, false, 0⟩ = 0
  decide

/-- BUF holds free bytes after a reset (R49, U12). -/
theorem State.atReset_bufByte (k : Nat) :
    (State.atReset c p draw host).bufByte k = Config.ramByte draw (0x1000 + k) := rfl

end

/-- Settles O16: the sampled reset is `State.atReset`, register by register. -/
theorem resetGivesEveryRegisterItsValue : Obligations.ResetGivesEveryRegisterItsValue := by
  intro s rest hhost
  have hstatus := (s.applyReset rest).statusWord_fields
  rw [State.applyReset, State.atReset_statusWord] at hstatus
  obtain ⟨hlife, hkey⟩ := hstatus
  exact ⟨s.applyReset rest, step_of_reset hhost, rfl, rfl, hlife, hkey, rfl, rfl, rfl, rfl, rfl,
    fun k _ => State.atReset_keyByte _ _ _ _ k,
    fun k _ => ⟨Block.byte_default k, Block.byte_default k, Block.byte_default k⟩,
    fun k hk => State.atReset_schedByte _ _ _ _ hk,
    fun k _ => State.atReset_bufByte _ _ _ _ k⟩

end Sys2Proof.Machine
end

section
/-! PROOFS. The accesses of `20_memory.md` without effect: bus errors (R64, R65) and writes to read-only offsets
(R66). -/

namespace Sys2Proof.Machine

/-- Settles O18: such an access reaches no word, busy or not. -/
theorem busErrorChangesNothing : Obligations.BusErrorChangesNothing :=
  fun _ _ h => State.transact_of_target_none (Transaction.target_eq_none h)

/-! ## Writes to read-only offsets (R66) -/

/-- The offsets of SCHED reach a word of SCHED (R61). -/
theorem locate_sched {c : Config.Capacity} {a : Nat} (h1 : 0x100 ≤ a) (h2 : a < 0x1F0) :
    locate c a = some (.sched (Fin.ofNat 60 ((a - 0x100) / 4))) := by
  rw [locate, if_neg (by omega), locateArray]
  iterate 4 rw [if_neg (by omega)]
  exact if_pos ⟨h1, h2⟩

/-- A write to the location of ID, STATUS, RESULT, CAP or SCHED is ignored while idle (R66). -/
theorem State.writeLoc_readOnly {c : Config.Capacity} {a : Nat} {l : Loc} (hl : locate c a = some l)
    (ha : a = 0x00 ∨ a = 0x08 ∨ a = 0x14 ∨ a = 0x18 ∨ (0x100 ≤ a ∧ a < 0x1F0)) (s : State) (v : Word) :
    s.writeLoc l v = s := by
  rcases ha with rfl | rfl | rfl | rfl | ⟨h1, h2⟩
  iterate 4
    · cases hl
      rfl
  · rw [locate_sched h1 h2] at hl
    cases hl
    rfl

/-- Settles O23: the offset is mapped, so the write reaches a word, which is a read-only one. -/
theorem writesToReadOnlyOffsetsAreIgnored : Obligations.WritesToReadOnlyOffsetsAreIgnored := by
  intro s t hwrite hsize halign hoff
  have hmap : Spec.Mapped s t.addr.toNat := by
    unfold Spec.Mapped
    omega
  obtain ⟨l, htarget, hloc⟩ := Transaction.target_of_mapped hsize halign hmap
  rw [State.transact_write htarget hwrite]
  refine ⟨fun hidle => ?_, fun hbusy => State.hostWrite_busy hbusy l t.wdata⟩
  rw [State.hostWrite_idle hidle, State.writeLoc_readOnly hloc hoff]

end Sys2Proof.Machine
end

section
/-! PROOFS. The selection of a mnemonic by its mask and match (`30_encoding.md` R93), the words that select none
(R94), and the listed example words (R99). -/

namespace Sys2Proof

open Sys2Proof.Spec

/-! ## The selection, field by field (R90, R93) -/

/-- A word is made of its four fields (R90). -/
theorem word_of_fields (w : Word) : cmdRsv w ++ cmdB w ++ cmdA w ++ cmdOpc w = w := by
  refine BitVec.eq_of_getLsbD_eq fun i hi => ?_
  simp only [cmdRsv, cmdB, cmdA, cmdOpc, BitVec.getLsbD_extractLsb', BitVec.getLsbD_append]
  interval_cases i <;> simp

theorem word_eq_iff_fields {v w : Word} :
    v = w ↔ cmdRsv v = cmdRsv w ∧ cmdOpc v = cmdOpc w ∧ cmdB v = cmdB w ∧ cmdA v = cmdA w := by
  refine ⟨fun h => h ▸ ⟨rfl, rfl, rfl, rfl⟩, fun ⟨hrsv, hopc, hb, ha⟩ => ?_⟩
  rw [← word_of_fields v, ← word_of_fields w, hrsv, hopc, hb, ha]

/-- RSV is 0, OPC is the mnemonic's opcode, and an operand field that the mnemonic does not use is 0. -/
def Mnemonic.Selects (m : Mnemonic) (w : Word) : Prop :=
  cmdRsv w = 0 ∧ cmdOpc w = cmdOpc (opcode m) ∧ (m.arity < 2 → cmdB w = 0) ∧ (m.arity < 1 → cmdA w = 0)

/-- A mask keeps or clears whole fields, so it can be compared with the match field by field (R93). -/
theorem and_mask_eq_opcode_iff (m : Mnemonic) (w : Word) : w &&& mask m = opcode m ↔ m.Selects w := by
  have keep (b : Byte) : b &&& 255#8 = b := BitVec.and_allOnes
  rw [word_eq_iff_fields]
  simp only [cmdRsv, cmdB, cmdA, cmdOpc, Mnemonic.Selects, BitVec.extractLsb'_and]
  cases m <;> simp [mask, opcode, Mnemonic.arity, keep]

/-! ## The decoder reads the mnemonic that is selected (R93) -/

@[simp] theorem Mnemonic.mnemonic_instr (m : Mnemonic) (a b : Byte) : (m.instr a b).mnemonic = m := by
  cases m <;> rfl

theorem Mnemonic.Selects.decode_eq {m : Mnemonic} {w : Word} (h : m.Selects w) :
    decode w = .ok (m.instr (cmdA w) (cmdB w)) := by
  obtain ⟨hrsv, hopc, hb, ha⟩ := h
  rw [decode, if_neg (not_not_intro hrsv), hopc]
  cases m <;> simp_all [opcode, cmdOpc, Mnemonic.arity, decodeOnlyA, decodeBare, Mnemonic.instr]

theorem selects_mnemonic_of_decode {w : Word} {i : Instr} (h : decode w = .ok i) : i.mnemonic.Selects w := by
  unfold decode at h
  split_ifs at h with hne
  have hrsv := not_not.1 hne
  split at h
  case h_1 hopc =>
    cases h
    exact ⟨hrsv, hopc, by simp [Instr.mnemonic, Mnemonic.arity], by simp [Instr.mnemonic, Mnemonic.arity]⟩
  case h_2 hopc | h_3 hopc | h_4 hopc | h_5 hopc | h_6 hopc | h_10 hopc =>
    obtain ⟨hb, rfl⟩ := (decodeOnlyA_ok w).1 h
    exact ⟨hrsv, hopc, fun _ => hb, by simp [Instr.mnemonic, Mnemonic.arity]⟩
  case h_24 => cases h
  all_goals
    obtain ⟨ha, hb, rfl⟩ := (decodeBare_ok w).1 h
    exact ⟨hrsv, ‹_›, fun _ => hb, fun _ => ha⟩

theorem exists_decode_mnemonic_iff (m : Mnemonic) (w : Word) :
    (∃ i, decode w = .ok i ∧ i.mnemonic = m) ↔ m.Selects w := by
  constructor
  · rintro ⟨i, hdecode, rfl⟩
    exact selects_mnemonic_of_decode hdecode
  · exact fun h => ⟨_, h.decode_eq, m.mnemonic_instr _ _⟩

theorem selectedByMask (m : Mnemonic) : SelectedByMask m := by
  intro w
  rw [and_mask_eq_opcode_iff]
  exact ⟨exists_decode_mnemonic_iff m w, Mnemonic.Selects.decode_eq⟩

/-- Settles O3: mask and match compare the fields of the word, and the decoder reads the same fields. -/
theorem maskAndMatchSelectTheMnemonic : Obligations.MaskAndMatchSelectTheMnemonic := selectedByMask

/-! ## Illegal words (R94) -/

theorem exists_decode_error_iff (w : Word) : (∃ e, decode w = .error e) ↔ ∀ m, w &&& mask m ≠ opcode m := by
  constructor
  · rintro ⟨e, he⟩ m hm
    rw [(selectedByMask m w).2 hm] at he
    cases he
  · intro hnone
    cases hdecode : decode w with
    | error e => exact ⟨e, rfl⟩
    | ok i => exact absurd ((selectedByMask i.mnemonic w).1.1 ⟨i, hdecode, rfl⟩) (hnone i.mnemonic)

/-! ## The example words (R99) -/

/-- Settles O4: the examples are evaluated; each illegal word is rejected, for the reason R99 lists. -/
theorem exampleWordsDecodeAsListed : Obligations.ExampleWordsDecodeAsListed := by
  have rejected {w : Word} {e : IllegalWord} (h : decode w = .error e) (i : Instr) : decode w ≠ .ok i := by
    rw [h]
    exact nofun
  refine ⟨by decide, List.forall_mem_cons.2 ⟨?_, List.forall_mem_cons.2 ⟨?_, List.forall_mem_cons.2 ⟨?_,
    List.forall_mem_singleton.2 ?_⟩⟩⟩⟩
  · exact rejected (e := .unknownOpcode) rfl
  · exact rejected (e := .reservedNonzero) rfl
  · exact rejected (e := .unusedOperandNonzero) rfl
  · exact rejected (e := .unusedOperandNonzero) rfl

end Sys2Proof

namespace Sys2Proof.Machine

/-- With a command due and no reset pending, a step is the completion of that command (R231, R47). -/
theorem step_of_due {s : State} (hbusy : s.phase = .busy) (hlatency : s.latency = 0)
    (hawaiting : s.awaitingReset = false) (hhost : s.undisturbed 1) : step s = s.runCommand := by
  unfold step
  split
  case h_1 rest hh => simpa [HostEvent.preempts] using hhost .reset (by simp [hh])
  case h_2 rest hh => simpa [HostEvent.preempts] using hhost .powerUp (by simp [hh])
  case h_3 => simp [hawaiting, hbusy, hlatency]

/-- An illegal word in flight completes with ERR_ILLEGAL (R94). -/
theorem State.runCommand_of_illegal {s : State} {e : IllegalWord} (h : decode s.cmd = .error e) :
    s.runCommand = .next (s.raiseError .illegal) := by
  simp [State.runCommand, State.fetch, h]

/-- Settles O7: the decoder rejects what no mask selects (R93), CMD accepts every word (R46), and the completion of
an illegal word only raises the error. -/
theorem illegalWordCompletesWithErrIllegal : Obligations.IllegalWordCompletesWithErrIllegal := by
  refine ⟨exists_decode_error_iff, fun s w hidle => ?_, fun s e hbusy hlatency hawaiting hhost hillegal => ?_, rfl⟩
  · have hnotBusy : s.isBusy = false := by simp [State.isBusy, hidle]
    obtain ⟨left, draws, haccept⟩ := (writeToCmdIsAcceptedWhenIdle s w).1 hnotBusy
    rw [haccept]
    exact ⟨rfl, rfl⟩
  · have hstep := step_of_due hbusy hlatency hawaiting hhost
    exact ⟨_, _, hstep.trans (State.runCommand_of_illegal hillegal)⟩

end Sys2Proof.Machine
end

section
/-! PROOFS. Field arithmetic and the table ROMs (`40_field_and_tables.md` R120 to R128, R130 to R135). The product of
the loop and the one of the polynomials are both additive in each operand, so they agree when they do on the powers
of x. -/

namespace Sys2Proof.Machine

open Sys2Proof.Spec

/-! ## Additive functions of bytes -/

/-- The function respects addition in the field. -/
def Additive (f : Byte → Byte) : Prop := ∀ a b, f (a ^^^ b) = f a ^^^ f b

theorem additive_id : Additive id := fun _ _ => rfl

theorem Additive.map_zero {f : Byte → Byte} (hf : Additive f) : f 0 = 0 := by simpa using hf 0 0

theorem Additive.comp {f g : Byte → Byte} (hf : Additive f) (hg : Additive g) : Additive fun a => f (g a) :=
  fun a b => by simp only [hg a b, hf (g a)]

/-- Additive functions that agree on the powers of x are equal. -/
theorem Additive.eq_of_powers {f g : Byte → Byte} (hf : Additive f) (hg : Additive g)
    (h : ∀ k < 8, f ((1 : Byte) <<< k) = g ((1 : Byte) <<< k)) (a : Byte) : f a = g a := by
  induction a using byte_induction with
  | h0 => rw [hf.map_zero, hg.map_zero]
  | hb k hk => exact h k hk
  | hx a b ha hb => rw [hf, hg, ha, hb]

/-- The product respects addition in each operand. -/
structure Biadditive (f : Byte → Byte → Byte) : Prop where
  left : ∀ b, Additive fun a => f a b
  right : ∀ a, Additive (f a)

/-- Products that agree on the powers of x are equal. -/
theorem Biadditive.eq_of_powers {f g : Byte → Byte → Byte} (hf : Biadditive f) (hg : Biadditive g)
    (h : ∀ j < 8, ∀ k < 8, f ((1 : Byte) <<< j) ((1 : Byte) <<< k) = g ((1 : Byte) <<< j) ((1 : Byte) <<< k))
    (a b : Byte) : f a b = g a b :=
  (hf.left b).eq_of_powers (hg.left b) (fun j hj => (hf.right _).eq_of_powers (hg.right _) (h j hj) b) a

theorem gfmul_biadditive : Biadditive gfmul where
  left := fun c a b => gfmul_xor_left a b c
  right := gfmul_xor_right

/-! ## The product of polynomials (R120) -/

/-- Adding `x` to a polynomial under a condition, for two polynomials and for their sum. -/
theorem ite_xor_distrib (b c : Bool) (p q x : Nat) :
    (if b then p ^^^ x else p) ^^^ (if c then q ^^^ x else q) = if b ^^ c then p ^^^ q ^^^ x else p ^^^ q := by
  cases b <;> cases c <;> simp [Nat.xor_comm, Nat.xor_left_comm]

theorem polyReduce_xor (p q : Nat) : polyReduce (p ^^^ q) = polyReduce p ^^^ polyReduce q := by
  refine List.foldl_hom₂ _ (· ^^^ ·) _ _ _ p q fun p q k => ?_
  rw [Nat.testBit_xor, ite_xor_distrib]

theorem polyMul_xor_left (a b c : Nat) : polyMul (a ^^^ b) c = polyMul a c ^^^ polyMul b c := by
  refine List.foldl_hom₂ _ (· ^^^ ·) _ _ _ 0 0 fun p q k => ?_
  rw [Nat.shiftLeft_xor_distrib]
  split
  · ac_rfl
  · rfl

theorem polyMul_xor_right (a b c : Nat) : polyMul a (b ^^^ c) = polyMul a b ^^^ polyMul a c := by
  refine List.foldl_hom₂ _ (· ^^^ ·) _ _ _ 0 0 fun p q k => ?_
  rw [Nat.testBit_xor, ite_xor_distrib]

theorem fieldMul_biadditive : Biadditive fieldMul where
  left := fun c a b => by
    simp only [fieldMul, BitVec.toNat_xor, polyMul_xor_left, polyReduce_xor, BitVec.ofNat_xor]
  right := fun a b c => by
    simp only [fieldMul, BitVec.toNat_xor, polyMul_xor_right, polyReduce_xor, BitVec.ofNat_xor]

/-- Shift and add computes the product of the polynomials modulo m(x) (R120). -/
theorem gfmul_eq_fieldMul (a b : Byte) : gfmul a b = fieldMul a b :=
  gfmul_biadditive.eq_of_powers fieldMul_biadditive (by decide) a b

theorem completesAs_gfmul (a b : Byte) (s : State) :
    CompletesAs (.gfmul a b) s { s with result := gfmul a b } := ⟨_, _, rfl⟩

/-- Settles O29: the loop of GFMUL and the product of the polynomials agree. -/
theorem gfmulGivesTheFieldProduct : Obligations.GfmulGivesTheFieldProduct :=
  ⟨selectedByMask .GFMUL, fun a b s => gfmul_eq_fieldMul a b ▸ completesAs_gfmul a b s⟩

/-! ## Multiplication by 2 and by 3 (R121, R122) -/

theorem xtime_eq_fieldMul (a : Byte) : xtime a = fieldMul 2 a :=
  Additive.eq_of_powers xtime_xor (fieldMul_biadditive.right 2) (by decide) a

theorem mul3_eq_fieldMul (a : Byte) : mul3 a = fieldMul 3 a :=
  Additive.eq_of_powers mul3_xor (fieldMul_biadditive.right 3) (by decide) a

/-- XTIME doubles its operand and reduces it when it is 128 or more (R121). -/
theorem xtime_eq_ite (a : Byte) : xtime a =
    if a.toNat < 128 then BitVec.ofNat 8 (2 * a.toNat) else BitVec.ofNat 8 (2 * a.toNat) ^^^ 0x1B := by
  have hdouble : a <<< 1 = BitVec.ofNat 8 (2 * a.toNat) :=
    BitVec.eq_of_toNat_eq (by simp [Nat.shiftLeft_eq, Nat.mul_comm])
  have hmsb : a.msb = true ↔ ¬ a.toNat < 128 := by simp [BitVec.msb_eq_decide]
  simp only [xtime, hdouble, hmsb, ite_not]

/-- Settles O31: XTIME and MUL3 are additive, so eight products by 2 and by 3 decide what they give. -/
theorem xtimeAndMul3GiveTheProductsByTwoAndThree : Obligations.XtimeAndMul3GiveTheProductsByTwoAndThree := by
  refine ⟨selectedByMask .XTIME, selectedByMask .MUL3, fun a s => ?_⟩
  rw [← xtime_eq_ite]
  exact ⟨⟨_, _, rfl⟩, xtime_eq_fieldMul a, ⟨_, _, rfl⟩, mul3_eq_fieldMul a⟩

/-! ## The laws of the field (R123) -/

theorem gfmul_comm (a b : Byte) : gfmul a b = gfmul b a :=
  gfmul_biadditive.eq_of_powers ⟨gfmul_biadditive.right, gfmul_biadditive.left⟩ (by decide) a b

theorem gfmul_one (a : Byte) : gfmul a 1 = a :=
  (gfmul_biadditive.left 1).eq_of_powers additive_id (by decide) a

theorem gfmul_zero (a : Byte) : gfmul a 0 = 0 := (gfmul_biadditive.right a).map_zero

/-- Both ways to multiply three bytes are additive in each of them, so the powers of x decide. -/
theorem gfmul_assoc (a b c : Byte) : gfmul (gfmul a b) c = gfmul a (gfmul b c) := by
  have hpowers : ∀ i < 8, ∀ j < 8, ∀ k < 8,
      gfmul (gfmul ((1 : Byte) <<< i) ((1 : Byte) <<< j)) ((1 : Byte) <<< k) =
        gfmul ((1 : Byte) <<< i) (gfmul ((1 : Byte) <<< j) ((1 : Byte) <<< k)) := by decide +kernel
  have left (b : Byte) := gfmul_biadditive.left b
  have right (a : Byte) := gfmul_biadditive.right a
  refine Additive.eq_of_powers ((left c).comp (left b)) (left _) (fun i hi => ?_) a
  exact Biadditive.eq_of_powers (f := fun b c => gfmul (gfmul _ b) c) (g := fun b c => gfmul _ (gfmul b c))
    ⟨fun c => (left c).comp (right _), fun b => right _⟩
    ⟨fun c => (right _).comp (left c), fun b => (right _).comp (right b)⟩ (hpowers i hi) b c

/-! ## Inverses (R123, R127) -/

/-- The inverse of the affine map of R127. -/
def affineInverse (y : Byte) : Byte := y.rotateLeft 1 ^^^ y.rotateLeft 3 ^^^ y.rotateLeft 6 ^^^ 0x05

theorem affine_affineInverse : ∀ y : Byte, affine (affineInverse y) = y := by decide +kernel

theorem gfmul_affineInverse_sboxValue : ∀ x : Byte, x ≠ 0 → gfmul x (affineInverse (sboxValue x)) = 1 := by
  decide +kernel

/-- Every byte but 0 has an inverse, and the S-box ROM holds its affine image (R127). -/
theorem exists_gfmul_eq_one {x : Byte} (h : x ≠ 0) : ∃ b, gfmul x b = 1 ∧ sboxValue x = affine b :=
  ⟨_, gfmul_affineInverse_sboxValue x h, (affine_affineInverse _).symm⟩

/-- Two inverses of one byte are equal, since the product of the three is each of them. -/
theorem gfmul_inverse_unique {a x y : Byte} (hx : gfmul a x = 1) (hy : gfmul a y = 1) : y = x := by
  calc y = gfmul (gfmul a x) y := by rw [hx, gfmul_comm, gfmul_one]
    _ = gfmul x (gfmul a y) := by rw [gfmul_comm a x, gfmul_assoc]
    _ = x := by rw [hy, gfmul_one]

theorem existsUnique_gfmul_eq_one {a : Byte} (h : a ≠ 0) : ∃! x, gfmul a x = 1 := by
  obtain ⟨x, hx, -⟩ := exists_gfmul_eq_one h
  exact ⟨x, hx, fun _ => gfmul_inverse_unique hx⟩

/-- Settles O30: each law is decided on the powers of x, and the S-box ROM gives the inverses. -/
theorem fieldMultiplicationObeysTheFieldLaws : Obligations.FieldMultiplicationObeysTheFieldLaws :=
  fun a b c => ⟨gfmul_comm a b, gfmul_assoc a b c, gfmul_xor_right a b c, gfmul_one a, gfmul_zero a,
    existsUnique_gfmul_eq_one⟩

/-! ## The table ROMs (R124 to R126) -/

/-- The entries of the round-constant ROM are the powers of 2 (R126). -/
theorem rcon?_eq_twoPow {n : Nat} (h1 : 1 ≤ n) (h14 : n ≤ 14) : rcon? n = some (twoPow (n - 1)) := by
  obtain ⟨k, rfl⟩ := Nat.exists_eq_add_of_le' h1
  have hrom : ∀ k < 14, rconRom[k]? = some (twoPow k) := by decide
  exact hrom k (by omega)

theorem completesAs_rcon {i v : Byte} (s : State) (h : rcon? i.toNat = some v) :
    CompletesAs (.rcon i) s { s with result := v } := by
  have hexec : exec (.rcon i) s = s.conclude (.ok (s.setResult v)) := by rw [exec, execRcon, h]
  exact ⟨_, _, hexec⟩

/-- Settles O35: the entries of the ROM are the powers of 2, and any other index fails the only check of RCON. -/
theorem rconGivesPowersOfTwoOrAnIndexError : Obligations.RconGivesPowersOfTwoOrAnIndexError :=
  ⟨selectedByMask .RCON, fun _ s =>
    ⟨fun h1 h14 => completesAs_rcon s (rcon?_eq_twoPow h1 h14), fun h => failsWith_of_firstError ⟨rfl, h⟩⟩⟩

theorem sboxInvert_sboxValue : ∀ x : Byte, sboxInvert (sboxValue x) = x := by decide +kernel

theorem sboxValue_sboxInvert : ∀ x : Byte, sboxValue (sboxInvert x) = x := by decide +kernel

theorem sboxValue_ne_self : ∀ x : Byte, sboxValue x ≠ x := by decide +kernel

theorem sboxValue_ne_complement : ∀ x : Byte, sboxValue x ≠ x ^^^ 0xFF := by decide +kernel

/-- Settles O34: the ROMs are constants, and each property is read off their 256 entries. -/
theorem theTablesAreInverseWithoutFixedPoints : Obligations.TheTablesAreInverseWithoutFixedPoints :=
  fun x => ⟨sboxInvert_sboxValue x, sboxValue_sboxInvert x, sboxValue_ne_self x, sboxValue_ne_complement x⟩

end Sys2Proof.Machine
end

section
/-! PROOFS. The key schedule (`41_key_schedule.md` R150 to R158). Key expansion makes the words of R151's recurrence;
InstallSchedule puts them into SCHED; and the four commands of the family complete with what they name once their
checks pass. -/

namespace Sys2Proof.Machine

open Sys2Proof.Spec

/-! ## The words of the schedule (R151) -/

/-- The round-constant indices of key expansion are entries of the ROM (R157), so what the model adds is a power
of 2. -/
theorem scheduleCore_eq_scheduleTemp {ks : KeySize} {i : Nat} (h1 : ks.numKeyWords ≤ i)
    (h2 : i < 4 * (ks.numRounds + 1)) (t : Quad) :
    scheduleCore ks.numKeyWords i t = scheduleTemp ks.numKeyWords i t := by
  have hpos : 1 ≤ i / ks.numKeyWords := Nat.div_pos h1 ks.numKeyWords_pos
  have hfour : 4 ≤ ks.numKeyWords := by cases ks <;> decide
  have hmax := ks.schedule_le
  have hle : i / ks.numKeyWords ≤ 59 / 4 := Nat.div_le_div (by omega) hfour (by decide)
  unfold scheduleCore scheduleTemp
  split_ifs
  · rw [addRcon, rcon?_eq_twoPow hpos hle]
    rfl
  · rfl
  · rfl

/-- The words of an installed schedule satisfy the recurrence of R151 over the bytes of KEY. -/
theorem State.isScheduleOf_installSchedule (s : State) (ks : KeySize) :
    IsScheduleOf ks s.keyByte (s.installSchedule ks).schedWord := by
  have hlen := s.keyWords_length ks
  have hmax := ks.schedule_le
  constructor
  · intro j hj
    have hfits := ks.numKeyWords_le
    rw [State.schedWord_installSchedule _ _ _ (by omega), keyExpansion_key hlen hj, State.keyWords_getD _ _ _ hj]
  · intro i h1 h2
    rw [State.schedWord_installSchedule _ _ _ (by omega), State.schedWord_installSchedule _ _ _ (by omega),
      State.schedWord_installSchedule _ _ _ (by omega), keyExpansion_word hlen h1 h2,
      scheduleCore_eq_scheduleTemp h1 h2]

/-- Byte k of the word made of four consecutive bytes. -/
theorem byte_consecutive (f : Nat → Byte) (a : Nat) {k : Nat} (h : k < 4) :
    (⟨f a, f (a + 1), f (a + 2), f (a + 3)⟩ : Quad).byte k = f (a + k) := by
  interval_cases k <;> rfl

/-- A schedule begins with the bytes of its key (R158). -/
theorem byte_of_isScheduleOf {ks : KeySize} {key : Nat → Byte} {w : Nat → Quad} (h : IsScheduleOf ks key w)
    {k : Nat} (hk : k < 4 * ks.numKeyWords) : (w (k / 4)).byte (k % 4) = key k := by
  obtain ⟨hfirst, -⟩ := h
  rw [hfirst (k / 4) (by omega), byte_consecutive _ _ (by omega), Nat.div_add_mod]

/-! ## InstallSchedule (R156) -/

theorem State.installs_installSchedule (s : State) (ks : KeySize) : Installs ks s (s.installSchedule ks) :=
  ⟨s.isScheduleOf_installSchedule ks, fun k hk _ => s.schedByte_installSchedule_above ks k hk,
    by cases ks <;> rfl, rfl⟩

/-! ## The commands with their checks passed (R152 to R155) -/

section
variable {s : State} {ks : KeySize}

theorem completesAs_numrounds (h : s.keycfg.keysize.toNat = ks.bits) :
    CompletesAs .numrounds s { s with result := BitVec.ofNat 8 ks.numRounds } := by
  have hexec : exec .numrounds s = s.conclude (.ok (s.setResult (BitVec.ofNat 8 ks.numRounds))) := by
    rw [exec, execNumrounds, State.checkKeySize_ok h]
  exact ⟨_, _, hexec⟩

theorem completesAs_numkeywords (h : s.keycfg.keysize.toNat = ks.bits) :
    CompletesAs .numkeywords s { s with result := BitVec.ofNat 8 ks.numKeyWords } := by
  have hexec : exec .numkeywords s = s.conclude (.ok (s.setResult (BitVec.ofNat 8 ks.numKeyWords))) := by
    rw [exec, execNumkeywords, State.checkKeySize_ok h]
  exact ⟨_, _, hexec⟩

theorem completesAs_keyexp (h : KeyReady s ks) : CompletesAs .keyexp s (s.installSchedule ks) := by
  obtain ⟨hsize, hlen⟩ := h
  have hexec : exec .keyexp s = s.conclude (.ok (s.installSchedule ks)) := by
    simp only [exec, execKeyexp, State.checkKeySize_ok hsize, State.keyLenOk_iff.2 hlen, if_true]
  exact ⟨_, _, hexec⟩

theorem completesAs_getrk {r : Byte} (hv : s.status.keyValid = true) (hr : r.toNat ≤ s.status.nr.toNat) :
    CompletesAs (.getrk r) s { s with rk := s.roundKey r.toNat } := by
  have hexec : exec (.getrk r) s = s.conclude (.ok { s with rk := s.roundKey r.toNat }) := by
    rw [exec, execGetrk, if_neg (by simp [hv]), if_neg (by omega)]
  exact ⟨_, _, hexec⟩

end

/-! ## The statements -/

/-- Settles O36: each row of the list is a legal key size, for which CheckKeySize passes; it fails for any other. -/
theorem numroundsAndNumkeywordsFollowTheKeySize : Obligations.NumroundsAndNumkeywordsFollowTheKeySize := by
  refine ⟨selectedByMask .NUMROUNDS, selectedByMask .NUMKEYWORDS, fun s =>
    ⟨fun ksize nr nk hmem hsize => ?_, fun hbad =>
      ⟨failsWith_of_firstError ⟨rfl, hbad⟩, failsWith_of_firstError ⟨rfl, hbad⟩⟩⟩⟩
  obtain ⟨ks, rfl, rfl, rfl⟩ : ∃ ks : KeySize, ksize = ks.bits ∧ nr = ks.numRounds ∧ nk = ks.numKeyWords := by
    simp only [List.mem_cons, Prod.mk.injEq, List.not_mem_nil, or_false] at hmem
    rcases hmem with h128 | h192 | h256
    · exact ⟨.k128, h128⟩
    · exact ⟨.k192, h192⟩
    · exact ⟨.k256, h256⟩
  exact ⟨completesAs_numrounds hsize, completesAs_numkeywords hsize⟩

/-- Settles O37: KEYEXP is InstallSchedule under its two checks, and the first that fails decides. -/
theorem keyexpInstallsTheScheduleOfTheKey : Obligations.KeyexpInstallsTheScheduleOfTheKey :=
  ⟨selectedByMask .KEYEXP, fun s =>
    ⟨fun ks h => ⟨s.installSchedule ks, completesAs_keyexp h, rfl, s.installs_installSchedule ks⟩,
      fun hbad => failsWith_of_firstError (.inl ⟨rfl, hbad⟩),
      fun hsize hlen => failsWith_of_firstError (.inr ⟨rfl, hsize, hlen⟩)⟩⟩

/-- Settles O38: the length counts the words of the expansion, and the first Nk of them are the words of KEY. -/
theorem theScheduleBeginsWithTheKey : Obligations.TheScheduleBeginsWithTheKey := by
  intro s ks h
  have hlen := keyExpansion_length (s.keyWords_length ks)
  exact ⟨by omega, s.installSchedule ks, completesAs_keyexp h, fun k hk =>
    byte_of_isScheduleOf (s.isScheduleOf_installSchedule ks) hk⟩

/-- Settles O39: RK takes the round key of SCHED, byte by byte; else the first of the two checks that fails decides. -/
theorem getrkCopiesARoundKeyOrFails : Obligations.GetrkCopiesARoundKeyOrFails :=
  ⟨selectedByMask .GETRK, fun r s =>
    ⟨fun hv hr => ⟨s.roundKey r.toNat, completesAs_getrk hv hr, s.roundKey_byte r.toNat⟩,
      fun hv => failsWith_of_firstError (.inl ⟨rfl, hv⟩),
      fun hv hr => failsWith_of_firstError (.inr ⟨rfl, hv, hr⟩)⟩⟩

end Sys2Proof.Machine
end

section
/-! PROOFS. The round transforms (`42_round_transforms.md` R170 to R177). Each is read off its bytes. MixColumns and
InvMixColumns are products with a matrix, so they respect addition of columns, and their composition is decided on
the columns that hold a single power of x. -/

namespace Sys2Proof

/-! ## Transforms of blocks, byte by byte -/

@[simp] theorem Quad.byte_xor (p q : Quad) (k : Nat) : (p.xor q).byte k = p.byte k ^^^ q.byte k := by
  unfold Quad.byte
  split <;> rfl

@[simp] theorem Quad.byte_map (f : Byte → Byte) (q : Quad) (k : Nat) : (q.map f).byte k = f (q.byte k) := by
  unfold Quad.byte
  split <;> rfl

@[simp] theorem Block.quad_xor (a b : Block) (j : Fin 4) : (a.xor b).quad j = (a.quad j).xor (b.quad j) := by
  unfold Block.quad
  split <;> rfl

@[simp] theorem Block.quad_mapQuads (f : Quad → Quad) (b : Block) (j : Fin 4) :
    (b.mapQuads f).quad j = f (b.quad j) := by
  unfold Block.quad
  split <;> rfl

@[simp] theorem Block.byte_xor (a b : Block) (i : Nat) : (a.xor b).byte i = a.byte i ^^^ b.byte i := by
  simp only [Block.byte, Block.quad_xor, Quad.byte_xor]

@[simp] theorem Block.byte_mapQuads_map (f : Byte → Byte) (b : Block) (i : Nat) :
    (b.mapQuads (Quad.map f)).byte i = f (b.byte i) := by
  simp only [Block.byte, Block.quad_mapQuads, Quad.byte_map]

/-- What undoes a function of words undoes it on every word of a block. -/
theorem Block.mapQuads_leftInverse {f g : Quad → Quad} (h : Function.LeftInverse g f) :
    Function.LeftInverse (Block.mapQuads g) (Block.mapQuads f) := fun b => by
  simp only [Block.mapQuads, h _]

/-- What undoes a function of bytes undoes it on every byte of a word. -/
theorem Quad.map_leftInverse {f g : Byte → Byte} (h : Function.LeftInverse g f) :
    Function.LeftInverse (Quad.map g) (Quad.map f) := fun q => by
  simp only [Quad.map, h _]

/-! ## Columns as sums -/

/-- The column with `x` in row r and 0 in the other rows. -/
def Quad.single (r : Fin 4) (x : Byte) : Quad :=
  match r with
  | 0 => ⟨x, 0, 0, 0⟩
  | 1 => ⟨0, x, 0, 0⟩
  | 2 => ⟨0, 0, x, 0⟩
  | 3 => ⟨0, 0, 0, x⟩

theorem Quad.single_xor (r : Fin 4) (x y : Byte) :
    Quad.single r (x ^^^ y) = (Quad.single r x).xor (Quad.single r y) := by
  unfold Quad.single
  split <;> simp [Quad.xor]

/-- A column is the sum of its rows. -/
theorem Quad.eq_sum_single (a : Quad) :
    a = (((Quad.single 0 a.b0).xor (Quad.single 1 a.b1)).xor (Quad.single 2 a.b2)).xor (Quad.single 3 a.b3) := by
  simp [Quad.single, Quad.xor]

/-- Every column is a sum of columns that hold a single power of x. -/
theorem Quad.column_induction {P : Quad → Prop} (hpower : ∀ r, ∀ k < 8, P (Quad.single r ((1 : Byte) <<< k)))
    (hxor : ∀ p q, P p → P q → P (p.xor q)) (a : Quad) : P a := by
  have hsingle : ∀ r x, P (Quad.single r x) := fun r x => by
    induction x using Machine.byte_induction with
    | h0 =>
      have hone := hpower r 0 (by decide)
      simpa [← Quad.single_xor] using hxor _ _ hone hone
    | hb k hk => exact hpower r k hk
    | hx x y hx hy => exact Quad.single_xor r x y ▸ hxor _ _ hx hy
  rw [a.eq_sum_single]
  exact hxor _ _ (hxor _ _ (hxor _ _ (hsingle 0 _) (hsingle 1 _)) (hsingle 2 _)) (hsingle 3 _)

end Sys2Proof

namespace Sys2Proof.Machine

open Sys2Proof.Spec

/-! ## Products of a matrix with a column (R175, R176) -/

/-- Row r of the product of a matrix with a column. -/
def columnProduct (m : List (List Byte)) (a : Quad) (r : Nat) : Byte :=
  fieldMul (entry m r 0) (a.byte 0) ^^^ fieldMul (entry m r 1) (a.byte 1) ^^^
  fieldMul (entry m r 2) (a.byte 2) ^^^ fieldMul (entry m r 3) (a.byte 3)

/-- Column c of the product of a matrix with the state is its product with column c. -/
theorem matrixProduct_eq_columnProduct (m : List (List Byte)) (s : Block) (r : Nat) (c : Fin 4) :
    matrixProduct m s r c = columnProduct m (s.quad c) r := by
  have hbyte : ∀ k < 4, (s.quad c).byte k = s.byte (k + 4 * c) := fun k hk => by
    rw [quad_byte _ _ _ hk, Nat.add_comm]
  simp [matrixProduct, columnProduct, hbyte]

theorem columnProduct_xor (m : List (List Byte)) (p q : Quad) (r : Nat) :
    columnProduct m (p.xor q) r = columnProduct m p r ^^^ columnProduct m q r := by
  have hmul := fieldMul_biadditive.right
  simp only [columnProduct, Quad.byte_xor, hmul _ _ _]
  ac_rfl

/-- The function multiplies a column by the matrix. -/
def MultipliesBy (m : List (List Byte)) (f : Quad → Quad) : Prop := ∀ a, ∀ r < 4, (f a).byte r = columnProduct m a r

theorem MultipliesBy.map_xor {m : List (List Byte)} {f : Quad → Quad} (h : MultipliesBy m f) (p q : Quad) :
    f (p.xor q) = (f p).xor (f q) :=
  Quad.ext_byte fun r hr => by rw [Quad.byte_xor, h _ r hr, h _ r hr, h _ r hr, columnProduct_xor]

theorem MultipliesBy.byte_mapQuads {m : List (List Byte)} {f : Quad → Quad} (h : MultipliesBy m f) (s : Block) :
    ∀ r < 4, ∀ c < 4, (s.mapQuads f).byte (r + 4 * c) = matrixProduct m s r c := fun r hr c hc => by
  have hcolumn := quad_byte (s.mapQuads f) ⟨c, hc⟩ r hr
  rw [Nat.add_comm, ← hcolumn, Block.quad_mapQuads, h _ r hr, ← matrixProduct_eq_columnProduct]

theorem gfmul_eq_fieldMul_swap (a b : Byte) : gfmul a b = fieldMul b a := by rw [gfmul_comm, gfmul_eq_fieldMul]

@[simp] theorem one_fieldMul (a : Byte) : fieldMul 1#8 a = a :=
  (gfmul_eq_fieldMul_swap a 1).symm.trans (gfmul_one a)

theorem mixColumn_multipliesBy : MultipliesBy mixMatrix mixColumn := fun a r hr => by
  simp only [mixColumn, xtime_eq_fieldMul, mul3_eq_fieldMul]
  interval_cases r <;> simp [Quad.byte, columnProduct, entry, mixMatrix]

theorem invMixColumn_multipliesBy : MultipliesBy invMixMatrix invMixColumn := fun a r hr => by
  simp only [invMixColumn, gfmul_eq_fieldMul_swap]
  interval_cases r <;> rfl

/-- Two products of a column by matrices undo each other when they do so on the powers of x. -/
theorem MultipliesBy.leftInverse {m n : List (List Byte)} {f g : Quad → Quad} (hf : MultipliesBy m f)
    (hg : MultipliesBy n g)
    (h : ∀ r, ∀ k < 8, g (f (Quad.single r ((1 : Byte) <<< k))) = Quad.single r ((1 : Byte) <<< k)) :
    Function.LeftInverse g f := fun a => by
  induction a using Quad.column_induction with
  | hpower r k hk => exact h r k hk
  | hxor p q hp hq => rw [hf.map_xor, hg.map_xor, hp, hq]

theorem invMixColumn_mixColumn : Function.LeftInverse invMixColumn mixColumn :=
  mixColumn_multipliesBy.leftInverse invMixColumn_multipliesBy (by decide)

theorem mixColumn_invMixColumn : Function.LeftInverse mixColumn invMixColumn :=
  invMixColumn_multipliesBy.leftInverse mixColumn_multipliesBy (by decide)

/-! ## ShiftRows (R173, R174) -/

theorem shiftRows_byte (s : Block) :
    ∀ r < 4, ∀ c < 4, (shiftRows s).byte (r + 4 * c) = s.byte (r + 4 * ((c + r) % 4)) := fun r hr c hc => by
  interval_cases r <;> interval_cases c <;> rfl

theorem invShiftRows_byte (s : Block) :
    ∀ r < 4, ∀ c < 4, (invShiftRows s).byte (r + 4 * c) = s.byte (r + 4 * ((c + 4 - r) % 4)) := fun r hr c hc => by
  interval_cases r <;> interval_cases c <;> rfl

/-! ## The inverse laws (R177) -/

theorem addRoundKey_addRoundKey (s k : Block) : addRoundKey (addRoundKey s k) k = s :=
  Block.ext_byte fun i _ => by simp [addRoundKey]

theorem invSubBytes_subBytes : Function.LeftInverse invSubBytes subBytes :=
  Block.mapQuads_leftInverse (Quad.map_leftInverse sboxInvert_sboxValue)

theorem subBytes_invSubBytes : Function.LeftInverse subBytes invSubBytes :=
  Block.mapQuads_leftInverse (Quad.map_leftInverse sboxValue_sboxInvert)

theorem invShiftRows_shiftRows (s : Block) : invShiftRows (shiftRows s) = s := rfl

theorem shiftRows_invShiftRows (s : Block) : shiftRows (invShiftRows s) = s := rfl

theorem invMixColumns_mixColumns : Function.LeftInverse invMixColumns mixColumns :=
  Block.mapQuads_leftInverse invMixColumn_mixColumn

theorem mixColumns_invMixColumns : Function.LeftInverse mixColumns invMixColumns :=
  Block.mapQuads_leftInverse mixColumn_invMixColumn

/-- ShiftRows moves bytes and SubBytes replaces each where it stands. -/
theorem subBytes_shiftRows (s : Block) : subBytes (shiftRows s) = shiftRows (subBytes s) := rfl

/-! ## The statements -/

/-- Settles O40: ADDRK has no check, and AddRoundKey adds byte by byte. -/
theorem addrkXorsTheRoundKeyIntoTheState : Obligations.AddrkXorsTheRoundKeyIntoTheState :=
  ⟨selectedByMask .ADDRK, fun s => ⟨addRoundKey s.st s.rk, ⟨_, _, rfl⟩, fun i _ => Block.byte_xor s.st s.rk i⟩⟩

/-- Settles O41: both apply their table to each byte of each column. -/
theorem subbytesActsOnEveryByte : Obligations.SubbytesActsOnEveryByte :=
  ⟨selectedByMask .SUBBYTES, selectedByMask .INVSUBBYTES, fun s =>
    ⟨⟨subBytes s.st, ⟨_, _, rfl⟩, fun i _ => Block.byte_mapQuads_map sboxValue s.st i⟩,
      ⟨invSubBytes s.st, ⟨_, _, rfl⟩, fun i _ => Block.byte_mapQuads_map sboxInvert s.st i⟩⟩⟩

/-- Settles O42: in the columns that ShiftRows and InvShiftRows write out, each byte is the one its index names. -/
theorem shiftrowsRotatesRowRByR : Obligations.ShiftrowsRotatesRowRByR :=
  ⟨selectedByMask .SHIFTROWS, selectedByMask .INVSHIFTROWS, fun s =>
    ⟨⟨shiftRows s.st, ⟨_, _, rfl⟩, shiftRows_byte s.st⟩,
      ⟨invShiftRows s.st, ⟨_, _, rfl⟩, invShiftRows_byte s.st⟩⟩⟩

/-- Settles O43: the rows of both column functions are the rows of their matrix times the column. -/
theorem mixcolumnsIsTheMatrixProduct : Obligations.MixcolumnsIsTheMatrixProduct :=
  ⟨selectedByMask .MIXCOLUMNS, selectedByMask .INVMIXCOLUMNS, fun s =>
    ⟨⟨mixColumns s.st, ⟨_, _, rfl⟩, mixColumn_multipliesBy.byte_mapQuads s.st⟩,
      ⟨invMixColumns s.st, ⟨_, _, rfl⟩, invMixColumn_multipliesBy.byte_mapQuads s.st⟩⟩⟩

/-- Settles O44: the laws of R177, one lemma each. -/
theorem roundTransformsHaveTheirInverses : Obligations.RoundTransformsHaveTheirInverses :=
  fun s k => ⟨addRoundKey_addRoundKey s k, invSubBytes_subBytes s, subBytes_invSubBytes s, invShiftRows_shiftRows s,
    shiftRows_invShiftRows s, invMixColumns_mixColumns s, mixColumns_invMixColumns s, subBytes_shiftRows s⟩

end Sys2Proof.Machine
end

section
/-! PROOFS. The block cipher (`43_block_cipher.md` R190 to R194). The ciphers of the statements are those of the
model; each layer of a round is undone by its inverse, so the ciphers undo each other; and a sequence of commands is
followed from state to state by what it leaves in STATE and RK under an installed schedule. -/

namespace Sys2Proof.Machine

open Sys2Proof.Spec

/-! ## The ciphers over SCHED (R190, R191) -/

theorem scheduleBlock_eq_roundKey (s : State) : scheduleBlock s = s.roundKey := by
  funext r
  exact Block.ext_byte fun k hk => by rw [scheduleBlock, Block.byte_ofBytes _ _ hk, State.roundKey_byte _ _ _ hk]

section
variable (w : Nat → Block)

theorem encRounds_eq_foldl (n : Nat) (b : Block) :
    encRounds w n b = (List.range' 1 n).foldl (fun x r => encRound (w r) x) b := by
  induction n with
  | zero => rfl
  | succ n ih => rw [encRounds, ih, List.range'_1_concat, List.foldl_concat, Nat.add_comm 1 n]

theorem decRounds_eq_foldl (n : Nat) (b : Block) :
    decRounds w n b = (List.range' 1 n).reverse.foldl (fun x r => decRound (w r) x) b := by
  induction n generalizing b with
  | zero => rfl
  | succ n ih => rw [decRounds, ih, List.range'_1_concat, List.reverse_concat, List.foldl_cons, Nat.add_comm 1 n]

end

theorem State.encryptBlock_eq_cipherBlock (s : State) (b : Block) :
    s.encryptBlock b = cipherBlock s s.status.nr.toNat b := by
  rw [State.encryptBlock, cipher, encRounds_eq_foldl, cipherBlock, scheduleBlock_eq_roundKey]
  rfl

theorem State.decryptBlock_eq_invCipherBlock (s : State) (b : Block) :
    s.decryptBlock b = invCipherBlock s s.status.nr.toNat b := by
  rw [State.decryptBlock, invCipher, decRounds_eq_foldl, invCipherBlock, scheduleBlock_eq_roundKey]
  rfl

/-! ## The commands ENCRYPT and DECRYPT -/

section
variable {s : State} (hv : s.status.keyValid = true)
include hv

theorem completesAs_encrypt : CompletesAs .encrypt s { s with st := s.encryptBlock s.st } := by
  have hexec : exec .encrypt s = s.conclude (.ok { s with st := s.encryptBlock s.st }) := by
    rw [exec, execEncrypt_eq, if_neg (by simp [hv])]
  exact ⟨_, _, hexec⟩

theorem completesAs_decrypt : CompletesAs .decrypt s { s with st := s.decryptBlock s.st } := by
  have hexec : exec .decrypt s = s.conclude (.ok { s with st := s.decryptBlock s.st }) := by
    rw [exec, execDecrypt_eq, if_neg (by simp [hv])]
  exact ⟨_, _, hexec⟩

end

/-- Settles O45: ENCRYPT's loop runs the rounds of the fold, and KEYVALID is its only check. -/
theorem encryptAppliesTheCipherToTheState : Obligations.EncryptAppliesTheCipherToTheState :=
  ⟨selectedByMask .ENCRYPT, fun s =>
    ⟨fun hv => s.encryptBlock_eq_cipherBlock s.st ▸ completesAs_encrypt hv,
      fun hv => failsWith_of_firstError ⟨rfl, hv⟩⟩⟩

/-- Settles O46: DECRYPT's loop runs the rounds of the fold, and KEYVALID is its only check. -/
theorem decryptAppliesTheInverseCipherToTheState : Obligations.DecryptAppliesTheInverseCipherToTheState :=
  ⟨selectedByMask .DECRYPT, fun s =>
    ⟨fun hv => s.decryptBlock_eq_invCipherBlock s.st ▸ completesAs_decrypt hv,
      fun hv => failsWith_of_firstError ⟨rfl, hv⟩⟩⟩

/-! ## The ciphers undo each other (R192)

A decryption round starts behind SubBytes and ShiftRows of the encryption round it undoes and ends behind those of
the round before it. -/

theorem invSubBytes_invShiftRows_shiftRows_subBytes (b : Block) :
    invSubBytes (invShiftRows (shiftRows (subBytes b))) = b := by
  rw [invShiftRows_shiftRows, invSubBytes_subBytes]

theorem shiftRows_subBytes_invSubBytes_invShiftRows (b : Block) :
    shiftRows (subBytes (invSubBytes (invShiftRows b))) = b := by
  rw [subBytes_invSubBytes, shiftRows_invShiftRows]

theorem decRound_encRound (k b : Block) :
    decRound k (shiftRows (subBytes (encRound k b))) = shiftRows (subBytes b) := by
  rw [decRound, invSubBytes_invShiftRows_shiftRows_subBytes, encRound, addRoundKey_addRoundKey,
    invMixColumns_mixColumns]

theorem encRound_decRound (k b : Block) :
    encRound k (invSubBytes (invShiftRows (decRound k b))) = invSubBytes (invShiftRows b) := by
  rw [encRound, shiftRows_subBytes_invSubBytes_invShiftRows, decRound, mixColumns_invMixColumns,
    addRoundKey_addRoundKey]

section
variable (w : Nat → Block)

theorem decRounds_encRounds (n : Nat) (b : Block) :
    decRounds w n (shiftRows (subBytes (encRounds w n b))) = shiftRows (subBytes b) := by
  induction n with
  | zero => rfl
  | succ n ih => rw [encRounds, decRounds, decRound_encRound, ih]

theorem encRounds_decRounds (n : Nat) (b : Block) :
    encRounds w n (invSubBytes (invShiftRows (decRounds w n b))) = invSubBytes (invShiftRows b) := by
  induction n generalizing b with
  | zero => rfl
  | succ n ih => rw [encRounds, decRounds, ih, encRound_decRound]

theorem invCipher_cipher (nr : Nat) (b : Block) : invCipher w nr (cipher w nr b) = b := by
  rw [invCipher, cipher, encFinal, addRoundKey_addRoundKey, decRounds_encRounds, decFinal,
    invSubBytes_invShiftRows_shiftRows_subBytes, addRoundKey_addRoundKey]

theorem cipher_invCipher (nr : Nat) (b : Block) : cipher w nr (invCipher w nr b) = b := by
  rw [cipher, invCipher, decFinal, addRoundKey_addRoundKey, encRounds_decRounds, encFinal,
    shiftRows_subBytes_invSubBytes_invShiftRows, addRoundKey_addRoundKey]

end

/-! ## Commands one after another -/

/-- From a state with the property `P` the run answers a next state, which has the property `Q`. -/
def Leads (run : State → Host.Outcome State Fault Refusal) (P Q : State → Prop) : Prop :=
  ∀ s, P s → ∃ t, run s = .next t ∧ Q t

theorem performAll_append {is js : List Instr} {s t : State} (h : performAll is s = .next t) :
    performAll (is ++ js) s = performAll js t := by
  induction is generalizing s with
  | nil =>
    cases h
    rfl
  | cons i is ih =>
    obtain ⟨u, hu⟩ : ∃ u, perform i s = .next u := exec_next i _
    rw [performAll, hu] at h
    rw [List.cons_append, performAll, hu]
    exact ih h

theorem leads_performAll_nil (P : State → Prop) : Leads (performAll []) P P := fun s h => ⟨s, rfl, h⟩

section
variable {P Q R : State → Prop}

theorem Leads.cons {i : Instr} {is : List Instr} (hi : Leads (perform i) P Q) (his : Leads (performAll is) Q R) :
    Leads (performAll (i :: is)) P R := fun s hs => by
  obtain ⟨t, ht, hq⟩ := hi s hs
  rw [performAll, ht]
  exact his t hq

theorem Leads.append {is js : List Instr} (his : Leads (performAll is) P Q) (hjs : Leads (performAll js) Q R) :
    Leads (performAll (is ++ js)) P R := fun s hs => by
  obtain ⟨t, ht, hq⟩ := his s hs
  rw [performAll_append ht]
  exact hjs t hq

end

/-! ## What the primitives leave in STATE and RK -/

/-- A schedule is installed whose round keys are `w` and whose round count is `nr`; STATE is `b` and RK is `k`. -/
structure UnderSchedule (w : Nat → Block) (nr : Nat) (b k : Block) (s : State) : Prop where
  keyValid : s.status.keyValid = true
  roundKey : s.roundKey = w
  nr : s.status.nr.toNat = nr
  st : s.st = b
  rk : s.rk = k

theorem State.underSchedule {s : State} (hv : s.status.keyValid = true) :
    UnderSchedule s.roundKey s.status.nr.toNat s.st s.rk s := ⟨hv, rfl, rfl, rfl, rfl⟩

section
variable {w : Nat → Block} {nr : Nat}

/-- Acceptance of a command word keeps the schedule, STATE and RK (R46). -/
theorem UnderSchedule.issue {b k : Block} {s : State} (h : UnderSchedule w nr b k s) (c : Word) :
    UnderSchedule w nr b k (s.issue c) := by
  obtain ⟨hv, hw, hnr, hst, hrk⟩ := h
  exact ⟨hv, hw, hnr, hst, hrk⟩

/-- What the effects of a command leave in the schedule, STATE and RK its completion keeps (R47). -/
theorem leads_perform {i : Instr} {P : State → Prop} {b k : Block}
    (h : ∀ s, P s → ∃ t, CompletesAs i (s.issue (encode i)) t ∧ UnderSchedule w nr b k t) :
    Leads (perform i) P (UnderSchedule w nr b k) := fun s hs => by
  obtain ⟨t, ⟨_, _, hexec⟩, hv, hw, hnr, hst, hrk⟩ := h s hs
  exact ⟨_, hexec, hv, hw, hnr, hst, hrk⟩

section
variable (b k : Block)

theorem leads_getrk {r : Byte} (hr : r.toNat ≤ nr) :
    Leads (perform (.getrk r)) (UnderSchedule w nr b k) (UnderSchedule w nr b (w r.toNat)) :=
  leads_perform fun s hs => by
    obtain ⟨hv, rfl, rfl, hst, -⟩ := hs.issue (encode (.getrk r))
    exact ⟨_, completesAs_getrk hv hr, hv, rfl, rfl, hst, rfl⟩

/-- A command that only replaces STATE, by `f` of STATE and RK. -/
theorem leads_of_replacesState {i : Instr} {f : Block → Block → Block}
    (hi : ∀ s : State, UnderSchedule w nr b k s → CompletesAs i s { s with st := f s.st s.rk }) :
    Leads (perform i) (UnderSchedule w nr b k) (UnderSchedule w nr (f b k) k) :=
  leads_perform fun s hs => by
    have h := hs.issue (encode i)
    have hc := hi _ h
    obtain ⟨hv, hw, hnr, rfl, rfl⟩ := h
    exact ⟨_, hc, hv, hw, hnr, rfl, rfl⟩

theorem leads_addrk : Leads (perform .addrk) (UnderSchedule w nr b k) (UnderSchedule w nr (addRoundKey b k) k) :=
  leads_of_replacesState (f := addRoundKey) b k fun _ _ => ⟨_, _, rfl⟩

theorem leads_subbytes : Leads (perform .subbytes) (UnderSchedule w nr b k) (UnderSchedule w nr (subBytes b) k) :=
  leads_of_replacesState (f := fun b _ => subBytes b) b k fun _ _ => ⟨_, _, rfl⟩

theorem leads_invsubbytes :
    Leads (perform .invsubbytes) (UnderSchedule w nr b k) (UnderSchedule w nr (invSubBytes b) k) :=
  leads_of_replacesState (f := fun b _ => invSubBytes b) b k fun _ _ => ⟨_, _, rfl⟩

theorem leads_shiftrows : Leads (perform .shiftrows) (UnderSchedule w nr b k) (UnderSchedule w nr (shiftRows b) k) :=
  leads_of_replacesState (f := fun b _ => shiftRows b) b k fun _ _ => ⟨_, _, rfl⟩

theorem leads_invshiftrows :
    Leads (perform .invshiftrows) (UnderSchedule w nr b k) (UnderSchedule w nr (invShiftRows b) k) :=
  leads_of_replacesState (f := fun b _ => invShiftRows b) b k fun _ _ => ⟨_, _, rfl⟩

theorem leads_mixcolumns :
    Leads (perform .mixcolumns) (UnderSchedule w nr b k) (UnderSchedule w nr (mixColumns b) k) :=
  leads_of_replacesState (f := fun b _ => mixColumns b) b k fun _ _ => ⟨_, _, rfl⟩

theorem leads_invmixcolumns :
    Leads (perform .invmixcolumns) (UnderSchedule w nr b k) (UnderSchedule w nr (invMixColumns b) k) :=
  leads_of_replacesState (f := fun b _ => invMixColumns b) b k fun _ _ => ⟨_, _, rfl⟩

theorem leads_encrypt :
    Leads (perform .encrypt) (UnderSchedule w nr b k) (UnderSchedule w nr (cipher w nr b) k) :=
  leads_of_replacesState (f := fun b _ => cipher w nr b) b k fun s hs => by
    obtain ⟨hv, rfl, rfl, -, -⟩ := hs
    exact completesAs_encrypt hv

theorem leads_decrypt :
    Leads (perform .decrypt) (UnderSchedule w nr b k) (UnderSchedule w nr (invCipher w nr b) k) :=
  leads_of_replacesState (f := fun b _ => invCipher w nr b) b k fun s hs => by
    obtain ⟨hv, rfl, rfl, -, -⟩ := hs
    exact completesAs_decrypt hv

theorem leads_encrypt_decrypt :
    Leads (performAll [.encrypt, .decrypt]) (UnderSchedule w nr b k) (UnderSchedule w nr b k) := by
  have h := (leads_encrypt (w := w) (nr := nr) b k).cons ((leads_decrypt _ k).cons (leads_performAll_nil _))
  rwa [invCipher_cipher] at h

theorem leads_decrypt_encrypt :
    Leads (performAll [.decrypt, .encrypt]) (UnderSchedule w nr b k) (UnderSchedule w nr b k) := by
  have h := (leads_decrypt (w := w) (nr := nr) b k).cons ((leads_encrypt _ k).cons (leads_performAll_nil _))
  rwa [cipher_invCipher] at h

end
end

/-- Settles O47: each round is undone by its inverse, and a command leaves the schedule for the next one. -/
theorem decryptInvertsEncrypt : Obligations.DecryptInvertsEncrypt := by
  refine ⟨fun w nr b => ⟨invCipher_cipher w nr b, cipher_invCipher w nr b⟩, fun s hv => ?_⟩
  obtain ⟨t, ht, hover⟩ := leads_encrypt_decrypt s.st s.rk s (State.underSchedule hv)
  obtain ⟨u, hu, hback⟩ := leads_decrypt_encrypt s.st s.rk s (State.underSchedule hv)
  exact ⟨⟨t, ht, hover.st⟩, ⟨u, hu, hback.st⟩⟩

/-! ## The rounds as sequences of primitives (R193) -/

section
variable {w : Nat → Block} {nr r : Nat} (hr : r ≤ nr) (b k : Block)
include hr

/-- GETRK of a round index up to NR as an operand byte, which holds every round index. -/
theorem leads_getrk_ofNat :
    Leads (perform (.getrk (BitVec.ofNat 8 r))) (UnderSchedule w nr b k) (UnderSchedule w nr b (w r)) :=
  fun s hs => by
    have hcount : nr < 16 := hs.nr ▸ s.status.nr.isLt
    have hbyte : (BitVec.ofNat 8 r).toNat = r := Nat.mod_eq_of_lt (by omega)
    have hget := leads_getrk (w := w) b k (hbyte.trans_le hr)
    rw [hbyte] at hget
    exact hget s hs

theorem leads_whiten :
    Leads (performAll (pseudoCommands (.whiten (BitVec.ofNat 8 r)))) (UnderSchedule w nr b k)
      (UnderSchedule w nr (whiten (w r) b) (w r)) :=
  (leads_getrk_ofNat hr b k).cons <| (leads_addrk _ _).cons <| leads_performAll_nil _

theorem leads_encRound :
    Leads (performAll (pseudoCommands (.encRound (BitVec.ofNat 8 r)))) (UnderSchedule w nr b k)
      (UnderSchedule w nr (encRound (w r) b) (w r)) :=
  (leads_getrk_ofNat hr b k).cons <| (leads_subbytes _ _).cons <| (leads_shiftrows _ _).cons <|
    (leads_mixcolumns _ _).cons <| (leads_addrk _ _).cons <| leads_performAll_nil _

theorem leads_encFinal :
    Leads (performAll (pseudoCommands (.encFinal (BitVec.ofNat 8 r)))) (UnderSchedule w nr b k)
      (UnderSchedule w nr (encFinal (w r) b) (w r)) :=
  (leads_getrk_ofNat hr b k).cons <| (leads_subbytes _ _).cons <| (leads_shiftrows _ _).cons <|
    (leads_addrk _ _).cons <| leads_performAll_nil _

theorem leads_decRound :
    Leads (performAll (pseudoCommands (.decRound (BitVec.ofNat 8 r)))) (UnderSchedule w nr b k)
      (UnderSchedule w nr (decRound (w r) b) (w r)) :=
  (leads_getrk_ofNat hr b k).cons <| (leads_invshiftrows _ _).cons <| (leads_invsubbytes _ _).cons <|
    (leads_addrk _ _).cons <| (leads_invmixcolumns _ _).cons <| leads_performAll_nil _

end

section
variable {w : Nat → Block} {nr : Nat} (b k : Block)

theorem leads_decFinal :
    Leads (performAll (pseudoCommands .decFinal)) (UnderSchedule w nr b k)
      (UnderSchedule w nr (decFinal (w 0) b) (w 0)) :=
  (leads_getrk_ofNat nr.zero_le b k).cons <| (leads_invshiftrows _ _).cons <| (leads_invsubbytes _ _).cons <|
    (leads_addrk _ _).cons <| leads_performAll_nil _

/-- Rounds one after another, in the order of the list; RK holds the key of the last of them. -/
theorem leads_rounds {p : Byte → Pseudo} {round : Block → Block → Block}
    (hround : ∀ r ≤ nr, ∀ b k, Leads (performAll (pseudoCommands (p (BitVec.ofNat 8 r)))) (UnderSchedule w nr b k)
      (UnderSchedule w nr (round (w r) b) (w r)))
    {rs : List Nat} (hrs : ∀ r ∈ rs, r ≤ nr) :
    ∃ k', Leads (performAll (rs.flatMap fun r => pseudoCommands (p (BitVec.ofNat 8 r)))) (UnderSchedule w nr b k)
      (UnderSchedule w nr (rs.foldl (fun x r => round (w r) x) b) k') := by
  induction rs generalizing b k with
  | nil => exact ⟨k, leads_performAll_nil _⟩
  | cons r rs ih =>
    obtain ⟨hr, hrs⟩ := List.forall_mem_cons.1 hrs
    obtain ⟨k', hrest⟩ := ih (round (w r) b) (w r) hrs
    exact ⟨k', (hround r hr b k).append hrest⟩

/-- The full rounds of both ciphers have indices up to NR. -/
theorem le_of_mem_fullRounds {r : Nat} (h : r ∈ List.range' 1 (nr - 1)) : r ≤ nr := by
  rw [List.mem_range'_1] at h
  omega

theorem leads_encryptProgram :
    Leads (performAll (encryptProgram nr)) (UnderSchedule w nr b k) (UnderSchedule w nr (cipher w nr b) (w nr)) := by
  obtain ⟨k', hrounds⟩ := leads_rounds (whiten (w 0) b) (w 0) (fun _ => leads_encRound) fun _ => le_of_mem_fullRounds
  rw [← encRounds_eq_foldl] at hrounds
  exact ((leads_whiten nr.zero_le b k).append hrounds).append (leads_encFinal le_rfl _ k')

theorem leads_decryptProgram :
    Leads (performAll (decryptProgram nr)) (UnderSchedule w nr b k) (UnderSchedule w nr (invCipher w nr b) (w 0)) := by
  obtain ⟨k', hrounds⟩ := leads_rounds (whiten (w nr) b) (w nr) (fun _ => leads_decRound)
    fun _ hr => le_of_mem_fullRounds (List.mem_reverse.1 hr)
  rw [← decRounds_eq_foldl] at hrounds
  exact ((leads_whiten le_rfl b k).append hrounds).append (leads_decFinal _ k')

end

/-- Settles O48: round by round the primitives do to STATE what the ciphers' rounds do. -/
theorem primitiveSequenceEqualsTheCipherCommand : Obligations.PrimitiveSequenceEqualsTheCipherCommand := by
  intro s hv
  have hs := State.underSchedule hv
  constructor
  · obtain ⟨t, ht, htu⟩ := leads_encryptProgram _ _ s hs
    obtain ⟨u, hu, huu⟩ := leads_encrypt _ _ s hs
    exact ⟨t, u, ht, hu, htu.st.trans huu.st.symm, htu.rk, huu.rk⟩
  · obtain ⟨t, ht, htu⟩ := leads_decryptProgram _ _ s hs
    obtain ⟨u, hu, huu⟩ := leads_decrypt _ _ s hs
    exact ⟨t, u, ht, hu, htu.st.trans huu.st.symm, htu.rk, huu.rk⟩

/-! ## The known answers (R194) -/

/-- The words of the key 00 01 02 ... of a size. -/
def countingKeyWords (ks : KeySize) : List Quad :=
  (List.range ks.numKeyWords).map fun j =>
    ⟨BitVec.ofNat 8 (4 * j), BitVec.ofNat 8 (4 * j + 1), BitVec.ofNat 8 (4 * j + 2), BitVec.ofNat 8 (4 * j + 3)⟩

/-- The plaintext 00 11 22 ... ff. -/
def knownPlaintext : Block := Block.ofBytes fun k => BitVec.ofNat 8 (0x11 * k)

/-- The round keys of the key 00 01 02 ... of a size. -/
def countingRoundKeys (ks : KeySize) : Nat → Block :=
  State.roundKey { State.reset with sched := scheduleRam (keyExpansion (countingKeyWords ks) ks) }

theorem State.keyWords_eq_countingKeyWords {s : State} {ks : KeySize}
    (h : ∀ k < 4 * ks.numKeyWords, s.keyByte k = BitVec.ofNat 8 k) : s.keyWords ks = countingKeyWords ks := by
  refine List.ext_getElem (by simp [countingKeyWords]) fun j hj _ => ?_
  rw [State.keyWords_length] at hj
  rw [← List.getD_eq_getElem _ default, State.keyWords_getD _ _ _ hj]
  simp [countingKeyWords, h _ (show 4 * j < _ by omega), h _ (show 4 * j + 1 < _ by omega),
    h _ (show 4 * j + 2 < _ by omega), h _ (show 4 * j + 3 < _ by omega)]

theorem State.roundKey_eq_countingRoundKeys {s : State} {ks : KeySize}
    (h : ∀ k < 4 * ks.numKeyWords, s.keyByte k = BitVec.ofNat 8 k) :
    (s.installSchedule ks).roundKey = countingRoundKeys ks :=
  State.roundKey_congr (by rw [State.installSchedule_sched, State.keyWords_eq_countingKeyWords h])

theorem leads_keyexp {s : State} {ks : KeySize} (h : KeyReady s ks) :
    Leads (perform .keyexp) (· = s) (UnderSchedule (s.installSchedule ks).roundKey ks.numRounds s.st s.rk) :=
  leads_perform fun u hu => by
    subst hu
    obtain ⟨-, -, hnr, hv⟩ := u.installs_installSchedule ks
    exact ⟨_, completesAs_keyexp h, hv, rfl, hnr, rfl, rfl⟩

/-- Settles O49: KEY and STATE determine the schedule and the ciphertext, which is evaluated for each size. -/
theorem knownAnswersAreReproduced : Obligations.KnownAnswersAreReproduced := by
  intro s ks hready hkey hplain
  have hst : s.st = knownPlaintext :=
    Block.ext_byte fun k hk => by rw [hplain k hk, knownPlaintext, Block.byte_ofBytes _ _ hk]
  obtain ⟨t, ht, htu⟩ := (leads_keyexp hready).cons ((leads_encrypt _ _).cons (leads_performAll_nil _)) s rfl
  refine ⟨t, ht, ?_⟩
  rw [htu.st, hst, State.roundKey_eq_countingRoundKeys hkey]
  cases ks
  case k128 => decide +kernel
  case k192 => decide +kernel
  case k256 => decide +kernel

end Sys2Proof.Machine
end

section
/-! PROOFS. The modes (`44_modes.md` R200 to R208). A mode command whose checks pass is InstallSchedule and one
function on the sequence of content blocks; each command's statement is read off its function, and what one command does to
the work of another is a fact about their composition. -/

namespace Sys2Proof.Machine

open Sys2Proof.Spec

/-! ## A mode command with its checks passed (R200) -/

/-- `body` is the block function the command `i` runs after ModeSetup, whose checks are those of every mode. -/
structure RunsMode (i : Instr) (body : State → State → State) : Prop where
  exec_eq : ∀ s, exec i s = s.runMode body
  modeBody : ModeBody body
  firstError : ∀ s e, FirstError s .ecbEnc e → FirstError s i e

theorem ecbEnc_runsMode : RunsMode .ecbEnc ecbEncBlock := ⟨fun _ => rfl, ecbEncBlock_modeBody, fun _ _ => id⟩
theorem ecbDec_runsMode : RunsMode .ecbDec ecbDecBlock := ⟨fun _ => rfl, ecbDecBlock_modeBody, fun _ _ => id⟩
theorem cbcEnc_runsMode : RunsMode .cbcEnc cbcEncBlock := ⟨fun _ => rfl, cbcEncBlock_modeBody, fun _ _ => id⟩
theorem cbcDec_runsMode : RunsMode .cbcDec cbcDecBlock := ⟨fun _ => rfl, cbcDecBlock_modeBody, fun _ _ => id⟩

theorem exists_runsMode {i : Instr} (h : i ∈ [Instr.ecbEnc, .ecbDec, .cbcEnc, .cbcDec]) :
    ∃ body, RunsMode i body := by
  simp only [List.mem_cons, List.not_mem_nil, or_false] at h
  rcases h with rfl | rfl | rfl | rfl
  · exact ⟨_, ecbEnc_runsMode⟩
  · exact ⟨_, ecbDec_runsMode⟩
  · exact ⟨_, cbcEnc_runsMode⟩
  · exact ⟨_, cbcDec_runsMode⟩

/-- The effects of a mode command, the work registers aside: the schedule, then the blocks below LEN. -/
def State.modeEffects (s : State) (ks : KeySize) (body : State → State → State) : State :=
  { (s.installSchedule ks).startBlocks.runBlocks s.blockCount body with work := s.work }

section
variable {i : Instr} {body : State → State → State} {s : State} {ks : KeySize}

theorem RunsMode.completesAs (hi : RunsMode i body) (h : ModeReady s ks) : CompletesAs i s (s.modeEffects ks body) := by
  obtain ⟨⟨hsize, hlen⟩, halign, hcap⟩ := h
  have hexec : exec i s =
      s.conclude (.ok ((s.installSchedule ks).startBlocks.runBlocks s.blockCount body)) := by
    rw [hi.exec_eq, State.runMode, State.modeSetup_ok hsize hlen halign hcap]
    rfl
  exact ⟨_, _, hexec⟩

theorem ModeBody.modeEffects_frame (hm : ModeBody body) (s : State) (ks : KeySize) :
    (s.installSchedule ks).SameButBlocks (s.modeEffects ks body) :=
  ⟨by rw [State.modeEffects, (hm.runBlocks_frame (s.installSchedule ks) s.blockCount).rest]⟩

theorem ModeBody.withinWriteSet_modeEffects (hm : ModeBody body) (s : State) (ks : KeySize) :
    WithinWriteSet .mode s (s.modeEffects ks body) :=
  (hm.runBlocks_frame (s.installSchedule ks) s.blockCount).withinWriteSet_mode fun _ hk =>
    hm.runBlocks_bufByte_above (s.installSchedule ks) hk

theorem ModeBody.installs_modeEffects (hm : ModeBody body) (s : State) (ks : KeySize) :
    Installs ks s (s.modeEffects ks body) := by
  rw [(hm.modeEffects_frame s ks).rest]
  exact s.installs_installSchedule ks

/-- With LEN = 0 there is no block, and the schedule is all that a mode command writes (R205). -/
theorem ModeBody.modeEffects_of_len_zero (hm : ModeBody body) (h : s.len = 0) :
    s.modeEffects ks body = s.installSchedule ks := by
  have hcount : s.blockCount = 0 := by rw [State.blockCount, h]; rfl
  rw [State.modeEffects, hm.runBlocks_eq, hcount]
  rfl

end

/-- LEN is the size of the content blocks, as the checks find it (R200). -/
theorem lt_blockCount_iff {s : State} {ks : KeySize} (h : ModeReady s ks) (j : Nat) :
    j < s.blockCount ↔ 16 * j < s.len.toNat := by
  obtain ⟨-, halign, -⟩ := h
  rw [State.blockCount]
  omega

/-! ## The modes as functions of the content blocks (R201 to R204) -/

/-- The blocks after n blocks of ECB, each mapped on its own (R201, R202). -/
def ecbBlocks (f : Block → Block) (n : Nat) (x : Nat → Block) (j : Nat) : Block :=
  if j < n then f (x j) else x j

/-- Ciphertext block j of CBC: the cipher of plaintext block j and the ciphertext block before (R203). -/
def cbcCiphertext (f : Block → Block) (iv : Block) (x : Nat → Block) : Nat → Block
  | 0 => f ((x 0).xor iv)
  | j + 1 => f ((x (j + 1)).xor (cbcCiphertext f iv x j))

/-- The blocks after n blocks of CBC_ENC (R203). -/
def cbcEncBlocks (f : Block → Block) (n : Nat) (iv : Block) (x : Nat → Block) (j : Nat) : Block :=
  if j < n then cbcCiphertext f iv x j else x j

/-- The blocks after n blocks of CBC_DEC: the block before is the original one (R204). -/
def cbcDecBlocks (f : Block → Block) (n : Nat) (iv : Block) (x : Nat → Block) (j : Nat) : Block :=
  if j < n then (f (x j)).xor (chained iv x j) else x j

section
variable (f : Block → Block) (iv : Block) (x : Nat → Block)

theorem cbcCiphertext_eq_chained (j : Nat) :
    cbcCiphertext f iv x j = f ((x j).xor (chained iv (cbcCiphertext f iv x) j)) := by
  cases j with
  | zero => rfl
  | succ j => rfl

/-- Blocks each of which chains with the one before are the ciphertext of CBC. -/
theorem eq_cbcEncBlocks {n : Nat} {y : Nat → Block}
    (h : ∀ j, y j = if j < n then f ((x j).xor (chained iv y j)) else x j) : y = cbcEncBlocks f n iv x := by
  have hbelow : ∀ j < n, y j = cbcCiphertext f iv x j := fun j => by
    induction j with
    | zero => exact fun hj => by rw [h, if_pos hj]; rfl
    | succ j ih => exact fun hj => by rw [h, if_pos hj, chained_succ, ih (by omega)]; rfl
  funext j
  rw [cbcEncBlocks]
  split_ifs with hj
  · exact hbelow j hj
  · rw [h, if_neg hj]

end

/-! ## What each mode command does to the content blocks -/

section
variable (s : State) (ks : KeySize)

theorem State.installSchedule_nr_toNat : (s.installSchedule ks).status.nr.toNat = ks.numRounds := by
  cases ks <;> rfl

/-- Under an installed schedule the ciphers run the round count of the key size (R156). -/
theorem State.encryptBlock_installSchedule :
    (s.installSchedule ks).encryptBlock = cipher (s.installSchedule ks).roundKey ks.numRounds := by
  funext b
  rw [State.encryptBlock, s.installSchedule_nr_toNat ks]

theorem State.decryptBlock_installSchedule :
    (s.installSchedule ks).decryptBlock = invCipher (s.installSchedule ks).roundKey ks.numRounds := by
  funext b
  rw [State.decryptBlock, s.installSchedule_nr_toNat ks]

theorem ModeBody.modeEffects_block {body : State → State → State} (hm : ModeBody body) :
    (s.modeEffects ks body).block =
      (times s.blockCount (sequentially body) (s.installSchedule ks).startBlocks).block := by
  funext j
  rw [State.modeEffects, hm.runBlocks_eq, State.block_work]

theorem block_modeEffects_ecbEnc :
    (s.modeEffects ks ecbEncBlock).block =
      ecbBlocks (cipher (s.installSchedule ks).roundKey ks.numRounds) s.blockCount s.block := by
  obtain ⟨-, hblock⟩ := times_ecbEncBlock s.blockCount (s.installSchedule ks).startBlocks
  funext j
  rw [ecbEncBlock_modeBody.modeEffects_block, hblock, ecbBlocks, ← State.encryptBlock_installSchedule]
  exact if_congr (by simp) rfl rfl

theorem block_modeEffects_ecbDec :
    (s.modeEffects ks ecbDecBlock).block =
      ecbBlocks (invCipher (s.installSchedule ks).roundKey ks.numRounds) s.blockCount s.block := by
  obtain ⟨-, hblock⟩ := times_ecbDecBlock s.blockCount (s.installSchedule ks).startBlocks
  funext j
  rw [ecbDecBlock_modeBody.modeEffects_block, hblock, ecbBlocks, ← State.decryptBlock_installSchedule]
  exact if_congr (by simp) rfl rfl

theorem block_modeEffects_cbcEnc :
    (s.modeEffects ks cbcEncBlock).block =
      cbcEncBlocks (cipher (s.installSchedule ks).roundKey ks.numRounds) s.blockCount s.iv s.block := by
  obtain ⟨-, -, hblock⟩ := times_cbcEncBlock s.blockCount (s.installSchedule ks).startBlocks rfl
  rw [cbcEncBlock_modeBody.modeEffects_block, ← State.encryptBlock_installSchedule]
  exact eq_cbcEncBlocks _ _ _ hblock

theorem block_modeEffects_cbcDec :
    (s.modeEffects ks cbcDecBlock).block =
      cbcDecBlocks (invCipher (s.installSchedule ks).roundKey ks.numRounds) s.blockCount s.iv s.block := by
  obtain ⟨-, -, hblock⟩ := times_cbcDecBlock s.blockCount (s.installSchedule ks).startBlocks rfl
  rw [cbcDecBlock_modeBody.modeEffects_block, ← State.decryptBlock_installSchedule]
  exact funext hblock

end

/-! ## The ciphers of the statements, over the SCHED a command leaves -/

section
variable {s t : State} {ks : KeySize} (h : (s.installSchedule ks).SameButBlocks t)
include h

theorem State.SameButBlocks.nr_toNat : t.status.nr.toNat = ks.numRounds := by
  rw [h.rest]
  exact s.installSchedule_nr_toNat ks

theorem State.SameButBlocks.cipherBlock_eq (b : Block) :
    cipherBlock t ks.numRounds b = cipher (s.installSchedule ks).roundKey ks.numRounds b := by
  rw [← h.nr_toNat, ← State.encryptBlock_eq_cipherBlock, h.encryptBlock, State.encryptBlock_installSchedule,
    h.nr_toNat]

theorem State.SameButBlocks.invCipherBlock_eq (b : Block) :
    invCipherBlock t ks.numRounds b = invCipher (s.installSchedule ks).roundKey ks.numRounds b := by
  rw [← h.nr_toNat, ← State.decryptBlock_eq_invCipherBlock, h.decryptBlock, State.decryptBlock_installSchedule,
    h.nr_toNat]

end

/-- A mode command whose checks pass completes within its write set, with the schedule installed (R200, R43). -/
theorem RunsMode.exists_completesAs {i : Instr} {body : State → State → State} {s : State} {ks : KeySize}
    {P : State → Prop} (hi : RunsMode i body) (h : ModeReady s ks) (hP : P (s.modeEffects ks body)) :
    ∃ t, CompletesAs i s t ∧ WithinWriteSet .mode s t ∧ Installs ks s t ∧ P t :=
  ⟨_, hi.completesAs h, hi.modeBody.withinWriteSet_modeEffects s ks, hi.modeBody.installs_modeEffects s ks, hP⟩

/-- Settles O50: each block below LEN is the cipher, or inverse cipher, of the block that stood there. -/
theorem ecbTransformsEveryBlockOnItsOwn : Obligations.EcbTransformsEveryBlockOnItsOwn := by
  refine ⟨selectedByMask .ECB_ENC, selectedByMask .ECB_DEC, fun s ks h =>
    ⟨ecbEnc_runsMode.exists_completesAs h fun j hj => ?_, ecbDec_runsMode.exists_completesAs h fun j hj => ?_⟩⟩
  · rw [(ecbEncBlock_modeBody.modeEffects_frame s ks).cipherBlock_eq, block_modeEffects_ecbEnc, ecbBlocks,
      if_pos ((lt_blockCount_iff h j).2 hj)]
  · rw [(ecbDecBlock_modeBody.modeEffects_frame s ks).invCipherBlock_eq, block_modeEffects_ecbDec, ecbBlocks,
      if_pos ((lt_blockCount_iff h j).2 hj)]

/-- Settles O51: the ciphertext blocks are those of CBC's recursion. -/
theorem cbcEncChainsWithThePreviousCiphertext : Obligations.CbcEncChainsWithThePreviousCiphertext := by
  refine ⟨selectedByMask .CBC_ENC, fun s ks h => cbcEnc_runsMode.exists_completesAs h ?_⟩
  have hframe := cbcEncBlock_modeBody.modeEffects_frame s ks
  have hbelow : ∀ j, 16 * j < s.len.toNat → (s.modeEffects ks cbcEncBlock).block j =
      cbcCiphertext (cipher (s.installSchedule ks).roundKey ks.numRounds) s.iv s.block j := fun j hj => by
    rw [block_modeEffects_cbcEnc, cbcEncBlocks, if_pos ((lt_blockCount_iff h j).2 hj)]
  refine ⟨fun hpos => ?_, fun j hj => ?_⟩
  · rw [hframe.cipherBlock_eq, hbelow 0 hpos, cbcCiphertext]
  · rw [hframe.cipherBlock_eq, hbelow _ hj, hbelow j (by omega), cbcCiphertext]

/-- Settles O52: the chaining value of a block is the block before it as it stood, the first one IV. -/
theorem cbcDecAddsThePreviousOriginalCiphertext : Obligations.CbcDecAddsThePreviousOriginalCiphertext := by
  refine ⟨selectedByMask .CBC_DEC, fun s ks h => cbcDec_runsMode.exists_completesAs h ?_⟩
  have hbelow : ∀ j, 16 * j < s.len.toNat → (s.modeEffects ks cbcDecBlock).block j =
      (invCipherBlock (s.modeEffects ks cbcDecBlock) ks.numRounds (s.block j)).xor (chained s.iv s.block j) :=
    fun j hj => by
      rw [(cbcDecBlock_modeBody.modeEffects_frame s ks).invCipherBlock_eq, block_modeEffects_cbcDec, cbcDecBlocks,
        if_pos ((lt_blockCount_iff h j).2 hj)]
  exact ⟨hbelow 0, fun j => hbelow (j + 1)⟩

/-- Settles O53: LEN = 0 passes the checks of LEN and leaves a loop over no block. -/
theorem zeroLengthInstallsTheScheduleOnly : Obligations.ZeroLengthInstallsTheScheduleOnly := by
  intro s i hmem hzero
  obtain ⟨body, hi⟩ := exists_runsMode hmem
  have hlen : s.len.toNat = 0 := by rw [hzero]; rfl
  refine ⟨fun ks h => ⟨s.installSchedule ks, ?_, rfl, s.installs_installSchedule ks⟩, fun hbad => ?_,
    fun hsize hbad => ?_⟩
  · rw [← hi.modeBody.modeEffects_of_len_zero hzero]
    exact hi.completesAs ⟨h, by omega, by omega⟩
  · exact failsWith_of_firstError (hi.firstError _ _ (.inl ⟨rfl, hbad⟩))
  · exact failsWith_of_firstError (hi.firstError _ _ (.inr (.inr (.inl ⟨rfl, hsize, by omega, hbad⟩))))

/-- Settles O55: ECB maps every block by one function. -/
theorem ecbMapsEqualBlocksToEqualBlocks : Obligations.EcbMapsEqualBlocksToEqualBlocks := by
  intro s ks h
  obtain ⟨_, _, hexec⟩ := ecbEnc_runsMode.completesAs h
  refine ⟨_, hexec, fun i j hi hj heq => ?_⟩
  have hblocks : (s.modeEffects ks ecbEncBlock).block i = (s.modeEffects ks ecbEncBlock).block j := by
    rw [block_modeEffects_ecbEnc, ecbBlocks, ecbBlocks, if_pos ((lt_blockCount_iff h i).2 hi),
      if_pos ((lt_blockCount_iff h j).2 hj), heq]
  exact hblocks

/-! ## One mode command after another -/

/-- The checks of a mode command pass, its schedule has the round keys `w`, it works on `n` blocks under `iv`, and
the content blocks are `x`. -/
structure UnderMode (ks : KeySize) (w : Nat → Block) (n : Nat) (iv : Block) (x : Nat → Block)
    (s : State) : Prop where
  ready : ModeReady s ks
  roundKey : (s.installSchedule ks).roundKey = w
  blockCount : s.blockCount = n
  iv : s.iv = iv
  block : s.block = x

theorem UnderMode.of_modeReady {s : State} {ks : KeySize} (h : ModeReady s ks) :
    UnderMode ks (s.installSchedule ks).roundKey s.blockCount s.iv s.block s := ⟨h, rfl, rfl, rfl, rfl⟩

section
variable {ks : KeySize} {w : Nat → Block} {n : Nat} {iv : Block} {x : Nat → Block} {s : State}

/-- Acceptance of a command word keeps what a mode command reads (R46). -/
theorem UnderMode.issue (h : UnderMode ks w n iv x s) (c : Word) : UnderMode ks w n iv x (s.issue c) := by
  obtain ⟨hready, hw, hn, hiv, hx⟩ := h
  exact ⟨hready, hw, hn, hiv, hx⟩

/-- The host may write another IV between two commands. -/
theorem UnderMode.setIv (h : UnderMode ks w n iv x s) (iv' : Block) : UnderMode ks w n iv' x { s with iv := iv' } := by
  obtain ⟨hready, hw, hn, -, hx⟩ := h
  exact ⟨hready, hw, hn, rfl, hx⟩

/-- A mode command leaves everything that the next one reads but the content blocks. -/
theorem RunsMode.leads {i : Instr} {body : State → State → State} {y : Nat → Block} (hi : RunsMode i body)
    (hy : ∀ s, UnderMode ks w n iv x s → (s.modeEffects ks body).block = y) :
    Leads (perform i) (UnderMode ks w n iv x) (UnderMode ks w n iv y) := fun s hs => by
  have hissued := hs.issue (encode i)
  have hblock := hy _ hissued
  obtain ⟨hready, hw, hn, hiv, -⟩ := hissued
  obtain ⟨_, _, hexec⟩ := hi.completesAs hready
  refine ⟨_, hexec, ?_, ?_, ?_, ?_, hblock⟩
  all_goals rw [(hi.modeBody.modeEffects_frame (s.issue (encode i)) ks).rest]
  · exact hready
  · exact hw
  · exact hn
  · exact hiv

variable (x)

theorem leads_ecbEnc :
    Leads (perform .ecbEnc) (UnderMode ks w n iv x) (UnderMode ks w n iv (ecbBlocks (cipher w ks.numRounds) n x)) :=
  ecbEnc_runsMode.leads fun s ⟨_, hw, hn, _, hx⟩ => by rw [block_modeEffects_ecbEnc, hw, hn, hx]

theorem leads_ecbDec :
    Leads (perform .ecbDec) (UnderMode ks w n iv x) (UnderMode ks w n iv (ecbBlocks (invCipher w ks.numRounds) n x)) :=
  ecbDec_runsMode.leads fun s ⟨_, hw, hn, _, hx⟩ => by rw [block_modeEffects_ecbDec, hw, hn, hx]

theorem leads_cbcEnc :
    Leads (perform .cbcEnc) (UnderMode ks w n iv x)
      (UnderMode ks w n iv (cbcEncBlocks (cipher w ks.numRounds) n iv x)) :=
  cbcEnc_runsMode.leads fun s ⟨_, hw, hn, hiv, hx⟩ => by rw [block_modeEffects_cbcEnc, hw, hn, hiv, hx]

theorem leads_cbcDec :
    Leads (perform .cbcDec) (UnderMode ks w n iv x)
      (UnderMode ks w n iv (cbcDecBlocks (invCipher w ks.numRounds) n iv x)) :=
  cbcDec_runsMode.leads fun s ⟨_, hw, hn, hiv, hx⟩ => by rw [block_modeEffects_cbcDec, hw, hn, hiv, hx]

end

/-! ## Decryption of what encryption made (R206, R208) -/

theorem block_xor_xor_cancel (a b : Block) : (a.xor b).xor b = a := addRoundKey_addRoundKey a b

section
variable {f g : Block → Block} (hgf : Function.LeftInverse g f) (n : Nat) (iv iv' : Block) (x : Nat → Block)
include hgf

theorem ecbBlocks_leftInverse : Function.LeftInverse (ecbBlocks g n) (ecbBlocks f n) := fun x => by
  funext j
  unfold ecbBlocks
  split_ifs
  · exact hgf _
  · rfl

/-- CBC decryption of a CBC ciphertext: the two chaining values of a block are the same ciphertext block, but for the
first block, where they are the two IVs. -/
theorem cbcDecBlocks_cbcEncBlocks (j : Nat) :
    cbcDecBlocks g n iv' (cbcEncBlocks f n iv x) j =
      if j = 0 ∧ 0 < n then ((x 0).xor iv).xor iv' else x j := by
  by_cases hj : j < n
  · have hprev : chained iv' (cbcEncBlocks f n iv x) j = chained iv' (cbcCiphertext f iv x) j :=
      chained_congr fun k hk => by rw [cbcEncBlocks, if_pos (by omega)]
    rw [cbcDecBlocks, if_pos hj, hprev, cbcEncBlocks, if_pos hj, cbcCiphertext_eq_chained, hgf]
    cases j with
    | zero => rw [if_pos ⟨rfl, hj⟩, chained_zero, chained_zero]
    | succ j => rw [if_neg (by omega), chained_succ, chained_succ, block_xor_xor_cancel]
  · rw [cbcDecBlocks, if_neg hj, cbcEncBlocks, if_neg hj, if_neg (by omega)]

theorem cbcDecBlocks_leftInverse : Function.LeftInverse (cbcDecBlocks g n iv) (cbcEncBlocks f n iv) := fun x => by
  funext j
  rw [cbcDecBlocks_cbcEncBlocks hgf, block_xor_xor_cancel]
  split_ifs with h
  · rw [h.1]
  · rfl

end

theorem State.bufByte_eq_of_block {s t : State} (h : s.block = t.block) (k : Nat) : s.bufByte k = t.bufByte k := by
  rw [State.bufByte_eq_block, State.bufByte_eq_block t, h]

/-- Settles O54: the wrong IV is a chaining value of the first block only. -/
theorem wrongIvSpoilsTheFirstBlockOnly : Obligations.WrongIvSpoilsTheFirstBlockOnly := by
  intro s ks iv' h
  obtain ⟨t, ht, htu⟩ := leads_cbcEnc _ s (.of_modeReady h)
  obtain ⟨u, hu, huu⟩ := leads_cbcDec _ _ (htu.setIv iv')
  refine ⟨t, u, ht, hu, fun k hk => ?_⟩
  have hpos : 0 < s.blockCount := (lt_blockCount_iff h 0).2 (by omega)
  rw [State.bufByte_eq_block u, huu.block, cbcDecBlocks_cbcEncBlocks (invCipher_cipher _ _)]
  by_cases hfirst : k < 16
  · rw [if_pos ⟨by omega, hpos⟩, if_pos hfirst, Nat.mod_eq_of_lt hfirst, Block.byte_xor, Block.byte_xor,
      State.block_byte _ _ _ hfirst, Nat.mul_zero, Nat.zero_add]
  · rw [if_neg (by omega), if_neg hfirst, ← State.bufByte_eq_block]

/-- Settles O56: the encryption leaves KEY, KEYCFG, LEN and IV to the decryption, which undoes it on the blocks. -/
theorem modesRoundTrip : Obligations.ModesRoundTrip := by
  intro s ks h
  have hinv := invCipher_cipher (s.installSchedule ks).roundKey ks.numRounds
  have hs := UnderMode.of_modeReady h
  obtain ⟨t, ht, htu⟩ := (leads_ecbEnc s.block).cons ((leads_ecbDec _).cons (leads_performAll_nil _)) s hs
  obtain ⟨u, hu, huu⟩ := (leads_cbcEnc s.block).cons ((leads_cbcDec _).cons (leads_performAll_nil _)) s hs
  exact ⟨⟨t, ht, State.bufByte_eq_of_block (htu.block.trans (ecbBlocks_leftInverse hinv _ _))⟩,
    ⟨u, hu, State.bufByte_eq_of_block (huu.block.trans (cbcDecBlocks_leftInverse hinv _ _ _))⟩⟩

end Sys2Proof.Machine
end

section
/-! PROOFS. The first failing check decides how the command in flight ends (`60_exceptions.md` R222, R223). -/

namespace Sys2Proof.Machine

open Sys2Proof.Spec

/-- An illegal word that is due completes with ERR_ILLEGAL, and no other check is made (R222, R223). -/
theorem stepFailsWith_of_illegal {s : State} {x : IllegalWord} (hbusy : s.phase = .busy) (hlatency : s.latency = 0)
    (hawaiting : s.awaitingReset = false) (hhost : s.undisturbed 1) (hillegal : decode s.cmd = .error x) :
    StepFailsWith s .illegal :=
  have hstep : step s = s.runCommand := step_of_due hbusy hlatency hawaiting hhost
  ⟨_, _, hstep.trans (State.runCommand_of_illegal hillegal)⟩

/-- A command with no failing check completes and leaves the error field to acceptance, which cleared it (R222). -/
theorem completesKeepingError_of_no_firstError {i : Instr} {s : State} (h : ∀ e, ¬ FirstError s i e) :
    ∃ t, CompletesAs i s t ∧ t.status.error = s.status.error :=
  have ⟨t, hcompletes, _, herror⟩ := completesWithin_of_no_firstError h
  ⟨t, hcompletes, herror⟩

/-- Settles O11: decoding is the check before all others, and a decoded command ends as its own row of checks
decides. -/
theorem firstFailingCheckDecides : Obligations.FirstFailingCheckDecides :=
  ⟨fun _ _ => stepFailsWith_of_illegal,
    fun _ _ => ⟨fun _ => failsWith_of_firstError, completesKeepingError_of_no_firstError⟩⟩

end Sys2Proof.Machine
end

section
/-! PROOFS. Encoding and decoding undo each other (`30_encoding.md` R90 to R94), and the word a mnemonic statement
assembles to (R97). -/

namespace Sys2Proof

open Sys2Proof.Machine Sys2Proof.Spec

/-! ## The word of a command, by its mnemonic -/

/-- Operand field `k` of a mnemonic's word: the operand, or 0 where the mnemonic takes none (R93). -/
def Mnemonic.operandField (m : Mnemonic) (k : Nat) (x : Byte) : Byte := if k < m.arity then x else 0

theorem Mnemonic.operandField_of_unused {m : Mnemonic} {k : Nat} {x : Byte} (h : ¬ k < m.arity → x = 0) :
    m.operandField k x = x := by
  unfold Mnemonic.operandField
  split_ifs with hk
  · rfl
  · exact (h hk).symm

/-- The word of a command is `{0x00, b, a, OPC}`, with the opcode of its mnemonic (R90, R92). -/
theorem encode_instr (m : Mnemonic) (a b : Byte) :
    encode (m.instr a b) = commandWord (cmdOpc (opcode m)) (m.operandField 0 a) (m.operandField 1 b) := by
  cases m <;> rfl

/-- The word of a command is one its mnemonic selects (R93). -/
theorem selects_encode_instr (m : Mnemonic) (a b : Byte) : m.Selects (encode (m.instr a b)) := by
  rw [encode_instr]
  refine ⟨cmdRsv_commandWord _ _ _, cmdOpc_commandWord _ _ _, fun h => ?_, fun h => ?_⟩
  · rw [cmdB_commandWord, Mnemonic.operandField, if_neg (by omega)]
  · rw [cmdA_commandWord, Mnemonic.operandField, if_neg (by omega)]

/-- The family `Encoding` holds of every command. -/
theorem encoding_statement (i : Instr) : Laws.Encoding.Statement i := by
  cases i with
  | gfmul a b => exact Laws.Encoding.gfmul a b
  | xtime a => exact Laws.Encoding.xtime a
  | mul3 a => exact Laws.Encoding.mul3 a
  | sbox x => exact Laws.Encoding.sbox x
  | invsbox x => exact Laws.Encoding.invsbox x
  | rcon x => exact Laws.Encoding.rcon x
  | numrounds => exact Laws.Encoding.numrounds
  | numkeywords => exact Laws.Encoding.numkeywords
  | keyexp => exact Laws.Encoding.keyexp
  | getrk r => exact Laws.Encoding.getrk r
  | addrk => exact Laws.Encoding.addrk
  | subbytes => exact Laws.Encoding.subbytes
  | invsubbytes => exact Laws.Encoding.invsubbytes
  | shiftrows => exact Laws.Encoding.shiftrows
  | invshiftrows => exact Laws.Encoding.invshiftrows
  | mixcolumns => exact Laws.Encoding.mixcolumns
  | invmixcolumns => exact Laws.Encoding.invmixcolumns
  | encrypt => exact Laws.Encoding.encrypt
  | decrypt => exact Laws.Encoding.decrypt
  | ecbEnc => exact Laws.Encoding.ecbEnc
  | ecbDec => exact Laws.Encoding.ecbDec
  | cbcEnc => exact Laws.Encoding.cbcEnc
  | cbcDec => exact Laws.Encoding.cbcDec

/-- A command is its mnemonic with the operand bytes of its own word. -/
theorem instr_fields_encode (i : Instr) : i.mnemonic.instr (cmdA (encode i)) (cmdB (encode i)) = i :=
  (encoding_statement i).2

theorem selects_encode (i : Instr) : i.mnemonic.Selects (encode i) := by
  obtain ⟨m, a, b, rfl⟩ : ∃ m a b, i = Mnemonic.instr m a b := ⟨_, _, _, (instr_fields_encode i).symm⟩
  rw [Mnemonic.mnemonic_instr]
  exact selects_encode_instr m a b

/-! ## The round trips (R92 to R94) -/

theorem decode_encode (i : Instr) : decode (encode i) = .ok i := by
  rw [(selects_encode i).decode_eq, instr_fields_encode]

/-- Settles O1: the mnemonic of a command selects its word, and the operands are read from its fields. -/
theorem decodingAnEncodedCommandGivesItBack : Obligations.DecodingAnEncodedCommandGivesItBack := decode_encode

theorem Mnemonic.Selects.encode_fields {m : Mnemonic} {w : Word} (h : m.Selects w) :
    encode (m.instr (cmdA w) (cmdB w)) = w := by
  obtain ⟨hrsv, hopc, hb, ha⟩ := h
  rw [encode_instr, Mnemonic.operandField_of_unused fun hk => ha (by omega),
    Mnemonic.operandField_of_unused fun hk => hb (by omega), ← hopc, commandWord_fields w hrsv]

/-- Settles O2: a word that decodes has only the fields its mnemonic uses, and these are the command's operands. -/
theorem aLegalWordIsTheEncodingOfItsCommand : Obligations.ALegalWordIsTheEncodingOfItsCommand := by
  intro w i hdecode
  have hsel := selects_mnemonic_of_decode hdecode
  have hfields : i = i.mnemonic.instr (cmdA w) (cmdB w) := Except.ok.inj (hdecode.symm.trans hsel.decode_eq)
  rw [hfields, hsel.encode_fields]

/-! ## Mnemonic statements (R97) -/

/-- The value of a command word (R90). -/
theorem commandWord_toNat (opc a b : Byte) :
    (commandWord opc a b).toNat = opc.toNat + 256 * a.toNat + 65536 * b.toNat := by
  have hopc := opc.isLt
  have ha := a.isLt
  simp only [commandWord, BitVec.toNat_append, BitVec.toNat_ofNat, Nat.zero_mod, Nat.zero_shiftLeft, Nat.zero_or]
  rw [← Nat.shiftLeft_add_eq_or_of_lt ha, ← Nat.shiftLeft_add_eq_or_of_lt hopc]
  simp only [Nat.shiftLeft_eq]
  omega

theorem cmdOpc_opcode_toNat (m : Mnemonic) : (cmdOpc (opcode m)).toNat = (opcode m).toNat := by
  cases m <;> rfl

/-- The field of a numeric operand holds its number; a field without one holds 0. -/
theorem operandField_operandByte_toNat {m : Mnemonic} {ops : List Nat} (hlength : ops.length = m.arity)
    (hfit : ∀ n ∈ ops, n < 256) (k : Nat) : (m.operandField k (operandByte ops k)).toNat = ops.getD k 0 := by
  unfold Mnemonic.operandField operandByte
  split_ifs with hk
  · have hlt : ops.getD k 0 < 256 := by
      rw [List.getD_eq_getElem _ _ (by omega)]
      exact hfit _ (List.getElem_mem _)
    rw [BitVec.toNat_ofNat, Nat.mod_eq_of_lt hlt]
  · rw [List.getD_eq_default _ _ (by omega)]
    rfl

theorem wellFormed_command_iff (m : Mnemonic) (ops : List Nat) :
    (Stmt.command m ops).wellFormed = true ↔ ops.length = m.arity ∧ ∀ n ∈ ops, n < 256 := by
  simp [Stmt.wellFormed]

theorem assemble_command_isSome_iff (m : Mnemonic) (ops : List Nat) :
    (assemble (.command m ops)).isSome = true ↔ (Stmt.command m ops).wellFormed = true := by
  unfold assemble
  split_ifs with h <;> simp [h]

theorem assemble_command_eq_some {m : Mnemonic} {ops : List Nat} {evs : List HostEvent}
    (h : assemble (.command m ops) = some evs) :
    evs = commandEvents (encode (m.instr (operandByte ops 0) (operandByte ops 1))) := by
  unfold assemble at h
  split_ifs at h
  exact (Option.some.inj h).symm

/-- Settles O5: the checks of the assembler are the conditions, and the fields of the word are the numbers. -/
theorem mnemonicStatementAssemblesToItsWord : Obligations.MnemonicStatementAssemblesToItsWord := by
  intro m ops
  have hiff := (assemble_command_isSome_iff m ops).trans (wellFormed_command_iff m ops)
  refine ⟨hiff, fun evs hevs => ?_⟩
  obtain ⟨hlength, hfit⟩ := hiff.1 (by rw [hevs, Option.isSome_some])
  refine ⟨_, assemble_command_eq_some hevs, ?_, _, decode_encode _, m.mnemonic_instr _ _⟩
  rw [encode_instr, commandWord_toNat, cmdOpc_opcode_toNat, operandField_operandByte_toNat hlength hfit,
    operandField_operandByte_toNat hlength hfit]

end Sys2Proof
end

section
/-! PROOFS. What a command and what the host's accesses leave as it was: the host's registers (`10_state.md` R43), the
schedule (R38, R76), and the two parameters (R8). -/

namespace Sys2Proof.Machine

open Sys2Proof.Spec

/-! ## What a command keeps, however it ends (R43, R221) -/

/-- The registers the host alone writes, the parameters, and the host's side of the core. -/
structure State.CommandKeeps (s t : State) : Prop where
  capacity : t.capacity = s.capacity
  ecbParallel : t.ecbParallel = s.ecbParallel
  keycfg : t.keycfg = s.keycfg
  len : t.len = s.len
  key : t.key = s.key
  iv : t.iv = s.iv
  cmd : t.cmd = s.cmd
  host : t.host = s.host
  awaitingReset : t.awaitingReset = s.awaitingReset

theorem CommandEffect.keeps {c : CommandClass} {s u : State} (h : CommandEffect c s u) : s.CommandKeeps u := by
  cases c with
  | scalar =>
    obtain ⟨v, rfl⟩ := h
    constructor <;> rfl
  | keyExpansion =>
    obtain ⟨ks, -, -, rfl⟩ := h
    constructor <;> rfl
  | roundKey =>
    obtain ⟨k, rfl⟩ := h
    constructor <;> rfl
  | state =>
    obtain ⟨b, rfl⟩ := h
    constructor <;> rfl
  | mode =>
    obtain ⟨ks, -, hframe, -⟩ := h
    rw [hframe.rest]
    constructor <;> rfl

theorem State.CommandKeeps.complete {s u : State} (h : s.CommandKeeps u) : s.CommandKeeps u.complete :=
  ⟨h.capacity, h.ecbParallel, h.keycfg, h.len, h.key, h.iv, h.cmd, h.host, h.awaitingReset⟩

theorem State.raiseError_keeps (s : State) (e : CmdError) : s.CommandKeeps (s.raiseError e) := by
  constructor <;> rfl

/-- `t` is a completion of the command in flight: its effects and the end of the command, or an error (R47, R223). -/
inductive State.Completion (s : State) : State → Prop
  | effect {c : CommandClass} {u : State} (h : CommandEffect c s u) : s.Completion u.complete
  | error (e : CmdError) : s.Completion (s.raiseError e)

theorem completion_of_exec {i : Instr} {s t : State} (h : exec i s = .next t) : s.Completion t := by
  obtain ⟨u, rfl, hu⟩ | ⟨e, rfl⟩ := exec_cases h
  · exact .effect hu
  · exact .error e

theorem State.completion_of_runCommand {s t : State} (h : s.runCommand = .next t) : s.Completion t := by
  obtain ⟨i, -, hi⟩ | ⟨e, -, rfl⟩ := State.runCommand_cases h
  · exact completion_of_exec hi
  · exact .error _

theorem State.Completion.keeps {s t : State} (h : s.Completion t) : s.CommandKeeps t := by
  cases h with
  | effect hu => exact hu.keeps.complete
  | error e => exact s.raiseError_keeps e

/-- A completion ends with BUSY = 0 and DONE = 1 (R47). -/
theorem State.Completion.ends {s t : State} (h : s.Completion t) : t.phase = .idle ∧ t.status.done = true := by
  cases h <;> exact ⟨rfl, rfl⟩

/-- Settles O13: neither an effect of R43 nor an error touches one of these registers. -/
theorem noCommandWritesTheHostsRegisters : Obligations.NoCommandWritesTheHostsRegisters := by
  intro i s t h
  have hkeeps := (completion_of_exec h).keeps
  exact ⟨hkeeps.capacity, hkeeps.keycfg, hkeeps.len, hkeeps.key, hkeeps.iv, hkeeps.cmd⟩

/-! ## What an access of the host keeps (R38, R63, R76) -/

/-- The parameters, the schedule with its status fields, and whether a reset is awaited. -/
structure State.AccessKeeps (s t : State) : Prop where
  capacity : t.capacity = s.capacity
  ecbParallel : t.ecbParallel = s.ecbParallel
  sched : t.sched = s.sched
  keyValid : t.status.keyValid = s.status.keyValid
  nr : t.status.nr = s.status.nr
  awaitingReset : t.awaitingReset = s.awaitingReset

theorem State.writeLoc_keeps (s : State) (l : Loc) (v : Word) : s.AccessKeeps (s.writeLoc l v) := by
  cases l <;> constructor <;> rfl

/-- The response, the host's inputs and the edges left are not among what is kept. -/
theorem State.AccessKeeps.update {s u : State} (h : s.AccessKeeps u) (host : List HostEvent)
    (rsp : Option BusResponse) (n : Nat) : s.AccessKeeps { u with host := host, rsp := rsp, latency := n } :=
  ⟨h.capacity, h.ecbParallel, h.sched, h.keyValid, h.nr, h.awaitingReset⟩

theorem State.hostWrite_keeps (s : State) (l : Loc) (v : Word) : s.AccessKeeps (s.hostWrite l v) := by
  cases hb : s.isBusy with
  | true =>
    rw [State.hostWrite_busy hb]
    constructor <;> rfl
  | false =>
    rw [State.hostWrite_idle hb]
    exact (s.writeLoc_keeps l v).update _ _ _

theorem State.hostRead_keeps (s : State) (a : Nat) (l : Loc) : s.AccessKeeps (s.hostRead a l) := by
  rw [State.hostRead_frame]
  constructor <;> rfl

theorem State.transact_keeps (s : State) (t : Transaction) : s.AccessKeeps (s.transact t) := by
  obtain ⟨-, h⟩ | ⟨l, -, ⟨-, h⟩ | ⟨-, h⟩⟩ := s.transact_cases t <;> rw [h]
  · constructor <;> rfl
  · exact s.hostWrite_keeps l t.wdata
  · exact s.hostRead_keeps t.addr.toNat l

/-- At a clock edge the core takes at most one transaction; else only the pending inputs change. -/
theorem State.serve_cases (s : State) :
    ∃ host, s.serve = { s with host := host } ∨ ∃ t, s.serve = { s.transact t with host := host } := by
  unfold State.serve
  split
  · exact ⟨_, .inr ⟨_, rfl⟩⟩
  · exact ⟨_, .inr ⟨_, rfl⟩⟩
  · exact ⟨_, .inl rfl⟩
  · exact ⟨s.host, .inl rfl⟩
  · exact ⟨s.host, .inl rfl⟩
  · exact ⟨s.host, .inl rfl⟩

theorem State.serve_keeps (s : State) : s.AccessKeeps s.serve := by
  obtain ⟨host, h | ⟨t, h⟩⟩ := s.serve_cases <;> rw [h]
  · constructor <;> rfl
  · exact (s.transact_keeps t).update _ _ _

theorem State.busyCycle_keeps (s : State) (n : Nat) : s.AccessKeeps (s.busyCycle n) :=
  s.serve_keeps.update _ _ _

/-! ## The parameters (R8) -/

theorem step_keeps_parameters {s t : State} (h : step s = .next t) :
    t.capacity = s.capacity ∧ t.ecbParallel = s.ecbParallel := by
  obtain ⟨rest, -, rfl⟩ | ⟨rest, -, rfl⟩ | ⟨-, -, ⟨-, -, hrun⟩ | ⟨n, -, -, rfl⟩ | ⟨-, rfl⟩⟩ := step_cases h
  · exact ⟨rfl, rfl⟩
  · exact ⟨rfl, rfl⟩
  · have hkeeps := (State.completion_of_runCommand hrun).keeps
    exact ⟨hkeeps.capacity, hkeeps.ecbParallel⟩
  · exact ⟨(s.busyCycle_keeps n).capacity, (s.busyCycle_keeps n).ecbParallel⟩
  · exact ⟨s.serve_keeps.capacity, s.serve_keeps.ecbParallel⟩

/-- Settles O28: a reset and a power-up hand the capacity on, and nothing else writes it. -/
theorem noStepChangesTheCapacity : Obligations.NoStepChangesTheCapacity :=
  fun _ _ h => (step_keeps_parameters h).1

/-! ## The schedule (R38, R76) -/

/-- SCHED, KEYVALID and NR differ in at least one of the three. -/
def State.ScheduleDiffers (s t : State) : Prop :=
  t.sched ≠ s.sched ∨ t.status.keyValid ≠ s.status.keyValid ∨ t.status.nr ≠ s.status.nr

theorem State.AccessKeeps.not_scheduleDiffers {s t : State} (h : s.AccessKeeps t) : ¬ s.ScheduleDiffers t := by
  rintro (hd | hd | hd)
  · exact hd h.sched
  · exact hd h.keyValid
  · exact hd h.nr

theorem State.raiseError_not_scheduleDiffers (s : State) (e : CmdError) : ¬ s.ScheduleDiffers (s.raiseError e) := by
  simp [State.ScheduleDiffers]

/-- A write set holds the schedule only where the exposure set holds KEYVALID and NR (R43, R44). -/
theorem WithinWriteSet.exposes_status {c : CommandClass} {s t : State} (h : WithinWriteSet c s t)
    (hd : s.ScheduleDiffers t) : c.exposes .status = true := by
  cases c with
  | keyExpansion | mode => rfl
  | scalar | roundKey | state =>
    rw [h] at hd
    simp [State.ScheduleDiffers] at hd

/-- A command that changes the schedule passes its checks and is one that expands a key. -/
theorem expandsKey_of_scheduleDiffers {i : Instr} {s t : State} (h : exec i s = .next t) (hd : s.ScheduleDiffers t) :
    ExpandsKey i ∧ ∀ e, ¬ FirstError s i e := by
  obtain ⟨r, hr, hchecks⟩ := exec_decided i s
  obtain ⟨u, rfl, rfl⟩ | ⟨e, -, rfl⟩ := State.conclude_cases (hr.symm.trans h)
  · refine ⟨expandsKey_of_exposes_status ((hchecks.within u rfl).exposes_status hd), fun e he => ?_⟩
    cases (hchecks.error_iff e).1 he
  · exact absurd hd (s.raiseError_not_scheduleDiffers e)

/-- A pending input that is a reset or power-up disturbs. -/
theorem State.undisturbed.head {s : State} {n : Nat} {e : HostEvent} {rest : List HostEvent}
    (h : s.undisturbed (n + 1)) (hhost : s.host = e :: rest) : e.preempts = false :=
  h e (by simp [hhost])

/-- Without a reset or power-up a step completes the command in flight or serves the host (R231). -/
theorem step_cases_of_undisturbed {s t : State} (hu : s.undisturbed 1) (h : step s = .next t) :
    s.awaitingReset = false ∧
      ((s.phase = .busy ∧ s.latency = 0 ∧ s.runCommand = .next t) ∨
        (∃ n, s.phase = .busy ∧ s.latency = n + 1 ∧ t = s.busyCycle n) ∨ (s.phase = .idle ∧ t = s.serve)) := by
  obtain ⟨rest, hhost, -⟩ | ⟨rest, hhost, -⟩ | ⟨-, hcases⟩ := step_cases h
  · cases hu.head hhost
  · cases hu.head hhost
  · exact hcases

/-- Settles O14: no access and no error changes the schedule, and of the commands only those that expand a key do. -/
theorem onlyKeyExpansionChangesTheSchedule : Obligations.OnlyKeyExpansionChangesTheSchedule := by
  intro s t hu h hd
  obtain ⟨-, ⟨hbusy, hlatency, hrun⟩ | ⟨n, -, -, rfl⟩ | ⟨-, rfl⟩⟩ := step_cases_of_undisturbed hu h
  · refine ⟨hbusy, hlatency, ?_⟩
    obtain ⟨i, hdecode, hexec⟩ | ⟨e, -, rfl⟩ := State.runCommand_cases hrun
    · exact ⟨i, hdecode, expandsKey_of_scheduleDiffers hexec hd⟩
    · exact absurd hd (s.raiseError_not_scheduleDiffers _)
  · exact absurd hd (s.busyCycle_keeps n).not_scheduleDiffers
  · exact absurd hd s.serve_keeps.not_scheduleDiffers

end Sys2Proof.Machine
end

section
/-! PROOFS. The invariant of the machine (`10_state.md` R24 to R26, R39, R42) holds after a reset and is kept by every
step. -/

namespace Sys2Proof.Machine

/-! ## After a reset and after a power-up -/

theorem State.bufOk_of_nil {s : State} (h : s.buf = []) : s.BufOk := by
  simp [State.BufOk, h, Memory.wf]

theorem State.atReset_inv (capacity : Config.Capacity) (ecbParallel : Bool) (draw : Nat) (host : List HostEvent) :
    (State.atReset capacity ecbParallel draw host).Inv := by
  refine ⟨State.bufOk_of_nil rfl, fun _ => ⟨⟨?_, fun _ => rfl⟩, ?_, fun _ => rfl⟩⟩
  · simp [State.isBusy, State.atReset]
  · simp [State.atReset]

/-- Settles O27: after a reset no byte of BUF is written, no command runs, and KEYVALID and NR are 0. -/
theorem theInvariantHoldsAfterReset : Obligations.TheInvariantHoldsAfterReset :=
  ⟨State.atReset_inv _ _ _ _, State.atReset_inv⟩

/-- After a power-up only BUF's form is claimed, and BUF lists nothing (R260). -/
theorem State.applyPowerUp_inv (s : State) (rest : List HostEvent) : (s.applyPowerUp rest).Inv :=
  ⟨State.bufOk_of_nil rfl, nofun⟩

/-! ## Completion of a command (R42, R47) -/

/-- An installed schedule is the expansion of a key of its size (R42, R156). -/
theorem State.installSchedule_scheduleOk (s : State) (ks : KeySize) : (s.installSchedule ks).ScheduleOk :=
  ⟨fun _ => ⟨ks, s.keyWords ks, s.keyWords_length ks, State.installSchedule_nr_toNat s ks, rfl⟩, nofun⟩

theorem CommandEffect.scheduleOk {c : CommandClass} {s u : State} (h : CommandEffect c s u) (hs : s.ScheduleOk) :
    u.ScheduleOk := by
  cases c with
  | scalar =>
    obtain ⟨v, rfl⟩ := h
    exact hs
  | keyExpansion =>
    obtain ⟨ks, -, -, rfl⟩ := h
    exact s.installSchedule_scheduleOk ks
  | roundKey =>
    obtain ⟨k, rfl⟩ := h
    exact hs
  | state =>
    obtain ⟨b, rfl⟩ := h
    exact hs
  | mode =>
    obtain ⟨ks, -, hframe, -⟩ := h
    rw [hframe.rest]
    exact s.installSchedule_scheduleOk ks

theorem State.BufWithin.bufOk {s u : State} (h : s.BufWithin u) (hcapacity : u.capacity = s.capacity)
    (hs : s.BufOk) : u.BufOk := by
  obtain ⟨hwf, hcells⟩ := hs
  refine ⟨h.wf hwf, fun c hc => ?_⟩
  rw [State.bufBytes, hcapacity]
  exact (h.cells c hc).elim (hcells c) id

theorem CommandEffect.bufOk {c : CommandClass} {s u : State} (h : CommandEffect c s u) (hs : s.BufOk) : u.BufOk := by
  have hcapacity := h.keeps.capacity
  cases c with
  | scalar =>
    obtain ⟨v, rfl⟩ := h
    exact hs
  | keyExpansion =>
    obtain ⟨ks, -, -, rfl⟩ := h
    exact hs
  | roundKey =>
    obtain ⟨k, rfl⟩ := h
    exact hs
  | state =>
    obtain ⟨b, rfl⟩ := h
    exact hs
  | mode =>
    obtain ⟨ks, -, -, hwithin⟩ := h
    exact hwithin.bufOk hcapacity hs

theorem State.Completion.bufOk {s t : State} (h : s.Completion t) (hs : s.BufOk) : t.BufOk := by
  cases h with
  | effect hu => exact hu.bufOk hs
  | error e => exact hs

theorem State.Completion.scheduleOk {s t : State} (h : s.Completion t) (hs : s.ScheduleOk) : t.ScheduleOk := by
  cases h with
  | effect hu => exact hu.scheduleOk hs
  | error e => exact hs

/-- An idle core whose last command is done may hold an error (R25, R26). -/
theorem State.lifecycleOk_of_done {s : State} (hidle : s.phase = .idle) (hdone : s.status.done = true) :
    s.LifecycleOk := by
  simp [State.LifecycleOk, State.isBusy, hidle, hdone]

theorem State.Completion.inv {s t : State} (h : s.Completion t) (hs : s.Inv) : t.Inv := by
  obtain ⟨hbuf, hrest⟩ := hs
  obtain ⟨hidle, hdone⟩ := h.ends
  refine ⟨h.bufOk hbuf, fun hawaiting => ⟨State.lifecycleOk_of_done hidle hdone, h.scheduleOk ?_⟩⟩
  exact (hrest (h.keeps.awaitingReset ▸ hawaiting)).2

/-! ## An access of the host (R46, R48, R63) -/

/-- A bus word of BUF that the map reaches lies within the capacity (R39, R61). -/
theorem buf_within_of_locate {c : Config.Capacity} {a j : Nat} (h : locate c a = some (.buf j)) :
    4 * j + 4 ≤ Config.bufBytes c := by
  have hbytes : Config.bufBytes c = 16 * (c.val + 1) := rfl
  have hcases := locate_cases h
  simp only [reduceCtorEq, and_false, exists_false, false_or, Loc.buf.injEq] at hcases
  omega

theorem State.setBufQuad_within {s : State} {j : Nat} (q : Quad) (h : 4 * j + 4 ≤ s.bufBytes) :
    s.BufWithin (s.setBufQuad j q) where
  wf := fun hw => Memory.writeBytes_wf hw _ _
  cells := fun c hc => by
    obtain ⟨h1, h2⟩ | hold := Memory.mem_writeBytes hc
    · rw [Quad.bytes_length] at h2
      exact .inr ⟨by omega, by omega⟩
    · exact .inl hold

/-- An accepted command starts with DONE and ERR at 0 (R46). -/
theorem State.accept_inv {s : State} (w : Word) (hs : s.Inv) : (s.accept w).Inv := by
  obtain ⟨hbuf, hrest⟩ := hs
  exact ⟨hbuf, fun hawaiting => ⟨⟨fun _ => rfl, fun _ => rfl⟩, (hrest hawaiting).2⟩⟩

theorem State.setBufQuad_inv {s : State} {j : Nat} (q : Quad) (h : 4 * j + 4 ≤ s.bufBytes) (hs : s.Inv) :
    (s.setBufQuad j q).Inv := by
  obtain ⟨hbuf, hrest⟩ := hs
  exact ⟨(State.setBufQuad_within q h).bufOk rfl hbuf, hrest⟩

theorem State.writeLoc_inv {s : State} {a : Nat} {l : Loc} (hl : locate s.capacity a = some l) (v : Word)
    (hs : s.Inv) : (s.writeLoc l v).Inv := by
  cases l with
  | cmd => exact State.accept_inv v hs
  | buf j => exact State.setBufQuad_inv _ (buf_within_of_locate hl) hs
  | keycfg | len | key | iv | state | rk | id | status | result | cap | sched => exact hs

theorem State.hostWrite_inv {s : State} {a : Nat} {l : Loc} (hl : locate s.capacity a = some l) (v : Word)
    (hs : s.Inv) : (s.hostWrite l v).Inv := by
  cases hb : s.isBusy with
  | true =>
    rw [State.hostWrite_busy hb]
    exact hs
  | false =>
    rw [State.hostWrite_idle hb]
    exact State.writeLoc_inv hl v hs

/-- The word a transaction reaches is one of the map (R61, R64). -/
theorem Transaction.locate_of_target {t : Transaction} {c : Config.Capacity} {l : Loc} (h : t.target c = some l) :
    locate c t.addr.toNat = some l := by
  unfold Transaction.target at h
  split_ifs at h
  exact h

theorem State.transact_inv {s : State} (t : Transaction) (hs : s.Inv) : (s.transact t).Inv := by
  obtain ⟨-, h⟩ | ⟨l, htarget, ⟨-, h⟩ | ⟨-, h⟩⟩ := s.transact_cases t <;> rw [h]
  · exact hs
  · exact State.hostWrite_inv (Transaction.locate_of_target htarget) t.wdata hs
  · rw [State.hostRead_frame]
    exact hs

theorem State.serve_inv {s : State} (hs : s.Inv) : s.serve.Inv := by
  obtain ⟨host, h | ⟨t, h⟩⟩ := s.serve_cases <;> rw [h]
  · exact hs
  · exact State.transact_inv t hs

/-! ## Every step -/

/-- Settles O26: a completion and an access keep each part of the invariant, a reset and a power-up establish it. -/
theorem everyStepKeepsTheInvariant : Obligations.EveryStepKeepsTheInvariant := by
  intro s t hs h
  obtain ⟨rest, -, rfl⟩ | ⟨rest, -, rfl⟩ | ⟨-, -, ⟨-, -, hrun⟩ | ⟨n, -, -, rfl⟩ | ⟨-, rfl⟩⟩ := step_cases h
  · exact State.atReset_inv _ _ _ _
  · exact s.applyPowerUp_inv rest
  · exact (State.completion_of_runCommand hrun).inv hs
  · exact State.serve_inv hs
  · exact State.serve_inv hs

end Sys2Proof.Machine
end

section
/-! PROOFS. The table commands SBOX and INVSBOX (`40_field_and_tables.md` R127, R133, R134). -/

namespace Sys2Proof.Machine

open Sys2Proof.Spec

theorem completesAs_sbox (x : Byte) (s : State) : CompletesAs (.sbox x) s { s with result := sboxValue x } :=
  ⟨_, _, rfl⟩

theorem completesAs_invsbox (y : Byte) (s : State) : CompletesAs (.invsbox y) s { s with result := sboxInvert y } :=
  ⟨_, _, rfl⟩

/-- Each entry of the S-box ROM is the affine image of its index's inverse, with 0 for index 0 (R127). -/
theorem exists_inverse_sboxValue_eq_affine (x : Byte) : ∃ b, IsFieldInverse x b ∧ sboxValue x = affine b := by
  by_cases hx : x = 0
  · subst hx
    exact ⟨0, by rw [IsFieldInverse, if_pos rfl], by decide⟩
  · obtain ⟨b, hinverse, hb⟩ := exists_gfmul_eq_one hx
    refine ⟨b, ?_, hb⟩
    rwa [IsFieldInverse, if_neg hx, ← gfmul_eq_fieldMul]

/-- Settles O32: SBOX reads the ROM, whose entries are the affine images of the inverses. -/
theorem sboxGivesTheAffineMapOfTheInverse : Obligations.SboxGivesTheAffineMapOfTheInverse := by
  refine ⟨selectedByMask .SBOX, fun x s => ?_⟩
  obtain ⟨b, hinverse, hb⟩ := exists_inverse_sboxValue_eq_affine x
  exact ⟨b, hinverse, hb ▸ completesAs_sbox x s⟩

/-- Settles O33: INVSBOX reads the inverse ROM, and the S-box ROM undoes it. -/
theorem invsboxGivesThePreimageUnderSbox : Obligations.InvsboxGivesThePreimageUnderSbox := by
  refine ⟨selectedByMask .INVSBOX, fun y s => ⟨sboxInvert y, completesAs_invsbox y s, ?_⟩⟩
  simpa only [sboxValue_sboxInvert] using completesAs_sbox (sboxInvert y) s

end Sys2Proof.Machine
end

section
/-! PROOFS. The order of events and the lifecycle of a command over several steps (`10_state.md` R45, R47;
`60_exceptions.md` R228, R231; `70_reset_and_hazards.md` R260). -/

namespace Sys2Proof.Machine

open Sys2Proof.Spec

/-! ## One step, by what comes first (R231) -/

theorem State.isBusy_of_idle {s : State} (h : s.phase = .idle) : s.isBusy = false := by simp [State.isBusy, h]

theorem State.isBusy_of_busy {s : State} (h : s.phase = .busy) : s.isBusy = true := by simp [State.isBusy, h]

theorem State.idle_of_not_isBusy {s : State} (h : s.isBusy = false) : s.phase = .idle := by
  cases hp : s.phase with
  | idle => rfl
  | busy => rw [State.isBusy_of_busy hp] at h; cases h

theorem State.busy_of_isBusy {s : State} (h : s.isBusy = true) : s.phase = .busy := by
  cases hp : s.phase with
  | idle => rw [State.isBusy_of_idle hp] at h; cases h
  | busy => rfl

theorem State.undisturbed_of_head {s : State} {e : HostEvent} {rest : List HostEvent} (h : s.host = e :: rest)
    (he : e.preempts = false) : s.undisturbed 1 := by
  simp [State.undisturbed, h, he]

/-- A pending power-up comes before everything else (R260). -/
theorem step_of_powerUp {s : State} {rest : List HostEvent} (h : s.host = .powerUp :: rest) :
    step s = .next (s.applyPowerUp rest) := by
  simp [step, h]

/-- Undisturbed, a core that awaits no reset does what its sequencer says, and one that awaits one is stuck. -/
theorem step_of_undisturbed {s : State} (hu : s.undisturbed 1) :
    step s = if s.awaitingReset then .fault .undefinedBeforeReset
      else match s.phase, s.latency with
        | .busy, 0 => s.runCommand
        | .busy, left + 1 => .next (s.busyCycle left)
        | .idle, _ => .next s.serve := by
  unfold step
  split
  case h_1 rest hh => cases hu.head hh
  case h_2 rest hh => cases hu.head hh
  case h_3 => rfl

theorem step_of_awaitingReset {s : State} (hu : s.undisturbed 1) (h : s.awaitingReset = true) :
    step s = .fault .undefinedBeforeReset := by
  simp [step_of_undisturbed hu, h]

theorem step_of_idle {s : State} (hu : s.undisturbed 1) (ha : s.awaitingReset = false) (hidle : s.phase = .idle) :
    step s = .next s.serve := by
  simp [step_of_undisturbed hu, ha, hidle]

theorem step_of_busy {s : State} {n : Nat} (hu : s.undisturbed 1) (ha : s.awaitingReset = false)
    (hbusy : s.phase = .busy) (hlatency : s.latency = n + 1) : step s = .next (s.busyCycle n) := by
  simp [step_of_undisturbed hu, ha, hbusy, hlatency]

theorem State.runCommand_of_decode {s : State} {i : Instr} (h : decode s.cmd = .ok i) : s.runCommand = exec i s := by
  simp [State.runCommand, State.fetch, h]

/-- Settles O6: the step of a due command is its completion, which runs the decoded command. -/
theorem stepRunsTheDecodedCommand : Obligations.StepRunsTheDecodedCommand := by
  intro s i hbusy hlatency hawaiting hu hdecode
  rw [step_of_due hbusy hlatency hawaiting hu, State.runCommand_of_decode hdecode]

/-- Settles O17: a power-up leaves a core that awaits a reset. -/
theorem powerUpIsStuckUntilReset : Obligations.PowerUpIsStuckUntilReset := by
  intro s rest hhost
  exact ⟨s.applyPowerUp rest, step_of_powerUp hhost, rfl, fun hu => step_of_awaitingReset hu rfl,
    fun rest' hrest => ⟨_, step_of_reset hrest, rfl, rfl⟩⟩

/-! ## What is served, and what stays pending (R73, R74, R231) -/

theorem State.serve_transact {s : State} {t : Transaction} {rest : List HostEvent} (h : s.host = .transact t :: rest) :
    s.serve = { s.transact t with host := rest } := by
  simp [State.serve, h]

theorem State.serve_wait {s : State} {rest : List HostEvent} (h : s.host = .wait :: rest) :
    s.serve = { s.transact (readAt 0x08) with host := if s.isBusy then .wait :: rest else rest } := by
  simp [State.serve, h]

theorem State.serve_nil {s : State} (h : s.host = []) : s.serve = s := by
  simp [State.serve, h]

theorem State.serve_quiet {s : State} (h : s.host = [] ∨ s.host.head? = some .quiet) :
    s.serve = { s with host := s.host.tail } := by
  obtain hnil | hhead := h
  · have htail : s.host.tail = s.host := by rw [hnil, List.tail_nil]
    rw [htail, State.serve_nil hnil]
  · obtain ⟨rest, hrest⟩ := List.head?_eq_some_iff.1 hhead
    simp [State.serve, hrest]

theorem State.undisturbed_of_quiet {s : State} (h : s.host = [] ∨ s.host.head? = some .quiet) : s.undisturbed 1 := by
  obtain h | h := h
  · simp [State.undisturbed, h]
  · obtain ⟨rest, hrest⟩ := List.head?_eq_some_iff.1 h
    exact State.undisturbed_of_head hrest rfl

/-- Settles O15: each clause is the step of its kind of event. -/
theorem resetThenCompletionThenTransaction : Obligations.ResetThenCompletionThenTransaction := by
  refine ⟨fun s rest hhost => step_of_reset hhost, fun s t hu hbusy hlatency hstep => ?_,
    fun s t rest hhost ha => ?_, fun s hquiet ha => ?_⟩
  · obtain ⟨-, ⟨-, -, hrun⟩ | ⟨n, -, hn, -⟩ | ⟨hidle, -⟩⟩ := step_cases_of_undisturbed hu hstep
    · have hdone := State.completion_of_runCommand hrun
      exact ⟨hdone.keeps.host, hdone.ends.1⟩
    · rw [hlatency] at hn
      cases hn
    · rw [hbusy] at hidle
      cases hidle
  · have hu := State.undisturbed_of_head hhost rfl
    have hserve := State.serve_transact hhost
    refine ⟨fun hidle => ?_, fun n hbusy hlatency => ?_⟩
    · rw [step_of_idle hu ha hidle, hserve]
    · rw [step_of_busy hu ha hbusy hlatency, State.busyCycle, hserve]
  · have hu := State.undisturbed_of_quiet hquiet
    have hserve := State.serve_quiet hquiet
    refine ⟨fun hidle => ?_, fun n hbusy hlatency => ?_⟩
    · rw [step_of_idle hu ha hidle, hserve]
    · rw [step_of_busy hu ha hbusy hlatency, State.busyCycle, hserve]

/-! ## The command in flight (R45, R47, R228) -/

/-- A command is in flight with `n` clock edges before the one it completes at, and the next `k` inputs are neither
a reset nor a power-up. -/
structure State.InFlight (s : State) (n k : Nat) : Prop where
  busy : s.phase = .busy
  latency : s.latency = n
  awaiting : s.awaitingReset = false
  undisturbed : s.undisturbed k

theorem State.undisturbed.mono {s : State} {j k : Nat} (h : s.undisturbed k) (hjk : j ≤ k) : s.undisturbed j :=
  fun e he => h e (List.take_subset_take_left s.host hjk he)

/-- The core takes at most the next input, so the others stay undisturbed. -/
theorem State.serve_host (s : State) : s.serve.host = s.host ∨ s.serve.host = s.host.tail := by
  unfold State.serve
  split <;> simp_all

theorem State.undisturbed.serve {s : State} {k : Nat} (h : s.undisturbed (k + 1)) : s.serve.undisturbed k := by
  intro e he
  obtain hsame | htail := s.serve_host
  · rw [hsame] at he
    exact h.mono k.le_succ e he
  · rw [htail] at he
    refine h e ?_
    cases hhost : s.host with
    | nil => simp [hhost] at he
    | cons x rest =>
      rw [hhost] at he
      exact List.mem_cons_of_mem x he

/-- A clock edge before the last one of the busy period brings the command one edge nearer. -/
theorem State.InFlight.step {s : State} {n k : Nat} (h : s.InFlight (n + 1) (k + 1)) :
    step s = .next (s.busyCycle n) ∧ (s.busyCycle n).InFlight n k := by
  obtain ⟨hbusy, hlatency, ha, hu⟩ := h
  have hframe := (State.busyCycle_frame (State.isBusy_of_busy hbusy) n).1
  refine ⟨step_of_busy (hu.mono (by omega)) ha hbusy hlatency, ⟨?_, rfl, ?_, hu.serve⟩⟩
  · rw [hframe]
    exact hbusy
  · rw [hframe]
    exact ha

/-- The first of several steps. -/
theorem run_succ_of_step {s t : State} (h : step s = .next t) (n : Nat) : core.run (n + 1) s = core.run n t := by
  have hcore : core.step s = .next t := h
  simp only [Host.Core.run, hcore]

/-- Settles O9: by induction on the edges before the completion, each of which keeps all but what the claim names. -/
theorem busyPeriodKeepsEveryOperand : Obligations.BusyPeriodKeepsEveryOperand := by
  intro s n hbusy hlatency ha hu
  have hs : s.InFlight n n := ⟨hbusy, hlatency, ha, hu⟩
  clear hbusy hlatency ha hu
  induction n generalizing s with
  | zero =>
    refine ⟨s, rfl, ?_, id⟩
    rw [← hs.latency]
  | succ n ih =>
    obtain ⟨hstep, hnext⟩ := hs.step
    obtain ⟨hframe, hoverrun⟩ := State.busyCycle_frame (State.isBusy_of_busy hs.busy) n
    obtain ⟨t, hrun, ht, hkept⟩ := ih _ hnext
    refine ⟨t, (run_succ_of_step hstep n).trans hrun, ?_, fun h => hkept (hoverrun h)⟩
    rw [ht, hframe]

theorem State.runCommand_next (s : State) : ∃ t, s.runCommand = .next t := by
  cases hdecode : decode s.cmd with
  | ok i =>
    obtain ⟨t, ht⟩ := exec_next i s
    exact ⟨t, (State.runCommand_of_decode hdecode).trans ht⟩
  | error e => exact ⟨_, State.runCommand_of_illegal hdecode⟩

/-- Settles O10: by induction on the edges before the completion; at the last one the command or its error ends. -/
theorem everyAcceptedCommandCompletes : Obligations.EveryAcceptedCommandCompletes := by
  intro s n hbusy hlatency ha hu
  have hs : s.InFlight n (n + 1) := ⟨hbusy, hlatency, ha, hu⟩
  clear hbusy hlatency ha hu
  induction n generalizing s with
  | zero =>
    obtain ⟨hbusy, hlatency, ha, hu⟩ := hs
    obtain ⟨t, ht⟩ := s.runCommand_next
    obtain ⟨hidle, hdone⟩ := (State.completion_of_runCommand ht).ends
    have hstep := (step_of_due hbusy hlatency ha hu).trans ht
    exact ⟨t, run_succ_of_step hstep 0, State.isBusy_of_idle hidle, hdone⟩
  | succ n ih =>
    obtain ⟨hstep, hnext⟩ := hs.step
    obtain ⟨t, hrun, hend⟩ := ih _ hnext
    exact ⟨t, (run_succ_of_step hstep (n + 1)).trans hrun, hend⟩

end Sys2Proof.Machine
end

section
/-! PROOFS. The host's accesses to an idle core (`20_memory.md` R61 to R63, R67, R70), and its WAIT (R74). -/

namespace Sys2Proof.Machine

open Sys2Proof.Spec

/-! ## Reads (R62) -/

/-- A read of an idle core answers the word the location holds and changes nothing (R62). -/
theorem State.hostRead_idle {s : State} (h : s.isBusy = false) (a : Nat) (l : Loc) :
    s.hostRead a l = { s with rsp := some (.okayData (s.readLoc l)) } := by
  simp [State.hostRead, State.exposed, h]

/-- Settles O19: the access reaches a word of the map, which is what an idle core answers. -/
theorem idleReadReturnsTheMappedWord : Obligations.IdleReadReturnsTheMappedWord := by
  intro s t hidle hread hsize halign hmap
  obtain ⟨l, htarget, hloc⟩ := Transaction.target_of_mapped hsize halign hmap
  refine ⟨s.readLoc l, ?_, State.readLoc_holds halign hloc⟩
  rw [State.transact_read htarget hread, State.hostRead_idle (State.isBusy_of_idle hidle)]

/-! ## Writes (R63) -/

/-- A write to an idle core is applied to the word it reaches and answered (R63). -/
theorem State.transact_write_idle {s : State} {t : Transaction} {l : Loc} (hidle : s.phase = .idle)
    (hwrite : t.write = true) (htarget : t.target s.capacity = some l) :
    s.transact t = { s.writeLoc l t.wdata with rsp := some .okay } := by
  rw [State.transact_write htarget hwrite, State.hostWrite_idle (State.isBusy_of_idle hidle)]

theorem target_writeAt_keycfg (c : Config.Capacity) (w : Word) : (writeAt 0x000C w).target c = some .keycfg := by
  simp [Transaction.target, writeAt, locate, locateScalar]

theorem target_writeAt_len (c : Config.Capacity) (w : Word) : (writeAt 0x0010 w).target c = some .len := by
  simp [Transaction.target, writeAt, locate, locateScalar]

/-- Settles O22: the two writes are `State.writeLoc` of KEYCFG and of LEN. -/
theorem idleWriteToKeycfgAndLen : Obligations.IdleWriteToKeycfgAndLen := fun _ v hidle =>
  ⟨State.transact_write_idle hidle rfl (target_writeAt_keycfg _ v),
    State.transact_write_idle hidle rfl (target_writeAt_len _ v)⟩

/-! ## The byte arrays (R61, R67) -/

section
variable {c : Config.Capacity} {a : Nat}

theorem locate_key (h1 : 0x20 ≤ a) (h2 : a < 0x40) : locate c a = some (.key (Fin.ofNat 8 ((a - 0x20) / 4))) := by
  rw [locate, if_neg (by omega), locateArray]
  exact if_pos ⟨h1, h2⟩

theorem locate_iv (h1 : 0x40 ≤ a) (h2 : a < 0x50) : locate c a = some (.iv (Fin.ofNat 4 ((a - 0x40) / 4))) := by
  rw [locate, if_neg (by omega), locateArray, if_neg (by omega)]
  exact if_pos ⟨h1, h2⟩

theorem locate_state (h1 : 0x50 ≤ a) (h2 : a < 0x60) : locate c a = some (.state (Fin.ofNat 4 ((a - 0x50) / 4))) := by
  rw [locate, if_neg (by omega), locateArray]
  iterate 2 rw [if_neg (by omega)]
  exact if_pos ⟨h1, h2⟩

theorem locate_rk (h1 : 0x60 ≤ a) (h2 : a < 0x70) : locate c a = some (.rk (Fin.ofNat 4 ((a - 0x60) / 4))) := by
  rw [locate, if_neg (by omega), locateArray]
  iterate 3 rw [if_neg (by omega)]
  exact if_pos ⟨h1, h2⟩

theorem locate_buf (h1 : 0x1000 ≤ a) (h2 : a < 0x1000 + Config.bufBytes c) :
    locate c a = some (.buf ((a - 0x1000) / 4)) := by
  have hsched : ¬ (schedBase ≤ a ∧ a < schedBase + 240) := by
    unfold schedBase
    omega
  rw [locate, if_neg (by omega), locateArray]
  iterate 4 rw [if_neg (by omega)]
  rw [if_neg hsched]
  exact if_pos ⟨h1, h2⟩

end

/-- The word of a write at `base + 4j` puts byte `k - 4j` of its data at index `k` of the array (R67). -/
theorem byte_ofWord_eq_storedByte {t : Transaction} {base j : Nat} (h : t.addr.toNat = base + 4 * j) (k : Nat)
    (old : Byte) :
    (if 4 * j ≤ k ∧ k < 4 * j + 4 then (Quad.ofWord t.wdata).byte (k - 4 * j) else old) = storedByte t base k old := by
  unfold storedByte
  by_cases hk : 4 * j ≤ k ∧ k < 4 * j + 4
  · rw [if_pos hk, if_pos (by omega), Quad.ofWord_byte _ _ (by omega), h,
      show base + k - (base + 4 * j) = k - 4 * j by omega]
  · rw [if_neg hk, if_neg (by omega)]

/-- The bytes of a 16-byte array after a bus word was written into it (R67). -/
theorem Block.byte_setQuad_eq_storedByte {t : Transaction} {base : Nat} (h1 : base ≤ t.addr.toNat)
    (h2 : t.addr.toNat < base + 16) (halign : (t.addr.toNat - base) % 4 = 0) (b : Block) {k : Nat} (hk : k < 16) :
    (b.setQuad (Fin.ofNat 4 ((t.addr.toNat - base) / 4)) (Quad.ofWord t.wdata)).byte k =
      storedByte t base k (b.byte k) := by
  have hj : (Fin.ofNat 4 ((t.addr.toNat - base) / 4)).val = (t.addr.toNat - base) / 4 := Nat.mod_eq_of_lt (by omega)
  rw [Block.byte_setQuad _ _ _ _ hk]
  exact byte_ofWord_eq_storedByte (by rw [hj]; omega) k _

/-- The bytes of KEY after a bus word was written into it (R67). -/
theorem State.keyByte_set_eq_storedByte {t : Transaction} (h1 : 0x20 ≤ t.addr.toNat) (h2 : t.addr.toNat < 0x40)
    (halign : t.addr.toNat % 4 = 0) (s : State) (k : Nat) :
    ({ s with
        key := s.key.set (Fin.ofNat 8 ((t.addr.toNat - 0x20) / 4)) (Quad.ofWord t.wdata) } : State).keyByte k =
      storedByte t 0x20 k (s.keyByte k) := by
  have hj : (Fin.ofNat 8 ((t.addr.toNat - 0x20) / 4)).val = (t.addr.toNat - 0x20) / 4 := Nat.mod_eq_of_lt (by omega)
  rw [State.keyByte_set]
  exact byte_ofWord_eq_storedByte (by rw [hj]; omega) k _

/-- The bytes of BUF after a bus word was written into it (R67). -/
theorem State.bufByte_setBufQuad_eq_storedByte {t : Transaction} (h1 : 0x1000 ≤ t.addr.toNat)
    (halign : t.addr.toNat % 4 = 0) (s : State) (k : Nat) :
    (s.setBufQuad ((t.addr.toNat - 0x1000) / 4) (Quad.ofWord t.wdata)).bufByte k =
      storedByte t 0x1000 k (s.bufByte k) := by
  rw [State.bufByte_setBufQuad]
  exact byte_ofWord_eq_storedByte (by omega) k _

/-- Settles O21: each array's range reaches a word of that array, whose four bytes are those of the data. -/
theorem idleWriteStoresFourBytes : Obligations.IdleWriteStoresFourBytes := by
  intro s t hidle hwrite hsize halign
  have happly {l : Loc} (hloc : locate s.capacity t.addr.toNat = some l) :
      s.transact t = { s.writeLoc l t.wdata with rsp := some .okay } :=
    State.transact_write_idle hidle hwrite ((if_pos ⟨hsize, halign⟩).trans hloc)
  refine ⟨fun h1 h2 => ?_, fun h1 h2 => ?_, fun h1 h2 => ?_, fun h1 h2 => ?_, fun h1 h2 => ?_⟩
  · rw [happly (locate_key h1 h2)]
    exact ⟨rfl, fun k _ => State.keyByte_set_eq_storedByte h1 h2 halign s k⟩
  · rw [happly (locate_iv h1 h2)]
    exact ⟨rfl, fun k hk => Block.byte_setQuad_eq_storedByte h1 h2 (by omega) s.iv hk⟩
  · rw [happly (locate_state h1 h2)]
    exact ⟨rfl, fun k hk => Block.byte_setQuad_eq_storedByte h1 h2 (by omega) s.st hk⟩
  · rw [happly (locate_rk h1 h2)]
    exact ⟨rfl, fun k hk => Block.byte_setQuad_eq_storedByte h1 h2 (by omega) s.rk hk⟩
  · rw [happly (locate_buf h1 h2)]
    exact ⟨rfl, fun k => State.bufByte_setBufQuad_eq_storedByte h1 halign s k⟩

/-! ## A write done twice (R70) -/

/-- A write to any location but CMD leaves the core idle (R63). -/
theorem State.writeLoc_phase {l : Loc} (hl : l ≠ .cmd) (s : State) (v : Word) : (s.writeLoc l v).phase = s.phase := by
  cases l with
  | cmd => exact absurd rfl hl
  | key | iv | state | rk | buf | keycfg | len | id | status | result | cap | sched => rfl

/-- Applying a write to any location but CMD again, whatever the response in between, changes nothing (R70). -/
theorem State.writeLoc_twice {s : State} {l : Loc} (hl : l ≠ .cmd) (hbuf : s.buf.wf) (v : Word)
    (r : Option BusResponse) :
    ({ s.writeLoc l v with rsp := r } : State).writeLoc l v = { s.writeLoc l v with rsp := r } := by
  cases l with
  | cmd => exact absurd rfl hl
  | key j => simp [State.writeLoc]
  | iv j | state j | rk j => simp [State.writeLoc, Block.setQuad_setQuad]
  | buf j => simp [State.writeLoc, State.setBufQuad, Memory.writeBytes_twice hbuf]
  | keycfg | len | id | status | result | cap | sched => rfl

/-- CMD stands at 0x0004 and nowhere else (R61). -/
theorem ne_cmd_of_locate {c : Config.Capacity} {a : Nat} {l : Loc} (h : locate c a = some l) (ha : a ≠ 0x04) :
    l ≠ .cmd := by
  rintro rfl
  have hcases := locate_cases h
  simp [ha] at hcases

/-- Settles O24: the write reaches the same word of an idle core both times, or no word at all. -/
theorem idleWritesButToCmdAreIdempotent : Obligations.IdleWritesButToCmdAreIdempotent := by
  intro s t hidle ⟨hwf, _⟩ hwrite haddr
  have hcapacity := (s.transact_keeps t).capacity
  cases htarget : t.target s.capacity with
  | none =>
    rw [State.transact_of_target_none (hcapacity ▸ htarget), State.transact_of_target_none htarget]
  | some l =>
    have hl : l ≠ .cmd :=
      ne_cmd_of_locate (Transaction.locate_of_target htarget) fun h => haddr (BitVec.eq_of_toNat_eq h)
    have hfirst := State.transact_write_idle hidle hwrite htarget
    have hstillIdle : (s.transact t).phase = .idle := by
      rw [hfirst]
      exact (State.writeLoc_phase hl s t.wdata).trans hidle
    rw [State.transact_write_idle hstillIdle hwrite (hcapacity ▸ htarget), hfirst,
      State.writeLoc_twice hl hwf]

/-! ## WAIT (R74) -/

theorem target_readAt_status (c : Config.Capacity) : (readAt 0x0008).target c = some .status := by
  simp [Transaction.target, readAt, locate, locateScalar]

/-- A STATUS read of an idle core answers the STATUS word as it stands. -/
theorem State.transact_readStatus_idle {s : State} (h : s.isBusy = false) :
    s.transact (readAt 0x0008) = { s with rsp := some (.okayData s.statusWord) } := by
  rw [State.transact_read (target_readAt_status _) rfl, State.hostRead_idle h]
  rfl

/-- A clock edge before the completion with WAIT next is a STATUS read, and WAIT stays pending. -/
theorem State.busyCycle_wait {s : State} {rest : List HostEvent} (hhost : s.host = .wait :: rest)
    (hbusy : s.isBusy = true) (n : Nat) : s.busyCycle n = { s.transact (readAt 0x0008) with latency := n } := by
  rw [State.busyCycle, State.serve_wait hhost, if_pos hbusy, ← hhost,
    State.transact_read (target_readAt_status _) rfl, State.hostRead_frame]

/-- Settles O25: a completion and a clock edge before it leave WAIT pending; idle, the read gives STATUS. -/
theorem waitEndsOnlyWhenNotBusy : Obligations.WaitEndsOnlyWhenNotBusy := by
  intro s rest hhost ha
  have hu := State.undisturbed_of_head hhost rfl
  refine ⟨fun hbusy => ?_, fun n hbusy hlatency => ?_, fun hidle => ?_⟩
  · have hphase := State.busy_of_isBusy hbusy
    cases hlatency : s.latency with
    | zero =>
      obtain ⟨t, ht⟩ := s.runCommand_next
      exact ⟨t, (step_of_due hphase hlatency ha hu).trans ht,
        (State.completion_of_runCommand ht).keeps.host.trans hhost⟩
    | succ n =>
      refine ⟨_, step_of_busy hu ha hphase hlatency, ?_⟩
      rw [State.busyCycle, State.serve_wait hhost, if_pos hbusy]
  · rw [step_of_busy hu ha hbusy hlatency, State.busyCycle_wait hhost (State.isBusy_of_busy hbusy)]
  · obtain ⟨hlife, hkey⟩ := s.statusWord_fields
    have hread := State.transact_readStatus_idle hidle
    refine ⟨s.statusWord, ?_, hlife.1.trans hidle, hlife, hkey⟩
    rw [step_of_idle hu ha (State.idle_of_not_isBusy hidle), State.serve_wait hhost, hidle, hread]
    rfl

end Sys2Proof.Machine
end

section
/-! PROOFS. ECB_PARALLEL changes no result (`44_modes.md` R209, `00_scope.md` R8). -/

namespace Sys2Proof.Machine

/-- The same state under another ECB_PARALLEL. -/
def State.withParallel (p : Bool) (s : State) : State := { s with ecbParallel := p }

section
variable (p : Bool) (s : State)

/-- Two runs of a command end alike when their results differ in ECB_PARALLEL only. -/
theorem State.conclude_withParallel {r r' : Except CmdError State} (h : r' = r.map (State.withParallel p)) :
    ∃ t, s.conclude r = .next t ∧ (s.withParallel p).conclude r' = .next (t.withParallel p) := by
  subst h
  cases r <;> exact ⟨_, rfl, rfl⟩

@[simp] theorem State.checkKeySize_withParallel : (s.withParallel p).checkKeySize = s.checkKeySize := rfl
@[simp] theorem State.work_withParallel : (s.withParallel p).work = s.work := rfl
@[simp] theorem State.encryptBlock_withParallel : (s.withParallel p).encryptBlock = s.encryptBlock := rfl
@[simp] theorem State.decryptBlock_withParallel : (s.withParallel p).decryptBlock = s.decryptBlock := rfl
@[simp] theorem State.startBlocks_withParallel :
    (s.withParallel p).startBlocks = s.startBlocks.withParallel p := rfl
@[simp] theorem State.nextBlock_withParallel : (s.withParallel p).nextBlock = s.nextBlock.withParallel p := rfl
@[simp] theorem State.setPrev_withParallel (b : Block) :
    (s.withParallel p).setPrev b = (s.setPrev b).withParallel p := rfl
@[simp] theorem State.setNextPrev_withParallel (b : Block) :
    (s.withParallel p).setNextPrev b = (s.setNextPrev b).withParallel p := rfl
@[simp] theorem State.block_withParallel : (s.withParallel p).block = s.block := rfl
@[simp] theorem State.setBlock_withParallel (i : Nat) (b : Block) :
    (s.withParallel p).setBlock i b = (s.setBlock i b).withParallel p := by
  simp only [State.setBlock, State.withParallel]

end

/-! ## The mode commands (R200 to R204) -/

/-- The block function of a mode does not see ECB_PARALLEL. -/
def IgnoresParallel (body : State → State → State) : Prop :=
  ∀ (p : Bool) (s : State), sequentially body (s.withParallel p) = (sequentially body s).withParallel p

theorem ecbEncBlock_ignoresParallel : IgnoresParallel ecbEncBlock := fun p s => by
  simp [sequentially, ecbEncBlock]

theorem ecbDecBlock_ignoresParallel : IgnoresParallel ecbDecBlock := fun p s => by
  simp [sequentially, ecbDecBlock]

theorem cbcEncBlock_ignoresParallel : IgnoresParallel cbcEncBlock := fun p s => by
  simp [sequentially, cbcEncBlock]

theorem cbcDecBlock_ignoresParallel : IgnoresParallel cbcDecBlock := fun p s => by
  simp [sequentially, cbcDecBlock, State.storePlaintext, State.saveCiphertext]

section
variable {p : Bool}

theorem IgnoresParallel.times {body : State → State → State} (h : IgnoresParallel body) (n : Nat) (s : State) :
    times n (sequentially body) (s.withParallel p) = (times n (sequentially body) s).withParallel p := by
  induction n with
  | zero => rfl
  | succ n ih => rw [times_succ, times_succ, ih, h]

theorem State.modeSetup_withParallel (s : State) :
    (s.withParallel p).modeSetup = s.modeSetup.map (State.withParallel p) := by
  unfold State.modeSetup
  rw [State.checkKeySize_withParallel]
  cases s.checkKeySize with
  | error e => rfl
  | ok ks =>
    simp only [apply_ite (Except.map (State.withParallel p))]
    rfl

/-- `exec i` answers, and under another ECB_PARALLEL it answers the same but for the parameter. -/
def ResultIgnoresParallel (i : Instr) (s : State) (p : Bool) : Prop :=
  ∃ t, exec i s = .next t ∧ exec i (s.withParallel p) = .next (t.withParallel p)

/-- A mode command's blocks come out as in the sequential loop under both settings (R209). -/
theorem RunsMode.resultIgnoresParallel {i : Instr} {body : State → State → State} (hi : RunsMode i body)
    (hbody : IgnoresParallel body) (s : State) : ResultIgnoresParallel i s p := by
  rw [ResultIgnoresParallel, hi.exec_eq, hi.exec_eq]
  refine State.conclude_withParallel p s ?_
  rw [State.modeSetup_withParallel]
  cases s.modeSetup with
  | error e => rfl
  | ok t =>
    have hblocks : (t.withParallel p).startBlocks.runBlocks t.blockCount body =
        (t.startBlocks.runBlocks t.blockCount body).withParallel p := by
      rw [hi.modeBody.runBlocks_eq, hi.modeBody.runBlocks_eq, State.startBlocks_withParallel, hbody.times]
    exact congrArg Except.ok hblocks

/-! ## Every command -/

theorem exec_resultIgnoresParallel (i : Instr) (s : State) : ResultIgnoresParallel i s p := by
  cases i
  case ecbEnc => exact ecbEnc_runsMode.resultIgnoresParallel ecbEncBlock_ignoresParallel s
  case ecbDec => exact ecbDec_runsMode.resultIgnoresParallel ecbDecBlock_ignoresParallel s
  case cbcEnc => exact cbcEnc_runsMode.resultIgnoresParallel cbcEncBlock_ignoresParallel s
  case cbcDec => exact cbcDec_runsMode.resultIgnoresParallel cbcDecBlock_ignoresParallel s
  case encrypt =>
    rw [ResultIgnoresParallel, exec, exec, execEncrypt_eq, execEncrypt_eq]
    refine State.conclude_withParallel p s ?_
    rw [apply_ite (Except.map (State.withParallel p))]
    rfl
  case decrypt =>
    rw [ResultIgnoresParallel, exec, exec, execDecrypt_eq, execDecrypt_eq]
    refine State.conclude_withParallel p s ?_
    rw [apply_ite (Except.map (State.withParallel p))]
    rfl
  case rcon x =>
    refine State.conclude_withParallel p s ?_
    cases rcon? x.toNat <;> rfl
  case numrounds | numkeywords =>
    refine State.conclude_withParallel p s ?_
    rw [State.checkKeySize_withParallel]
    cases s.checkKeySize <;> rfl
  case keyexp =>
    refine State.conclude_withParallel p s ?_
    rw [State.checkKeySize_withParallel]
    cases s.checkKeySize with
    | error e => rfl
    | ok ks =>
      dsimp only
      rw [apply_ite (Except.map (State.withParallel p))]
      rfl
  case getrk r =>
    refine State.conclude_withParallel p s ?_
    simp only [apply_ite (Except.map (State.withParallel p))]
    rfl
  all_goals exact State.conclude_withParallel p s (r := .ok _) rfl

end

/-- Settles O57: no result depends on the parameter, and no step writes it. -/
theorem ecbParallelismDoesNotChangeTheResult : Obligations.EcbParallelismDoesNotChangeTheResult :=
  ⟨fun i s _ => exec_resultIgnoresParallel i s, fun _ _ h => (step_keeps_parameters h).2⟩

end Sys2Proof.Machine
end
